-- ==== Sys2Proof/Word.lean ====
section
/-! DEFINITION. The word types of the hardware: a byte of a stream (spec rule R12: bit 7 is the most
significant bit, every value is unsigned). One-bit registers and lines are `Bool`, `true` for 1. -/

namespace Sys2Proof

/-- A stream byte, an opcode byte, a shift register (rules R12, R25, R26, R71). -/
abbrev Byte := BitVec 8

/-- The 16-bit byte count or microsecond count of SHIFT and DELAY (rules R23, R94). -/
abbrev Count := BitVec 16

end Sys2Proof
end

