-- ==== Sys2Proof/Syntax.lean ====
section
/-! DEFINITION. The commands of the wire protocol (rules R90 to R98), one constructor for each row of
spec/opcode_table.json, with every operand of its frame (rule R91) in the order of the notation of rule
R104. -/

namespace Sys2Proof

/-- A command with the operands of its frame. -/
inductive Instr where
  /-- `SELECT level` (rule R200). -/
  | select (level : Bool)
  /-- `SHIFT.NONE n` (rule R211). -/
  | shiftNone (n : Count)
  /-- `SHIFT.OUT n, payload` (rule R212). -/
  | shiftOut (n : Count) (payload : List Byte)
  /-- `SHIFT.IN n` (rule R213). -/
  | shiftIn (n : Count)
  /-- `SHIFT.IO n, payload` (rule R214). -/
  | shiftIo (n : Count) (payload : List Byte)
  /-- `DELAY n` (rule R240). -/
  | delay (n : Count)
  /-- `SYNC` (rule R250). -/
  | sync
  /-- `OE enable` (rule R260). -/
  | oe (enable : Bool)
  deriving DecidableEq, Repr, Inhabited

end Sys2Proof
end

