-- ==== Sys2Proof/WellFormed.lean ====
section
/-! DEFINITION. When a command is a frame of rule R91: the payload has exactly as many bytes as the count
says (rule R104: "The payload list must have exactly `n` bytes"). -/

namespace Sys2Proof

/-- Rule R104: the assembler refuses a payload of any other length than the count. -/
def Instr.wellFormed : Instr → Bool
  | .select _          => true
  | .shiftNone _       => true
  | .shiftOut n payload => payload.length == n.toNat
  | .shiftIn _         => true
  | .shiftIo n payload  => payload.length == n.toNat
  | .delay _           => true
  | .sync              => true
  | .oe _              => true

/-- The check as a proposition. -/
abbrev Instr.WF (i : Instr) : Prop := i.wellFormed = true

end Sys2Proof
end

