-- ==== Sys2Proof/Decode.lean ====
section
/-! DEFINITION. Decoding of the command stream (rules R90 to R102) and, after it, the encoder. -/

namespace Sys2Proof

/-- The rows of spec/opcode_table.json, by name. -/
inductive Opcode where
  | select | shiftNone | shiftOut | shiftIn | shiftIo | delay | sync | oe
  deriving DecidableEq, Repr, Inhabited

/-- The frame formats of rule R91. -/
inductive Format where
  /-- F1: the opcode byte alone. -/
  | f1
  /-- F3: the opcode byte and the two count bytes. -/
  | f3
  /-- F3P: the opcode byte, the two count bytes and as many payload bytes as the count says. -/
  | f3p
  deriving DecidableEq, Repr, Inhabited

/-- One row of the opcode map: an opcode byte `b` belongs to it when `b &&& mask = value` (rule R92). -/
structure OpcodeRow where
  op     : Opcode
  mask   : Byte
  value  : Byte
  format : Format
  deriving DecidableEq, Repr, Inhabited

/-- The opcode map of rule R92 and of spec/opcode_table.json. -/
def opcodeTable : List OpcodeRow :=
  [ ⟨.select,    0xFE, 0x00, .f1⟩,
    ⟨.shiftNone, 0xFF, 0x10, .f3⟩,
    ⟨.shiftOut,  0xFF, 0x11, .f3p⟩,
    ⟨.shiftIn,   0xFF, 0x12, .f3⟩,
    ⟨.shiftIo,   0xFF, 0x13, .f3p⟩,
    ⟨.delay,     0xFF, 0x20, .f3⟩,
    ⟨.sync,      0xFF, 0x30, .f1⟩,
    ⟨.oe,        0xFE, 0x40, .f1⟩ ]

/-- The row an opcode byte belongs to; `none` for the 246 malformed opcodes (rules R92, R99). -/
def lookupOpcode (b : Byte) : Option OpcodeRow :=
  opcodeTable.find? fun row => b &&& row.mask == row.value

/-- Rules R94, R69: `count = {count_hi, count_lo}`, little-endian. -/
def countOf (lo hi : Byte) : Count := (hi ++ lo : BitVec (8 + 8))

/-- `count[7:0]` (rule R23). -/
def countLo (n : Count) : Byte := n.extractLsb' 0 8

/-- `count[15:8]` (rule R23). -/
def countHi (n : Count) : Byte := n.extractLsb' 8 8

/-- What the decoder says of the bytes at a frame boundary. -/
inductive Decoded where
  /-- A whole frame is there: the command and the bytes behind it. -/
  | frame (i : Instr) (rest : List Byte)
  /-- Bytes of the frame are still to come (rule R101). -/
  | short
  /-- The first byte is a malformed opcode (rule R99). -/
  | malformed (b : Byte)
  deriving DecidableEq, Repr, Inhabited

/-- The payload of an F3P frame: the first `n` bytes, when they are there (rules R91, R93). -/
def takePayload : Nat → List Byte → Option (List Byte × List Byte)
  | 0,     bs      => some ([], bs)
  | _ + 1, []      => none
  | n + 1, b :: bs => (takePayload n bs).map fun (p, rest) => (b :: p, rest)

/-- The command a row's opcode byte, count and payload stand for (rules R95 to R98). -/
def instrOf (op : Opcode) (b : Byte) (n : Count) (payload : List Byte) : Instr :=
  match op with
  | .select    => .select (b.getLsbD 0)
  | .shiftNone => .shiftNone n
  | .shiftOut  => .shiftOut n payload
  | .shiftIn   => .shiftIn n
  | .shiftIo   => .shiftIo n payload
  | .delay     => .delay n
  | .sync      => .sync
  | .oe        => .oe (b.getLsbD 0)

/-- The decoder at a frame boundary, total on any bytes (rules R90 to R101). -/
def decode : List Byte → Decoded
  | [] => .short
  | b :: bs =>
    match lookupOpcode b with
    | none => .malformed b
    | some row =>
      match row.format, bs with
      | .f1,  bs             => .frame (instrOf row.op b 0 []) bs
      | .f3,  lo :: hi :: bs => .frame (instrOf row.op b (countOf lo hi) []) bs
      | .f3p, lo :: hi :: bs =>
        match takePayload (countOf lo hi).toNat bs with
        | some (payload, rest) => .frame (instrOf row.op b (countOf lo hi) payload) rest
        | none                 => .short
      | _,    _              => .short

/-- Bit 0 of an opcode byte as a byte (rules R95, R97, R104). -/
def operandBit (v : Bool) : Byte := if v then 1 else 0

/-- The bytes of a command on the command stream (rule R104). -/
def encode : Instr → List Byte
  | .select level       => [0x00 ||| operandBit level]
  | .shiftNone n        => [0x10, countLo n, countHi n]
  | .shiftOut n payload => [0x11, countLo n, countHi n] ++ payload
  | .shiftIn n          => [0x12, countLo n, countHi n]
  | .shiftIo n payload  => [0x13, countLo n, countHi n] ++ payload
  | .delay n            => [0x20, countLo n, countHi n]
  | .sync               => [0x30]
  | .oe enable          => [0x40 ||| operandBit enable]

/-- Rule R93: the length of a frame in bytes, which is the number of pops the command performs. -/
def frameLength : Instr → Nat
  | .select _     => 1
  | .shiftNone _  => 3
  | .shiftOut n _ => 3 + n.toNat
  | .shiftIn _    => 3
  | .shiftIo n _  => 3 + n.toNat
  | .delay _      => 3
  | .sync         => 1
  | .oe _         => 1

/-- Rule R104: a program's bytes are the encodings of its commands in order; a command whose payload does
not have the length its count says is refused. -/
def assemble : List Instr → Option (List Byte)
  | []      => some []
  | i :: is => if i.wellFormed then (assemble is).map (encode i ++ ·) else none

/-- A program read from a whole byte string, frame by frame from a known boundary (rule R101); `none` when
the bytes are not a concatenation of frames. The first argument bounds the number of frames. -/
def disassembleWith : Nat → List Byte → Option (List Instr)
  | _,        []  => some []
  | 0,        _   => none
  | fuel + 1, bs  =>
    match decode bs with
    | .frame i rest => (disassembleWith fuel rest).map (i :: ·)
    | _             => none

/-- `disassembleWith` with as many frames as there are bytes, which is always enough (rule R93). -/
def disassemble (bs : List Byte) : Option (List Instr) := disassembleWith bs.length bs

/-- The first `k` bytes of the number `w`, the least significant first. -/
def bytesOfWord : Nat → Nat → List Byte
  | 0,     _ => []
  | k + 1, w => BitVec.ofNat 8 w :: bytesOfWord k (w / 256)

/-- The bytes of an instruction whose bits are `w` on `nbits` bits, and zeros behind them: the count bytes
the table gives no bits and the payload such a count asks for. -/
def tableWordBytes (nbits w : Nat) : List Byte :=
  let v := w % 2 ^ nbits
  bytesOfWord (nbits / 8) v ++ List.replicate (2 + v / 256 % 65536) 0

/-- What the decoder reads from an instruction whose bits are `w`, numbered as spec/opcode_table.json
numbers them. -/
def decodeTableWord (nbits w : Nat) : Option Instr :=
  match decode (tableWordBytes nbits w) with
  | .frame i _ => some i
  | _          => none

end Sys2Proof
end

