-- ==== Sys2Proof/Config.lean ====
section
/-! DEFINITION. The parameters of the core (rules R6 to R8, 92_eei_decisions.md P1 to P5), the inputs one
tick takes from the environment (rules R10, R37), and the free values: what no rule constrains. -/

namespace Sys2Proof

/-- `sck_edge`: the edge of the bus clock on which data-in is sampled (rules R6, R124). -/
inductive SckEdge where
  | rising
  | falling
  deriving DecidableEq, Repr, Inhabited

/-- Parameter P5: what the model makes of the underrun of rule R170 (rule R283). `draw` is the default. -/
inductive UnderrunPolicy where
  | draw
  | fault
  deriving DecidableEq, Repr, Inhabited

/-- The parameters of rule R6 and P5. They are held in `State` so that every statement quantifies over
them (notes/assumptions/2.md); only a reset changes them (rules R8, R311). -/
structure Params where
  /-- `sck_idle`: the level of the bus clock at rest. -/
  sckIdle : Bool
  /-- `sck_edge`: the sampling edge. -/
  sckEdge : SckEdge
  /-- `HALF_PERIOD_CYC`: ticks in half a bus-clock period. -/
  halfPeriodCyc : Nat
  /-- `DELAY_CYC`: ticks in one DELAY unit. -/
  delayCyc : Nat
  /-- P5: the treatment of an underrun. -/
  underrun : UnderrunPolicy
  deriving DecidableEq, Repr, Inhabited

/-- Rules R6, R7, R300: the parameter values that are a configuration of this hardware. -/
abbrev Params.Valid (p : Params) : Prop := 2 ≤ p.halfPeriodCyc ∧ 1 ≤ p.delayCyc

/-- The parameters at `State.reset`. DESIGN CHOICE (notes/assumptions/2.md), unsafe for a statement about
`State.reset` alone: the source gives no default; these are the values of the conventions of
95_test_vectors.md. -/
def Params.initial : Params :=
  { sckIdle := false, sckEdge := .rising, halfPeriodCyc := 2, delayCyc := 1, underrun := .draw }

/-- What comes with an asserted `rst`: the parameters from then on (rule R311) and whether the transport
is reconnected as well, that is, both streams emptied (rule R313; the core itself never empties them). -/
structure ResetInput where
  params    : Params
  reconnect : Bool
  deriving DecidableEq, Repr, Inhabited

/-- The inputs of one tick (rules R10, R37): each agent of the environment decides its own field freely. -/
structure TickInput where
  /-- `rst`: `some` when reset is asserted in this tick (rule R310). -/
  rst      : Option ResetInput
  /-- The byte the command producer appends in this tick, if any; visible from the next tick (rule R64). -/
  arrive   : Option Byte
  /-- `rsp_ready`: the response stream can take one byte (rule R66). -/
  rspReady : Bool
  /-- How many bytes the response consumer removes from the head in this tick (rule R66). -/
  take     : Nat
  /-- The level of the physical data-in line in this tick (rule R126). -/
  dinPin   : Bool
  deriving DecidableEq, Repr, Inhabited

/-- A tick in which nothing happens outside: no reset, no byte, room for a response, data-in low. Used by
`State.withFetchWord` and by tests; no rule of the machine uses it. -/
def TickInput.quiet : TickInput :=
  { rst := none, arrive := none, rspReady := true, take := 0, dinPin := false }

/-- FREE VALUE (rule R10: "the model quantifies over every behaviour of each"): the inputs of the ticks that
`State.inputs` does not list, indexed by `State.clock`. It has no body (notes/assumptions/3.md), safe. -/
opaque Config.freeInput : Nat → TickInput

/-- FREE VALUE, `draw(8)` (rules R14, R62, R170): what a read of `cmd_data` gives while `cmd_valid = 0`,
indexed by `State.clock`. It has no body (notes/assumptions/8.md), safe. -/
opaque Config.freeCmdData : Nat → Byte

end Sys2Proof
end

