-- ==== Sys2Proof/Machine/State.lean ====
section
/-! DEFINITION. Everything the spec gives the machine (10_state.md rules R20 to R42), as plain data: the
thirteen registers of the core, and around them the streams, the synchronizer and the record of a run. -/

namespace Sys2Proof.Machine

/-- The nine values of the register `state` (rule R21). -/
inductive Fsm where
  | receiveCommand
  | sync
  | receiveCount1
  | receiveCount2
  | delay
  | countCheck
  | receiveData
  | transfer
  | sendData
  deriving DecidableEq, Repr, Inhabited

/-- The state of the core: exactly the thirteen registers of rule R20. -/
structure Regs where
  /-- `state`: the state of the state machine (rule R21). -/
  state  : Fsm
  /-- `cmd`: the last opcode byte consumed (rule R22). -/
  cmd    : Byte
  /-- `count`: bytes or microseconds left (rule R23). -/
  count  : Count
  /-- `bitno`: bus-clock periods still to start in this byte (rule R24). -/
  bitno  : BitVec 4
  /-- `shreg_o`: the output shift register (rule R25). -/
  shregO : Byte
  /-- `shreg_i`: the input shift register (rule R26). -/
  shregI : Byte
  /-- `timer`: ticks left in the current microsecond; as wide as `DELAY_CYC` needs (rule R27, D22). -/
  timer  : Nat
  /-- `cs`: logical chip-select, 1 = asserted (rule R28). -/
  cs     : Bool
  /-- `oe`: chip-select driver enable, 1 = driven (rule R29). -/
  oe     : Bool
  /-- `phase`: the bus clock before the idle level is applied (rule R30). -/
  phase  : Bool
  /-- `phase_r`: `phase` of the previous tick (rule R30). -/
  phaseR : Bool
  /-- `ctr`: ticks left in the half-period; as wide as `HALF_PERIOD_CYC` needs (rule R30, D22). -/
  ctr    : Nat
  /-- `sck_r`: `sck` of the previous tick (rule R31). -/
  sckR   : Bool
  deriving DecidableEq, Repr, Inhabited

/-- The registers after reset (rules R20, R40): the reset column of the table of rule R20. The values of
`state` and `oe` are the source's, the others the spec's decision D8. -/
def Regs.reset (p : Params) : Regs :=
  { state := .receiveCommand, cmd := 0x00, count := 0x0000, bitno := 0, shregO := 0x00, shregI := 0x00,
    timer := 0, cs := false, oe := true, phase := false, phaseR := false, ctr := 0, sckR := p.sckIdle }

/-- A bus event (rule R16). -/
inductive BusEvent where
  /-- The register `cs` takes the level. -/
  | cs (level : Bool)
  /-- The register `oe` takes the value. -/
  | oe (enable : Bool)
  /-- The bus clock leaves its idle level while `dout` has the value. -/
  | lead (dout : Bool)
  /-- The bus clock returns to its idle level while `dout` has the value. -/
  | trail (dout : Bool)
  /-- The output shift register shifts. -/
  | setup
  /-- The input shift register takes in the bit. -/
  | latch (bit : Bool)
  deriving DecidableEq, Repr, Inhabited

/-- Why a run has no further meaning (rules R281, R282, R286). A fault is first RECORDED in `State.fault` by
the tick that meets its cause; `step` then answers it, until `rst` clears it. -/
inductive Fault where
  /-- Raised in `RECEIVE_COMMAND` by a popped byte that is none of the ten opcodes (rules R99, R163, R282).
  Safe: the source leaves the behaviour open, so nothing is claimed of what follows. -/
  | malformedOpcode (b : Byte)
  /-- Raised in `RECEIVE_DATA` by the underrun of rule R170 when parameter P5 is `fault` (rule R283). Safe:
  the spec allows it in place of the draw. -/
  | cmdUnderrun
  deriving DecidableEq, Repr, Inhabited

/-- Why the model takes no step at all. -/
inductive Refusal where
  /-- Raised by an arm of `exec` that has no meaning yet; no arm of this model is left so. Safe. -/
  | notModelled (mnemonic : String)
  /-- Raised by `State.guarded` when the parameters are not a configuration of this hardware (rules R7,
  R151, R300: "a model must refuse it and not run it"). Safe. -/
  | badConfiguration
  deriving DecidableEq, Repr, Inhabited

/-- The machine with its surroundings. -/
structure State where
  /-- The parameters of the run (rule R6), changed by a reset only (rules R8, R311). -/
  params    : Params
  /-- The thirteen registers of the core (rule R20). -/
  core      : Regs
  /-- The fault recorded since the last reset (rules R282, R286). -/
  fault     : Option Fault
  /-- The command stream, head first (rules R36, R60). -/
  cmdq      : List Byte
  /-- The response stream, head first (rules R36, R60). -/
  rspq      : List Byte
  /-- The response bytes the consumer has taken and delivered to the host, in order (rule R66), that host
  software has not read yet (`State.readResponses`). -/
  delivered : List Byte
  /-- First stage of the data-in synchronizer (rules R36, R126). -/
  sync1     : Bool
  /-- Second stage of the data-in synchronizer: the input `din_s` of the core (rules R36, R126). -/
  sync2     : Bool
  /-- Position of the head of the command stream: bytes popped since reset (rule R32). -/
  popped    : Nat
  /-- The number of this tick; tick 0 is the first after reset (rule R310). -/
  tickNo    : Nat
  /-- The bus trace since reset: the tick and the event, oldest first (rule R16). -/
  trace     : List (Nat × BusEvent)
  /-- MODEL'S OWN: the inputs of the coming ticks, this tick's first (rule R10, notes/assumptions/3.md).
  Where the list has ended, the inputs are the free value `Config.freeInput`. -/
  inputs    : List TickInput
  /-- MODEL'S OWN: the index of the free values, advanced by every tick and never reset. -/
  clock     : Nat
  deriving DecidableEq, Repr, Inhabited

/-- The machine at tick 0 of a run with parameters `p`: every register at its reset value (rule R40), no
fault (rule R310), both streams empty (premise `P_STREAMS_EMPTY` of rule R318). -/
def State.resetWith (p : Params) : State :=
  { params := p, core := Regs.reset p, fault := none, cmdq := [], rspq := [], delivered := [],
    sync1 := false, sync2 := false, popped := 0, tickNo := 0, trace := [], inputs := [], clock := 0 }

/-- The machine right after reset, with the parameters of `Params.initial` (notes/assumptions/2.md). -/
def State.reset : State := State.resetWith Params.initial

end Sys2Proof.Machine
end

