-- ==== Sys2Proof/Machine/Flags.lean ====
section
/-! DEFINITION. The flags of SHIFT. The hardware has no condition codes (rule R33): "flags" means the operand
bits DATA-OUT and DATA-IN of a SHIFT opcode, which live in `cmd[0]` and `cmd[1]` while the command runs. -/

namespace Sys2Proof.Machine

/-- DATA-OUT: bit 0 of the opcode (rules R90, R96). -/
def dataOut (cmd : Byte) : Bool := cmd.getLsbD 0

/-- DATA-IN: bit 1 of the opcode (rules R90, R96). -/
def dataIn (cmd : Byte) : Bool := cmd.getLsbD 1

end Sys2Proof.Machine
end

