-- ==== Sys2Proof/Machine/ClockGen.lean ====
section
/-! DEFINITION. The Clock Generator (41_clock_generator.md rules R140 to R152). -/

namespace Sys2Proof.Machine

/-- Rule R141: the generator is enabled exactly in `TRANSFER`. -/
def clkEn (r : Regs) : Bool := r.state == .transfer

/-- Rules R144, R145: `stb_lead = ~phase_r & phase`, the source's "rising" strobe. -/
def stbLead (r : Regs) : Bool := !r.phaseR && r.phase

/-- Rules R144, R145: `stb_trail = phase_r & ~phase`, the source's "falling" strobe. -/
def stbTrail (r : Regs) : Bool := r.phaseR && !r.phase

/-- Rule R146: the bus clock, `sck = phase ^ sck_idle`. -/
def sckOf (p : Params) (r : Regs) : Bool := r.phase ^^ p.sckIdle

/-- Rules R142, R143: `phase`, `phase_r` and `ctr` at the end of a tick whose registers are `r`. -/
def clockGen (p : Params) (r : Regs) : Regs :=
  if clkEn r then
    if r.ctr = 0 then
      { r with phaseR := r.phase, ctr := p.halfPeriodCyc - 1, phase := !r.phase }
    else
      { r with phaseR := r.phase, ctr := r.ctr - 1 }
  else
    { r with phase := false, phaseR := false, ctr := 0 }

end Sys2Proof.Machine
end

