-- ==== Sys2Proof/Machine/Operands.lean ====
section
/-! DEFINITION. The operand forms of the commands (rules R94 to R98): the operand bit of SELECT and OE, and
the two halves of the 16-bit count as the state machine assembles them byte by byte. -/

namespace Sys2Proof.Machine

/-- Bit 0 of the opcode byte: the level of SELECT, the enable of OE (rules R95, R97). -/
def operandOf (b : Byte) : Bool := b.getLsbD 0

/-- Bits 7 to 4 of the opcode byte: the selector (rules R90, R102). -/
def selectorOf (b : Byte) : BitVec 4 := b.extractLsb' 4 4

/-- Rule R165: `count[7:0] <- b`; `count[15:8]` keeps its value. -/
def setCountLo (n : Count) (b : Byte) : Count := (n.extractLsb' 8 8 ++ b : BitVec (8 + 8))

/-- Rule R166: `count[15:8] <- b`; `count[7:0]` keeps its value. -/
def setCountHi (n : Count) (b : Byte) : Count := (b ++ n.extractLsb' 0 8 : BitVec (8 + 8))

/-- Rule R177: shift left by one, a zero bit inserted at the bottom. -/
def shiftOutLeft (v : Byte) : Byte := v <<< 1

/-- Rule R178: shift left by one, the sampled bit inserted at the bottom. -/
def shiftInLeft (v : Byte) (bit : Bool) : Byte := v <<< 1 ||| (if bit then 1 else 0)

end Sys2Proof.Machine
end

