-- ==== Sys2Proof/Machine/BusDriver.lean ====
section
/-! DEFINITION. The Bus Signal Driver (40_bus_signal_driver.md rules R120 to R131), the shift registers its
events move (rules R176 to R178) and the bus events of a tick (rule R16). -/

namespace Sys2Proof.Machine

/-- Rule R124: the pin is high after a tick in which it was low. -/
def sckRise (p : Params) (r : Regs) : Bool := !r.sckR && sckOf p r

/-- Rule R124: the pin is low after a tick in which it was high. -/
def sckFall (p : Params) (r : Regs) : Bool := r.sckR && !sckOf p r

/-- Rule R124: `latch`, the event on the sampling edge. -/
def latchEvent (p : Params) (r : Regs) : Bool :=
  match p.sckEdge with
  | .rising  => sckRise p r
  | .falling => sckFall p r

/-- Rule R124: `setup`, the event on the other edge. -/
def setupEvent (p : Params) (r : Regs) : Bool :=
  match p.sckEdge with
  | .rising  => sckFall p r
  | .falling => sckRise p r

/-- Rules R38, R176: `dout = shreg_o[7]`. -/
def doutOf (r : Regs) : Bool := r.shregO.getLsbD 7

/-- Rules R177, R178: the shift registers at the end of a tick, `din` being `din_s`. -/
def shiftRegs (p : Params) (din : Bool) (r : Regs) : Regs :=
  if setupEvent p r then { r with shregO := shiftOutLeft r.shregO }
  else if latchEvent p r then { r with shregI := shiftInLeft r.shregI din }
  else r

/-- Rule R123: `sck_r <- sck` in every tick. -/
def prevSample (p : Params) (r : Regs) : Regs := { r with sckR := sckOf p r }

/-- What every tick does whatever the state rule says: rules R177, R178, R142, R143 and R123, all reading the
registers of the tick. -/
def busUpdate (p : Params) (din : Bool) (r : Regs) : Regs :=
  let shifted := shiftRegs p din r
  let clocked := clockGen p r
  { shifted with phase := clocked.phase, phaseR := clocked.phaseR, ctr := clocked.ctr, sckR := sckOf p r }

/-- Rule R16: the edge of the bus clock first visible in this tick. -/
def edgeEvents (p : Params) (r : Regs) : List BusEvent :=
  if sckOf p r != r.sckR then
    [if sckOf p r != p.sckIdle then .lead (doutOf r) else .trail (doutOf r)]
  else []

/-- Rule R16: the shift of this tick. -/
def shiftEvents (p : Params) (din : Bool) (r : Regs) : List BusEvent :=
  if setupEvent p r then [.setup] else if latchEvent p r then [.latch din] else []

/-- The bus events of a tick other than those of SELECT and OE, the clock edge before the event it causes
(rules R16, R216). -/
def clockEvents (p : Params) (din : Bool) (r : Regs) : List BusEvent :=
  edgeEvents p r ++ shiftEvents p din r

end Sys2Proof.Machine
end

