-- ==== Sys2Proof/Machine/Ops.lean ====
section
/-! DEFINITION. The shared operations: what the core sees of a tick and what it answers, the two streams, the
recording of a fault and the reset that ends it, and the passing of a tick. -/

namespace Sys2Proof.Machine

/-- The inputs of the core in one tick (rules R37, R160). -/
structure CoreIn where
  cmdValid : Bool
  /-- Rule R62: the head byte; the free value when there is none. -/
  cmdData  : Byte
  rspReady : Bool
  dinS     : Bool
  deriving DecidableEq, Repr, Inhabited

/-- What the core answers in one tick: its registers in the next tick and what it does meanwhile. -/
structure CoreOut where
  regs   : Regs
  /-- `cmd_pop` (rule R63). -/
  pop    : Bool := false
  /-- `rsp_push` and `rsp_data` (rule R65). -/
  push   : Option Byte := none
  /-- The fault this tick records, if any (rules R14, R282, R283). -/
  fault  : Option Fault := none
  /-- The bus events of this tick (rule R16). -/
  events : List BusEvent := []
  deriving DecidableEq, Repr, Inhabited

/-- Recording a fault, the model's `raise` (rules R14, R282, R286): the registers are those given, nothing
else happens. The hardware has no exception of its own (rule R280). -/
def raiseFault (f : Fault) (regs : Regs) (pop : Bool) : CoreOut :=
  { regs := regs, pop := pop, fault := some f }

/-- The inputs of this tick: the script's, or the free value where the script has ended (rule R10). -/
def State.input (s : State) : TickInput :=
  match s.inputs with
  | x :: _ => x
  | []     => Config.freeInput s.clock

/-- `cmd_valid` (rule R62). -/
def State.cmdValid (s : State) : Bool := !s.cmdq.isEmpty

/-- `cmd_data` (rule R62): the head of the command stream; with no byte there, a draw. -/
def State.cmdData (s : State) : Byte :=
  match s.cmdq with
  | b :: _ => b
  | []     => Config.freeCmdData s.clock

/-- The inputs of the core in this tick (rules R37, R62, R66, R126). -/
def State.coreIn (s : State) : CoreIn :=
  { cmdValid := s.cmdValid, cmdData := s.cmdData, rspReady := s.input.rspReady, dinS := s.sync2 }

/-- `rst` is asserted in this tick (rule R310). -/
def State.inReset (s : State) : Bool := s.input.rst.isSome

/-- The command stream after a tick (rules R63, R64): the head removed by a pop (a pop of an empty stream
removes nothing), the byte the producer appends at the tail. -/
def nextCmdq (q : List Byte) (pop : Bool) (arrive : Option Byte) : List Byte :=
  (if pop then q.drop 1 else q) ++ arrive.toList

/-- The response stream after a tick (rules R65, R66): what the consumer takes leaves the head, what the core
pushes joins the tail. -/
def nextRspq (q : List Byte) (take : Nat) (push : Option Byte) : List Byte :=
  q.drop take ++ push.toList

/-- What the environment does in every tick, reset or not: the consumer's bytes reach the host in order
(rule R66), the script and the index of the free values move on. -/
def State.passTick (s : State) : State :=
  { s with delivered := s.delivered ++ s.rspq.take s.input.take,
           inputs := s.inputs.tail, clock := s.clock + 1 }

/-- A tick without reset in which the core answers `o`: registers, streams, synchronizer (rule R126:
`din_s(t) = din_pin(t - 2)`), head position (rule R32), trace (rule R16), recorded fault (rule R286). -/
def State.advance (s : State) (o : CoreOut) : State :=
  { s.passTick with
    core   := o.regs
    fault  := s.fault.or o.fault
    cmdq   := nextCmdq s.cmdq o.pop s.input.arrive
    rspq   := nextRspq s.rspq s.input.take o.push
    sync1  := s.input.dinPin
    sync2  := s.sync1
    popped := s.popped + (if o.pop && s.cmdValid then 1 else 0)
    tickNo := s.tickNo + 1
    trace  := s.trace ++ o.events.map fun e => (s.tickNo, e) }

/-- A tick with `rst` asserted (rules R161, R310, R311, R313): every register at its reset value under the
parameters given, no recorded fault, nothing popped or pushed; the streams are the environment's, which
may reconnect them. The run, and with it the trace and the tick number, begins again. -/
def State.resetTick (s : State) (x : ResetInput) : State :=
  { s.passTick with
    params := x.params
    core   := Regs.reset x.params
    fault  := none
    cmdq   := if x.reconnect then [] else nextCmdq s.cmdq false s.input.arrive
    rspq   := if x.reconnect then [] else nextRspq s.rspq s.input.take none
    sync1  := false
    sync2  := false
    popped := 0
    tickNo := 0
    trace  := [] }

/-- Bytes put at the head of the command stream. -/
def State.deliver (s : State) (bytes : List Byte) : State :=
  { s with cmdq := bytes ++ s.cmdq }

/-- The answer of a step that would go to `t`: a refusal under parameters that are no configuration (rule
R300), the recorded fault unless `rst` is asserted (rules R161, R282, R286), else `t`. -/
def State.guarded (s : State) (t : State) : Host.Outcome State Fault Refusal :=
  if s.params.Valid then
    match s.fault, s.inReset with
    | some f, false => .fault f
    | _,      _     => .next t
  else .refused .badConfiguration

end Sys2Proof.Machine
end

