-- ==== Sys2Proof/Machine/Interpreter.lean ====
section
/-! DEFINITION. The Command Interpreter (42_interpreter_fsm.md rules R160 to R190): one function for each of
the nine states, and the whole step of the core. In each, `r` holds the registers of the tick and `b` what
`busUpdate` makes of them; a state rule writes only the registers it names. -/

namespace Sys2Proof.Machine

/-- The opcode `byte`, popped in `RECEIVE_COMMAND`, takes effect (rule R163): `cmd` is written with every
opcode, SELECT and OE write their register and stay, SYNC, SHIFT and DELAY go on, anything else records
`MalformedOpcode` (rules R99, R282). -/
def acceptOpcode (byte : Byte) (b : Regs) : CoreOut :=
  let b := { b with cmd := byte }
  match (lookupOpcode byte).map OpcodeRow.op with
  | some .select    => { regs := { b with cs := operandOf byte }, pop := true, events := [.cs (operandOf byte)] }
  | some .oe        => { regs := { b with oe := operandOf byte }, pop := true, events := [.oe (operandOf byte)] }
  | some .sync      => { regs := { b with state := .sync }, pop := true }
  | some .shiftNone => { regs := { b with state := .receiveCount1 }, pop := true }
  | some .shiftOut  => { regs := { b with state := .receiveCount1 }, pop := true }
  | some .shiftIn   => { regs := { b with state := .receiveCount1 }, pop := true }
  | some .shiftIo   => { regs := { b with state := .receiveCount1 }, pop := true }
  | some .delay     => { regs := { b with state := .receiveCount1 }, pop := true }
  | none            => raiseFault (.malformedOpcode byte) b true

/-- `RECEIVE_COMMAND` (rule R163). -/
def onReceiveCommand (x : CoreIn) (b : Regs) : CoreOut :=
  if x.cmdValid then acceptOpcode x.cmdData b else { regs := b }

/-- `SYNC` (rule R164): one zero byte when the response stream has room. -/
def onSync (x : CoreIn) (b : Regs) : CoreOut :=
  if x.rspReady then { regs := { b with state := .receiveCommand }, push := some 0x00 } else { regs := b }

/-- `RECEIVE_COUNT_1` (rule R165): the low byte of the count. -/
def onReceiveCount1 (x : CoreIn) (r b : Regs) : CoreOut :=
  if x.cmdValid then
    { regs := { b with count := setCountLo r.count x.cmdData, state := .receiveCount2 }, pop := true }
  else { regs := b }

/-- `RECEIVE_COUNT_2` (rule R166): the high byte of the count; DELAY by the selector of `cmd`, else SHIFT. -/
def onReceiveCount2 (x : CoreIn) (r b : Regs) : CoreOut :=
  if x.cmdValid then
    { regs := { b with count := setCountHi r.count x.cmdData,
                       state := if selectorOf r.cmd = 0x2 then .delay else .countCheck },
      pop := true }
  else { regs := b }

/-- `DELAY` (rule R167): the two nested counters. -/
def onDelay (p : Params) (r b : Regs) : CoreOut :=
  if r.timer ≠ 0 then { regs := { b with timer := r.timer - 1 } }
  else if r.count ≠ 0 then { regs := { b with count := r.count - 1, timer := p.delayCyc - 1 } }
  else { regs := { b with state := .receiveCommand } }

/-- `COUNT_CHECK` (rule R168). -/
def onCountCheck (r b : Regs) : CoreOut :=
  { regs := { b with state := if r.count = 0 then .receiveCommand else .receiveData } }

/-- The registers when a byte transfer starts with `v` loaded (rule R169). -/
def startByte (v : Byte) (r b : Regs) : Regs :=
  { b with shregO := v, count := r.count - 1, bitno := 8, state := .transfer }

/-- `RECEIVE_DATA` (rules R169 to R171): proceed when DATA-IN is set or a byte is there. With both flags and
no byte it is the underrun of rule R170: `cmd_data` is then a draw (rule R62), `cmd_pop` is raised and
removes nothing; under P5 = fault the fault is recorded in its place (rule R283). -/
def onReceiveData (p : Params) (x : CoreIn) (r b : Regs) : CoreOut :=
  if dataIn r.cmd || x.cmdValid then
    if dataOut r.cmd then
      if x.cmdValid then { regs := startByte x.cmdData r b, pop := true }
      else
        match p.underrun with
        | .draw  => { regs := startByte x.cmdData r b, pop := true }
        | .fault => raiseFault .cmdUnderrun b false
    else { regs := startByte 0x00 r b }
  else { regs := b }

/-- `TRANSFER` (rule R172): count the lead strobes, stop on the trail strobe that finds none left. -/
def onTransfer (r b : Regs) : CoreOut :=
  if stbLead r then { regs := { b with bitno := r.bitno - 1 } }
  else if stbTrail r ∧ r.bitno = 0 then { regs := { b with state := .sendData } }
  else { regs := b }

/-- `SEND_DATA` (rule R173): with DATA-IN set, the byte is pushed when there is room. -/
def onSendData (x : CoreIn) (r b : Regs) : CoreOut :=
  let next : Fsm := if r.count = 0 then .receiveCommand else .receiveData
  if dataIn r.cmd then
    if x.rspReady then { regs := { b with state := next }, push := some r.shregI } else { regs := b }
  else { regs := { b with state := next } }

/-- The rule of the state `r.state` (rule R160: exactly one of rules R163 to R173 applies). -/
def stateRule (p : Params) (x : CoreIn) (r b : Regs) : CoreOut :=
  match r.state with
  | .receiveCommand => onReceiveCommand x b
  | .sync           => onSync x b
  | .receiveCount1  => onReceiveCount1 x r b
  | .receiveCount2  => onReceiveCount2 x r b
  | .delay          => onDelay p r b
  | .countCheck     => onCountCheck r b
  | .receiveData    => onReceiveData p x r b
  | .transfer       => onTransfer r b
  | .sendData       => onSendData x r b

/-- The step of the core, a function of the registers, the parameters and the inputs of the tick and of
nothing else (rules R160, R189); a load of `shreg_o` wins over a shift of it (rule R179). -/
def coreStep (p : Params) (x : CoreIn) (r : Regs) : CoreOut :=
  let o := stateRule p x r (busUpdate p x.dinS r)
  { o with events := clockEvents p x.dinS r ++ o.events }

end Sys2Proof.Machine
end

