-- ==== Sys2Proof/Machine/Tick.lean ====
section
/-! DEFINITION. The tick: the definition of the machine (rules R11, R160, R161, R189), runs of ticks, the
outputs of a tick (rule R38), and a command run to its end. -/

namespace Sys2Proof.Machine

/-- What the core answers in this tick when `rst` is not asserted: with a fault recorded nothing (rules R161,
R282: no register changes, no byte moves), else the step of the core. -/
def coreOut (s : State) : CoreOut :=
  match s.fault with
  | some _ => { regs := s.core }
  | none   => coreStep s.params s.coreIn s.core

/-- One tick, in the order of precedence of rule R161: reset, a recorded fault, the rules. -/
def tick (s : State) : State :=
  match s.input.rst with
  | some x => s.resetTick x
  | none   => s.advance (coreOut s)

/-- `k` ticks. -/
def ticks : Nat → State → State
  | 0,     s => s
  | k + 1, s => ticks k (tick s)

/-- The core is at a frame boundary: the next byte it pops is an opcode (rules R99, R101). -/
def State.atBoundary (s : State) : Bool := s.core.state == .receiveCommand

/-- Ticks until the core is at a frame boundary again, at least one and at most `budget` of them. -/
def runToBoundary : Nat → State → State
  | 0,          s => s
  | budget + 1, s =>
    match tick s with
    | t => if t.atBoundary then t else runToBoundary budget t

/-- The outputs of the core in one tick (rule R38). -/
structure Outputs where
  cmdPop   : Bool
  rspPush  : Bool
  rspData  : Byte
  rspFlush : Bool
  sck      : Bool
  sckOe    : Bool
  dout     : Bool
  doutOe   : Bool
  csN      : Bool
  csOe     : Bool
  deriving DecidableEq, Repr, Inhabited

/-- Rules R38, R63, R65, R68, R121, R122: the outputs of this tick. While `rst` is asserted nothing is popped
or pushed (rule R310) and the pins still show the registers (rule R314). -/
def outputs (s : State) : Outputs :=
  let o : CoreOut := if s.inReset then { regs := s.core } else coreOut s
  { cmdPop := o.pop, rspPush := o.push.isSome, rspData := o.push.getD 0x00,
    rspFlush := s.core.state == .receiveCommand,
    sck := sckOf s.params s.core, sckOe := true, dout := doutOf s.core, doutOe := true,
    csN := !s.core.cs, csOe := s.core.oe }

/-- A pin as the outside sees it: driven to a level, or high impedance (rules R38, R121). -/
def pinLevel (level enable : Bool) : Option Bool := if enable then some level else none

/-- A command run from a frame boundary: its bytes stand at the head of the command stream, and the ticks of
rule R189 run until the core is at a frame boundary again (a reset brings it there too). `ticksNeeded` is
what the command needs when nothing stalls (rule R337); stalls are waited out for as many ticks as the
script of inputs lists. A command still stalled after that is left where it stands, and goes on with
the steps that follow (notes/assumptions/1.md). -/
def runCommand (bytes : List Byte) (ticksNeeded : Nat) (s : State) : Host.Outcome State Fault Refusal :=
  s.guarded (runToBoundary (ticksNeeded + s.inputs.length) (s.deliver bytes))

end Sys2Proof.Machine
end

