-- ==== Sys2Proof/Machine/Timing.lean ====
section
/-! DEFINITION. The tick counts of rule R337, which hold when every byte is waiting and the response stream
has room. -/

namespace Sys2Proof.Machine

/-- SELECT and OE (rules R201, R261). -/
def registerTicks : Nat := 1

/-- SYNC (rule R252). -/
def syncTicks : Nat := 2

/-- One `TRANSFER` (rule R180). -/
def transferTicks (p : Params) : Nat := 15 * p.halfPeriodCyc + 2

/-- One byte of a SHIFT: `RECEIVE_DATA`, `TRANSFER`, `SEND_DATA` (rule R220). -/
def byteTicks (p : Params) : Nat := 15 * p.halfPeriodCyc + 4

/-- SHIFT of `n` bytes, any variant (rules R215, R220). -/
def shiftTicks (p : Params) (n : Count) : Nat := 4 + n.toNat * byteTicks p

/-- DELAY of `n` (rules R241, R242). -/
def delayTicks (p : Params) (n : Count) : Nat := n.toNat * p.delayCyc + 4

end Sys2Proof.Machine
end

