-- ==== Sys2Proof/Machine/Delay.lean ====
section
/-! DEFINITION. DELAY (45_delay.md rules R240 to R244). -/

namespace Sys2Proof.Machine

/-- DELAY `n`: the interpreter is held for `n` units, the bus inert (rule R240). -/
def execDelay (n : Count) (s : State) : Host.Outcome State Fault Refusal :=
  runCommand (encode (.delay n)) (delayTicks s.params n) s

end Sys2Proof.Machine
end

