-- ==== Sys2Proof/Machine/OutputEnable.lean ====
section
/-! DEFINITION. OUTPUT-ENABLE (47_output_enable.md rules R260 to R262). -/

namespace Sys2Proof.Machine

/-- OE `enable`: `oe <- enable`, one tick (rules R260, R261). -/
def execOe (enable : Bool) (s : State) : Host.Outcome State Fault Refusal :=
  runCommand (encode (.oe enable)) registerTicks s

end Sys2Proof.Machine
end

