-- ==== Sys2Proof/Machine/Select.lean ====
section
/-! DEFINITION. SELECT (43_select.md rules R200 to R203). -/

namespace Sys2Proof.Machine

/-- SELECT `level`: `cs <- level`, one tick (rules R200, R201). -/
def execSelect (level : Bool) (s : State) : Host.Outcome State Fault Refusal :=
  runCommand (encode (.select level)) registerTicks s

end Sys2Proof.Machine
end

