-- ==== Sys2Proof/Machine/Shift.lean ====
section
/-! DEFINITION. The SHIFT commands (44_shift.md rules R210 to R225). -/

namespace Sys2Proof.Machine

/-- SHIFT.NONE `n`: `8 * n` bus-clock periods with `dout = 0`; nothing popped but the frame, nothing pushed;
each byte waits for some byte behind the frame (rule R211). -/
def execShiftNone (n : Count) (s : State) : Host.Outcome State Fault Refusal :=
  runCommand (encode (.shiftNone n)) (shiftTicks s.params n) s

/-- SHIFT.OUT `n`: each payload byte shifted out, nothing pushed (rule R212). -/
def execShiftOut (n : Count) (payload : List Byte) (s : State) : Host.Outcome State Fault Refusal :=
  runCommand (encode (.shiftOut n payload)) (shiftTicks s.params n) s

/-- SHIFT.IN `n`: `n` bytes sampled and pushed, `dout = 0` (rule R213). -/
def execShiftIn (n : Count) (s : State) : Host.Outcome State Fault Refusal :=
  runCommand (encode (.shiftIn n)) (shiftTicks s.params n) s

/-- SHIFT.IO `n`: each payload byte shifted out while a byte is sampled and then pushed (rule R214). -/
def execShiftIo (n : Count) (payload : List Byte) (s : State) : Host.Outcome State Fault Refusal :=
  runCommand (encode (.shiftIo n payload)) (shiftTicks s.params n) s

end Sys2Proof.Machine
end

