-- ==== Sys2Proof/Machine/Sync.lean ====
section
/-! DEFINITION. SYNC (46_sync.md rules R250 to R253). -/

namespace Sys2Proof.Machine

/-- SYNC: one zero byte on the response stream, when it has room (rule R250). -/
def execSync (s : State) : Host.Outcome State Fault Refusal :=
  runCommand (encode .sync) syncTicks s

end Sys2Proof.Machine
end

