-- ==== Sys2Proof/Machine/Dispatch.lean ====
section
/-! DEFINITION. One arm for each command. -/

namespace Sys2Proof.Machine

def exec (i : Instr) (s : State) : Host.Outcome State Fault Refusal :=
  match i with
  | .select level => Sys2Proof.Machine.execSelect level s
  | .shiftNone n => Sys2Proof.Machine.execShiftNone n s
  | .shiftOut n payload => Sys2Proof.Machine.execShiftOut n payload s
  | .shiftIn n => Sys2Proof.Machine.execShiftIn n s
  | .shiftIo n payload => Sys2Proof.Machine.execShiftIo n payload s
  | .delay n => Sys2Proof.Machine.execDelay n s
  | .sync => Sys2Proof.Machine.execSync s
  | .oe enable => Sys2Proof.Machine.execOe enable s

end Sys2Proof.Machine
end

