-- ==== Sys2Proof/Machine/Fetch.lean ====
section
/-! DEFINITION. Fetching: the command stream's head in the place of a program counter (rule R32). -/

namespace Sys2Proof.Machine

/-- The command a step runs whole, and the machine with its bytes taken from the stream: the core at a frame
boundary, no reset in this tick, no fault recorded, and every byte of the frame waiting. In all other
cases `none`: the step is then one tick. -/
def fetch (s : State) : Option (Instr × State) :=
  if s.atBoundary && !s.inReset && s.fault.isNone then
    match decode s.cmdq with
    | .frame i rest => some (i, { s with cmdq := rest })
    | _             => none
  else none

/-- A step of one tick: a stall, a byte of a frame that has not arrived whole, a malformed opcode, a command
left in the middle, a reset. -/
def tickStep (s : State) : Host.Outcome State Fault Refusal := s.guarded (tick s)

/-- The ticks a command needs when nothing stalls (rule R337). -/
def ticksNeeded (p : Params) : Instr → Nat
  | .select _     => registerTicks
  | .shiftNone n  => shiftTicks p n
  | .shiftOut n _ => shiftTicks p n
  | .shiftIn n    => shiftTicks p n
  | .shiftIo n _  => shiftTicks p n
  | .delay n      => delayTicks p n
  | .sync         => syncTicks
  | .oe _         => registerTicks

/-- The bytes of a table word, less the zeros its decoding does not use. -/
def fetchWordBytes (nbits w : Nat) : List Byte :=
  match decode (tableWordBytes nbits w) with
  | .frame i _ => encode i
  | _          => bytesOfWord (nbits / 8) w

/-- Quiet ticks, enough for the command of a table word (notes/assumptions/5.md). -/
def fetchWordInputs (p : Params) (nbits w : Nat) : List TickInput :=
  match decode (tableWordBytes nbits w) with
  | .frame i _ => List.replicate (ticksNeeded p i) TickInput.quiet
  | _          => [TickInput.quiet]

end Sys2Proof.Machine
end

