-- ==== Sys2Proof/Machine/Step.lean ====
section
/-! DEFINITION. The step of the machine: a whole command where one is waiting, else a tick. Either way it is
a run of the ticks of rule R189 (notes/assumptions/1.md). -/

namespace Sys2Proof.Machine

/-- One step. -/
def step (s : State) : Host.Outcome State Fault Refusal :=
  match fetch s with
  | some (i, s') => exec i s'
  | none         => tickStep s

/-- `s` at a frame boundary, without a fault, the bytes of the instruction at the head of the command stream,
and quiet ticks for as long as it runs (notes/assumptions/5.md): it stands for the host that sends a
frame. -/
def State.withFetchWord (s : State) (nbits w : Nat) : State :=
  { s with core   := { s.core with state := .receiveCommand }
           fault  := none
           cmdq   := fetchWordBytes nbits w ++ s.cmdq
           inputs := fetchWordInputs s.params nbits w ++ s.inputs }

end Sys2Proof.Machine
end

