-- ==== Sys2Proof/Machine/Pseudo.lean ====
section
/-! DEFINITION. The host's pseudo-operations (rules R108 to R118) and the errors host software raises in the
place of sending bytes (rule R289). They are no part of the hardware (rule R4); the spec keeps them as the
layer that says which command sequences the hardware meets. -/

namespace Sys2Proof.Machine

/-- The lane mode a caller of `write` or `read` asks for (rules R112, R113). -/
inductive LaneMode where
  | single | dual | quad
  deriving DecidableEq, Repr, Inhabited

/-- The errors of rule R289: nothing is sent. -/
inductive HostError where
  | unsupportedChip
  | unsupportedMode
  | invalidArgument
  deriving DecidableEq, Repr, Inhabited

/-- The largest count of one frame (rules R94, R118). -/
def chunkSize : Nat := 65535

/-- Rule R118: the counts of the frames an operation on `units` units is cut into; no frame for none
(notes/assumptions/16.md). -/
def chunkCounts (units : Nat) : List Nat :=
  List.replicate (units / chunkSize) chunkSize ++
    (if units % chunkSize = 0 then [] else [units % chunkSize])

/-- Rule R118: a payload split in the places of the counts, in order. -/
def chunkPayload : List Nat → List Byte → List (List Byte)
  | [],      _  => []
  | n :: ns, bs => bs.take n :: chunkPayload ns (bs.drop n)

/-- Frames without payload, one for each chunk (rule R118). -/
def countFrames (f : Count → Instr) (units : Nat) : List Instr :=
  (chunkCounts units).map fun n => f (BitVec.ofNat 16 n)

/-- Frames with payload, one for each chunk (rule R118). -/
def payloadFrames (f : Count → List Byte → Instr) (bytes : List Byte) : List Instr :=
  (chunkPayload (chunkCounts bytes.length) bytes).map fun c => f (BitVec.ofNat 16 c.length) c

/-- Rule R109: `select(index)` around the frames of its body. The deassert is sent on every way out. -/
def hostSelect (index : Nat) (body : List Instr) : Except HostError (List Instr) :=
  if index = 0 then .ok (.select true :: body ++ [.select false]) else .error .unsupportedChip

/-- Rule R110: `outputEnable(enabled)`. -/
def hostOutputEnable (enabled : Bool) : Except HostError (List Instr) := .ok [.oe enabled]

/-- Rule R111: `exchange(bytes)`. -/
def hostExchange (bytes : List Byte) : Except HostError (List Instr) := .ok (payloadFrames .shiftIo bytes)

/-- Rule R112: `write(bytes, mode)`. -/
def hostWrite (bytes : List Byte) (mode : LaneMode) : Except HostError (List Instr) :=
  if mode = .single then .ok (payloadFrames .shiftOut bytes) else .error .unsupportedMode

/-- Rule R113: `read(count, mode)`. -/
def hostRead (count : Nat) (mode : LaneMode) : Except HostError (List Instr) :=
  if mode = .single then .ok (countFrames .shiftIn count) else .error .unsupportedMode

/-- Rule R114: `dummy(count)`, the count in bus-clock periods. -/
def hostDummy (count : Nat) : Except HostError (List Instr) :=
  if count % 8 = 0 then .ok (countFrames .shiftNone (count / 8)) else .error .invalidArgument

/-- Rule R115: `delayMicros(duration)`. -/
def hostDelayMicros (duration : Nat) : Except HostError (List Instr) := .ok (countFrames .delay duration)

/-- Rule R115: `delayMillis(duration)`: 1000 units each, multiplied before chunking. -/
def hostDelayMillis (duration : Nat) : Except HostError (List Instr) := hostDelayMicros (duration * 1000)

/-- Rule R116: `synchronize()`. -/
def hostSynchronize : Except HostError (List Instr) := .ok [.sync]

/-- Rule R108: `reset()` sends no byte; in the hardware it is `rst` (`State.resetTick`). -/
def hostReset : Except HostError (List Instr) := .ok []

/-- A host operation as its caller sees it: the frames it sends, how many response bytes it reads after them, and
whether it returns them or discards them (rules R108 to R116). -/
structure HostOp where
  frames  : List Instr
  reads   : Nat
  returns : Bool
  deriving DecidableEq, Repr, Inhabited

/-- An operation that sends frames and reads no response (rules R109, R110, R112, R114, R115). -/
def HostOp.sendOnly (frames : List Instr) : HostOp := { frames := frames, reads := 0, returns := false }

/-- Rule R111: `exchange(bytes)` reads back exactly as many response bytes as it wrote and returns them. -/
def exchangeOp (bytes : List Byte) : Except HostError HostOp :=
  (hostExchange bytes).map fun frames => { frames := frames, reads := bytes.length, returns := true }

/-- Rule R113: `read(count, mode)` reads `count` response bytes and returns them. -/
def readOp (count : Nat) (mode : LaneMode) : Except HostError HostOp :=
  (hostRead count mode).map fun frames => { frames := frames, reads := count, returns := true }

/-- Rule R116: `synchronize()` reads exactly one response byte and discards it, whatever it is. -/
def synchronizeOp : Except HostError HostOp :=
  hostSynchronize.map fun frames => { frames := frames, reads := 1, returns := false }

/-- Rule R112: `write(bytes, mode)`, "no response read". -/
def writeOp (bytes : List Byte) (mode : LaneMode) : Except HostError HostOp :=
  (hostWrite bytes mode).map HostOp.sendOnly

/-- Rule R114: `dummy(count)`. -/
def dummyOp (count : Nat) : Except HostError HostOp := (hostDummy count).map HostOp.sendOnly

/-- Rule R115: `delayMicros(duration)`. -/
def delayMicrosOp (duration : Nat) : Except HostError HostOp := (hostDelayMicros duration).map HostOp.sendOnly

/-- Rule R115: `delayMillis(duration)`. -/
def delayMillisOp (duration : Nat) : Except HostError HostOp := (hostDelayMillis duration).map HostOp.sendOnly

/-- Rule R110: `outputEnable(enabled)`. -/
def outputEnableOp (enabled : Bool) : Except HostError HostOp := (hostOutputEnable enabled).map HostOp.sendOnly

/-- Rule R109: `select(index)` around the operations of its body, each of which reads its own responses. -/
def selectOps (index : Nat) (body : List HostOp) : Except HostError (List HostOp) :=
  if index = 0 then .ok (.sendOnly [.select true] :: body ++ [.sendOnly [.select false]])
  else .error .unsupportedChip

/-- Rules R74, R93: how many bytes a command adds to the response stream. -/
def responseCount : Instr → Nat
  | .select _     => 0
  | .shiftNone _  => 0
  | .shiftOut _ _ => 0
  | .shiftIn n    => n.toNat
  | .shiftIo n _  => n.toNat
  | .delay _      => 0
  | .sync         => 1
  | .oe _         => 0

/-- The payload bytes of a command's frame, in order (rule R91); none for a frame without payload. -/
def payloadOf : Instr → List Byte
  | .select _           => []
  | .shiftNone _        => []
  | .shiftOut _ payload => payload
  | .shiftIn _          => []
  | .shiftIo _ payload  => payload
  | .delay _            => []
  | .sync               => []
  | .oe _               => []

/-- The number in the count bytes of a command's frame (rules R91, R94); `none` where it has none. -/
def countIn : Instr → Option Nat
  | .select _     => none
  | .shiftNone n  => some n.toNat
  | .shiftOut n _ => some n.toNat
  | .shiftIn n    => some n.toNat
  | .shiftIo n _  => some n.toNat
  | .delay n      => some n.toNat
  | .sync         => none
  | .oe _         => none

/-- Rule R104: the notation of a command, a payload in square brackets, numbers decimal. -/
def notationOf : Instr → String
  | .select level       => "SELECT " ++ toString level.toNat
  | .shiftNone n        => "SHIFT.NONE " ++ toString n.toNat
  | .shiftOut n payload =>
    "SHIFT.OUT " ++ toString n.toNat ++ ", [" ++ " ".intercalate (payload.map fun b => toString b.toNat) ++ "]"
  | .shiftIn n          => "SHIFT.IN " ++ toString n.toNat
  | .shiftIo n payload  =>
    "SHIFT.IO " ++ toString n.toNat ++ ", [" ++ " ".intercalate (payload.map fun b => toString b.toNat) ++ "]"
  | .delay n            => "DELAY " ++ toString n.toNat
  | .sync               => "SYNC"
  | .oe enable          => "OE " ++ toString enable.toNat

end Sys2Proof.Machine
end

