-- ==== Sys2Proof/Machine/HostSide.lean ====
section
/-! DEFINITION. The host's half of an operation that reads (rules R111, R113, R116): it takes response bytes from
those the transport has delivered to it, in order. Host software is no part of the hardware (rule R4): no
step of the machine does this. -/

namespace Sys2Proof.Machine

/-- The host reads exactly `n` response bytes, the oldest first (rule R66); `none` while fewer have been
delivered: it waits, without time-out (rule R291). -/
def State.readResponses (s : State) (n : Nat) : Option (List Byte × State) :=
  if n ≤ s.delivered.length then
    some (s.delivered.take n, { s with delivered := s.delivered.drop n })
  else none

/-- What an operation returns to its caller of the response bytes it has read: all of them in the order in which
they came (rules R111, R113), or nothing (rule R116, which discards its byte unchecked). -/
def HostOp.result (op : HostOp) (rsp : List Byte) : Option (List Byte) := if op.returns then some rsp else none

/-- The end of an operation whose frames have been sent: the responses are read, and the operation returns;
`none` while it still waits for them. -/
def HostOp.finish (op : HostOp) (s : State) : Option (Option (List Byte) × State) :=
  (s.readResponses op.reads).map fun (rsp, t) => (op.result rsp, t)

end Sys2Proof.Machine
end

