-- ==== Sys2Proof/Machine/OLevel.lean ====
section
/-! DEFINITION. The operation level (rules R11, R16, R210, R216): what a whole command shows on the bus and
pushes, told from the inputs of its ticks. The claims are stated in these terms; `exec` itself is defined
by the ticks, and nothing here is used by the machine. -/

namespace Sys2Proof.Machine

/-- The inputs of the tick `j` ticks from now, whether scripted or free (rule R10). -/
def State.inputAt (s : State) (j : Nat) : TickInput :=
  match s.inputs[j]? with
  | some x => x
  | none   => Config.freeInput (s.clock + j)

/-- `din_s` in the tick `j` ticks from now: the synchronizer's stages for the first two, then
`din_pin` two ticks before (rule R126). -/
def State.dinAt (s : State) : Nat → Bool
  | 0     => s.sync2
  | 1     => s.sync1
  | j + 2 => (s.inputAt j).dinPin

/-- The bytes the command producer appends in the next `k` ticks, in order (rule R64). -/
def State.arrivals (s : State) : Nat → List Byte
  | 0     => []
  | k + 1 => s.arrivals k ++ (s.inputAt k).arrive.toList

/-- Rule R128: `latch` is on the lead edge; otherwise it is on the trail edge. -/
def latchOnLead (p : Params) : Bool := (p.sckEdge == .rising) != p.sckIdle

/-- The tick of the lead edge of period `j` of a `TRANSFER` whose first tick is `e` (rules R148, R180). -/
def leadTick (p : Params) (e j : Nat) : Nat := e + 1 + 2 * p.halfPeriodCyc * j

/-- The tick of the trail edge of period `j` (rules R148, R180). -/
def trailTick (p : Params) (e j : Nat) : Nat := e + 1 + p.halfPeriodCyc + 2 * p.halfPeriodCyc * j

/-- The tick of the `latch` of period `j` (rules R128, R181). -/
def latchTick (p : Params) (e j : Nat) : Nat := if latchOnLead p then leadTick p e j else trailTick p e j

/-- Rule R184: the byte sampled in a `TRANSFER` whose first tick is `e` ticks from now, the first sample in
bit 7. -/
def State.sampled (s : State) (e : Nat) : Byte :=
  BitVec.ofBoolListBE
    [s.dinAt (latchTick s.params e 0), s.dinAt (latchTick s.params e 1), s.dinAt (latchTick s.params e 2),
     s.dinAt (latchTick s.params e 3), s.dinAt (latchTick s.params e 4), s.dinAt (latchTick s.params e 5),
     s.dinAt (latchTick s.params e 6), s.dinAt (latchTick s.params e 7)]

/-- Rule R216: the value of `dout` at the lead edge of period `j`, for a loaded byte `v`. -/
def leadDout (v : Byte) (j : Nat) : Bool := v.getLsbD (7 - j)

/-- Rule R216: the value of `dout` at the trail edge of period `j`: the same bit where the trail edge
carries the `setup`; where the lead edge carried it, the next bit, and 0 after the last. -/
def trailDout (p : Params) (v : Byte) (j : Nat) : Bool :=
  if latchOnLead p then v.getLsbD (7 - j) else if j < 7 then v.getLsbD (6 - j) else false

/-- Rule R216: the bus events of period `j` of a transfer of `v` while `r` is sampled, with ticks; the first
`TRANSFER` tick is `e`. -/
def periodTrace (p : Params) (e : Nat) (v r : Byte) (j : Nat) : List (Nat × BusEvent) :=
  [ (leadTick p e j, .lead (leadDout v j)),
    (leadTick p e j, if latchOnLead p then .latch (r.getLsbD (7 - j)) else .setup),
    (trailTick p e j, .trail (trailDout p v j)),
    (trailTick p e j, if latchOnLead p then .setup else .latch (r.getLsbD (7 - j))) ]

/-- Rule R216: the bus trace of `TransferByte(v)`. -/
def byteTrace (p : Params) (e : Nat) (v r : Byte) : List (Nat × BusEvent) :=
  (List.range 8).flatMap (periodTrace p e v r)

/-- The first `TRANSFER` tick of byte `k` of a SHIFT whose opcode is popped now, nothing stalling: opcode,
two count bytes, `COUNT_CHECK`, `RECEIVE_DATA` before it (rules R203, R220). -/
def transferStart (p : Params) (k : Nat) : Nat := 5 + k * byteTicks p

/-- The `SEND_DATA` tick of byte `k` of a SHIFT whose opcode is popped now, nothing stalling (rule R220). -/
def sendTick (p : Params) (k : Nat) : Nat := transferStart p k + transferTicks p

/-- The bytes a SHIFT of `n` bytes samples, in order, nothing stalling (rules R184, R210). -/
def State.sampledBytes (s : State) : Nat → List Byte
  | 0     => []
  | n + 1 => s.sampledBytes n ++ [s.sampled (transferStart s.params n)]

/-- The bus trace of a SHIFT that loads the bytes `vs`, nothing stalling (rules R210, R216). -/
def State.shiftTrace (s : State) (vs : List Byte) : List (Nat × BusEvent) :=
  vs.zipIdx.flatMap fun (v, k) =>
    byteTrace s.params (s.tickNo + transferStart s.params k) v (s.sampled (transferStart s.params k))

/-- `shreg_i` after a SHIFT of `n` bytes: the last byte sampled (rule R210), untouched when `n = 0`. -/
def State.lastSampled (s : State) : Nat → Byte
  | 0     => s.core.shregI
  | n + 1 => s.sampled (transferStart s.params n)

/-- The registers after a SHIFT with opcode `op` of `n` bytes (rules R210, R215): `count`, `bitno` and
`shreg_o` end at 0, `shreg_i` holds the last byte sampled; with `n = 0` only `cmd` and `count` are
written. -/
def State.coreAfterShift (s : State) (op : Byte) (n : Nat) : Regs :=
  { s.core with cmd := op, count := 0, bitno := if n = 0 then s.core.bitno else 0,
                shregO := if n = 0 then s.core.shregO else 0, shregI := s.lastSampled n }

end Sys2Proof.Machine
end

