-- ==== Sys2Proof/Safety.lean ====
section
/-! DEFINITION. What counts as a safe run, in the terms the claims use: when a run has ended (rules R17,
R301), the launch premises (rule R318), the invariants of a well-formed machine (rules R41, R175), and
what a completed command has done to the machine's surroundings (rules R73, R74). -/

namespace Sys2Proof.Machine

/-- Rule R17: the core is quiescent. -/
abbrev State.Quiescent (s : State) : Prop := s.core.state = .receiveCommand ∧ s.cmdq = []

/-- Rules R67, R219: the core waits in this tick for a byte of the command stream. -/
def State.waitsForByte (s : State) : Bool :=
  !s.cmdValid &&
    match s.core.state with
    | .receiveCount1 => true
    | .receiveCount2 => true
    | .receiveData   => !dataIn s.core.cmd
    | _              => false

/-- Rules R67, R219: the core waits in this tick for room in the response stream. -/
def State.waitsForRoom (s : State) : Bool :=
  !s.input.rspReady &&
    match s.core.state with
    | .sync     => true
    | .sendData => dataIn s.core.cmd
    | _         => false

/-- No `rst` in the next `k` ticks. -/
def State.NoReset (s : State) (k : Nat) : Prop := ∀ j, j < k → (s.inputAt j).rst = none

/-! ### The end of a run (rules R17, R301). `s` is the machine at tick 0 of the run, `seq` the command sequence:
the bytes that stand in the command stream at tick 0 and those appended later, in order. -/

/-- Before tick `k` every byte of the sequence had been appended to the command stream. -/
abbrev State.AppendedBy (s : State) (seq : List Byte) (k : Nat) : Prop := seq <+: s.cmdq ++ s.arrivals k

/-- Before tick `k` the run had neither come to its end nor recorded a fault, and no reset had begun another. -/
def State.Undecided (s : State) (seq : List Byte) (k : Nat) : Prop :=
  s.NoReset k ∧
    ∀ j, j < k → (ticks j s).fault = none ∧ ¬(s.AppendedBy seq j ∧ (ticks j s).Quiescent)

/-- Rule R17: the run of the sequence is over at tick `k`, the first quiescent tick after its last byte was
appended, no fault recorded. -/
def State.OverAt (s : State) (seq : List Byte) (k : Nat) : Prop :=
  s.Undecided seq k ∧ (ticks k s).fault = none ∧ s.AppendedBy seq k ∧ (ticks k s).Quiescent

/-- A host operation carried out from `s` in `k` ticks (rules R108 to R116): the bytes of its frames, and no
others, are appended in order, and then its responses are read; it leaves the machine `t` and returns
`result`. -/
def HostOp.CarriedOut (op : HostOp) (s t : State) (k : Nat) (result : Option (List Byte)) : Prop :=
  s.NoReset k ∧ assemble op.frames = some (s.arrivals k) ∧ op.finish (ticks k s) = some (result, t)

/-- Rule R301: the four ways a run can end. -/
inductive RunEnd where
  /-- (a) All bytes consumed, at a frame boundary, no fault. -/
  | quiescent
  /-- (b) A fault has been recorded. -/
  | faulted (f : Fault)
  /-- (c) The sequence ended where the core needs another byte. -/
  | waitingInput
  /-- (d) Room in the response stream never comes. -/
  | waitingRoom
  deriving DecidableEq, Repr, Inhabited

/-- Rule R301: the run of the sequence ends so, and tick `k` shows it. The two waits speak of every tick to
come: a stall that something outside ends is no end of a run. -/
def State.EndsAt (s : State) (seq : List Byte) (k : Nat) : RunEnd → Prop
  | .quiescent    => s.OverAt seq k
  | .faulted f    => s.Undecided seq k ∧ (ticks k s).fault = some f
  | .waitingInput =>
    s.Undecided seq k ∧ (ticks k s).fault = none ∧ s.AppendedBy seq k ∧ (ticks k s).waitsForByte = true ∧
      ∀ j, k ≤ j → (s.inputAt j).rst = none ∧ (s.inputAt j).arrive = none
  | .waitingRoom  =>
    s.Undecided seq k ∧ (ticks k s).fault = none ∧ (ticks k s).waitsForRoom = true ∧
      ∀ j, k ≤ j → (s.inputAt j).rst = none ∧ (s.inputAt j).rspReady = false

/-- What the tick of `t` shows of a run's end, when the bytes `sofar` have been appended. -/
def endNow (seq sofar : List Byte) (t : State) : Option RunEnd :=
  match t.fault with
  | some f => some (.faulted f)
  | none   => if seq <+: sofar ∧ t.Quiescent then some .quiescent else none

/-- `State.runEnd` from a tick on. -/
def runEndFrom (seq : List Byte) : Nat → List Byte → State → Option RunEnd
  | 0,        sofar, t => endNow seq sofar t
  | fuel + 1, sofar, t =>
    match endNow seq sofar t with
    | some e => some e
    | none   =>
      if t.inReset then none else runEndFrom seq fuel (sofar ++ t.input.arrive.toList) (tick t)

/-- Rule R301, last sentence: the end of the run as `fuel` ticks show it; out of fuel it is none of the ends.
No number of ticks shows that input or room never comes, so the two waits are never answered here. -/
def State.runEnd (s : State) (seq : List Byte) (fuel : Nat) : Option RunEnd := runEndFrom seq fuel s.cmdq s

/-! ### The launch premises (rule R318). `P_RELIABLE` and `P_DIN_CONTRACT` need no definition: the streams of
this machine lose and alter nothing (`nextCmdq`, `nextRspq`), and its synchronizer is the contract
(`State.advance`); that they hold is `Obligations.HeadPositionCountsThePops`,
`Obligations.ResponsesComeFromSyncAndDataIn` and `Obligations.DataInIsTwoTicksOld`. -/

/-- `P_CONFIG_VALID` (rule R318). -/
abbrev PConfigValid (s : State) : Prop := s.params.Valid

/-- `P_RESET` (rule R318). -/
abbrev PReset (s : State) : Prop := s.core = Regs.reset s.params ∧ s.fault = none ∧ s.tickNo = 0

/-- `P_STREAMS_EMPTY` (rule R318). -/
abbrev PStreamsEmpty (s : State) : Prop := s.cmdq = [] ∧ s.rspq = []

/-- `P_WELLFORMED` (rule R318) of the bytes appended. -/
abbrev PWellFormed (bytes : List Byte) : Prop := (disassemble bytes).isSome = true

/-- `P_PAYLOAD_READY` (rule R318). -/
def PPayloadReady (s : State) : Prop :=
  ∀ k, (ticks k s).core.state = .receiveData → dataOut (ticks k s).core.cmd = true →
    dataIn (ticks k s).core.cmd = true → (ticks k s).cmdValid = true

/-- `P_FAIR_RSP` (rule R318). -/
def PFairRsp (s : State) : Prop := ∀ k, ∃ j, k ≤ j ∧ (s.inputAt j).rspReady = true

/-- `P_ALL_BYTES_ARRIVE` (rule R318) of a command sequence. -/
def PAllBytesArrive (s : State) (seq : List Byte) : Prop := ∃ k, s.AppendedBy seq k

/-- The last command of the program is not a SHIFT.NONE with a count above 0 (rules R318, R324). -/
abbrev TailStarts (program : List Instr) : Prop :=
  ∀ n, program.getLast? = some (.shiftNone n) → n = 0

/-- `P_TAIL` (rule R318) of a command sequence: its last frame is not a SHIFT.NONE with a count above 0, or some
byte is appended behind it. -/
def PTail (s : State) (seq : List Byte) : Prop :=
  (∀ program, assemble program = some seq → TailStarts program) ∨
    ∃ k, seq.length < (s.cmdq ++ s.arrivals k).length

/-- The shifts of `shreg_o` since its load, in `TRANSFER` (rules R24, R181, R182): the lead edges so far where
the lead edge carries `setup`, else the trail edges so far. -/
def setupsDone (p : Params) (r : Regs) : Nat :=
  let leads := 8 - r.bitno.toNat
  if latchOnLead p then leads - (if r.phaseR then 1 else 0) else leads

/-- Rule R41: the clock and the output line at rest. -/
def Regs.BusAtRest (p : Params) (r : Regs) : Prop :=
  r.phase = false ∧ r.phaseR = false ∧ r.sckR = p.sckIdle ∧ r.shregO = 0

/-- In `TRANSFER` (rules R148, R180 to R182): the counter is in range, `sck_r` follows `phase_r`, the periods
still to start are 1 to 8 while the clock is at rest or just leaving it, and 0 to 7 after a lead edge has
been counted; the shifts so far have filled `shreg_o` with zeros from below. -/
def Regs.TransferInv (p : Params) (r : Regs) : Prop :=
  r.ctr < p.halfPeriodCyc ∧ r.sckR = (r.phaseR ^^ p.sckIdle) ∧
  (r.phaseR = false → 1 ≤ r.bitno.toNat ∧ r.bitno.toNat ≤ 8) ∧
  (r.phaseR = true → r.bitno.toNat ≤ 7) ∧
  (r.phaseR ≠ r.phase → r.ctr = p.halfPeriodCyc - 1) ∧
  r.shregO <<< (8 - setupsDone p r) = 0

/-- Rules R41 and R175: the well-formed registers, state by state. -/
def Regs.Inv (p : Params) (r : Regs) : Prop :=
  r.bitno.toNat ≤ 8 ∧ r.timer < p.delayCyc ∧
  (r.state ≠ .delay → r.timer = 0) ∧
  (r.state ≠ .transfer → r.BusAtRest p) ∧
  (r.state ≠ .transfer → r.state ≠ .sendData → r.ctr = 0) ∧
  match r.state with
  | .receiveCommand => True
  | .sync           => r.cmd = 0x30
  | .receiveCount1  => r.cmd ∈ ([0x10, 0x11, 0x12, 0x13, 0x20] : List Byte)
  | .receiveCount2  => r.cmd ∈ ([0x10, 0x11, 0x12, 0x13, 0x20] : List Byte)
  | .delay          => r.cmd = 0x20
  | .countCheck     => r.cmd ∈ ([0x10, 0x11, 0x12, 0x13] : List Byte)
  | .receiveData    => r.cmd ∈ ([0x10, 0x11, 0x12, 0x13] : List Byte) ∧ r.count ≠ 0
  | .transfer       => r.cmd ∈ ([0x10, 0x11, 0x12, 0x13] : List Byte) ∧ r.TransferInv p
  | .sendData       => r.cmd ∈ ([0x10, 0x11, 0x12, 0x13] : List Byte) ∧ r.ctr < p.halfPeriodCyc

/-- The invariant of the machine: under valid parameters the registers are well formed. A reset may bring
parameters that are no configuration; the next step then refuses (rule R300). -/
def State.Inv (s : State) : Prop := s.params.Valid → s.core.Inv s.params

/-- The machine can take a command: a configuration of this hardware, no fault recorded, the core at a frame
boundary with its registers well formed. -/
def State.Ready (s : State) : Prop :=
  s.params.Valid ∧ s.fault = none ∧ s.core.state = .receiveCommand ∧ s.core.Inv s.params

/-- What a command that took `k` ticks, popped `pops` bytes and pushed `rsp`, with the bus trace `events`,
has done around the core: the bytes behind its frame are still there and what arrived is behind them, the
response stream has its bytes behind the earlier ones, taken or not. (How the synchronizer and the inputs
move on with time is the same for every command: `Obligations.CommandsLetTimePass`.) -/
def CommandDone (s t : State) (k pops : Nat) (rsp : List Byte) (events : List (Nat × BusEvent)) : Prop :=
  t.params = s.params ∧ t.fault = none ∧
  t.cmdq = s.cmdq ++ s.arrivals k ∧
  t.delivered ++ t.rspq = s.delivered ++ s.rspq ++ rsp ∧
  t.popped = s.popped + pops ∧ t.tickNo = s.tickNo + k ∧
  t.trace = s.trace ++ events

end Sys2Proof.Machine
end

