-- ==== Sys2Proof/Certificates/Slice0/Obligations.lean ====
section
/-! DEFINITION. The statements for the provers. Each docstring names the rule or the section it formalises;
`OBLIGATIONS.json` lists them. Where a statement rests on a choice of the spec (a `[decision]` or a
`[derived]` mark) or of the model (a log entry), its docstring says so. -/

open Sys2Proof Sys2Proof.Machine

/-! ### Encoding -/

/-- Rules R91 and R92: the ten opcode bytes, each with its frame and its command, whatever follows; every other
byte at a frame boundary is malformed. -/
def Obligations.OpcodeMapIsTheTenBytes : Prop :=
  (∀ rest : List Byte, decode (0x00 :: rest) = .frame (.select false) rest ∧
    decode (0x01 :: rest) = .frame (.select true) rest ∧ decode (0x30 :: rest) = .frame .sync rest ∧
    decode (0x40 :: rest) = .frame (.oe false) rest ∧ decode (0x41 :: rest) = .frame (.oe true) rest) ∧
  (∀ (lo hi : Byte) (rest : List Byte),
    decode (0x10 :: lo :: hi :: rest) = .frame (.shiftNone (countOf lo hi)) rest ∧
    decode (0x12 :: lo :: hi :: rest) = .frame (.shiftIn (countOf lo hi)) rest ∧
    decode (0x20 :: lo :: hi :: rest) = .frame (.delay (countOf lo hi)) rest) ∧
  (∀ (lo hi : Byte) (payload rest : List Byte), payload.length = (countOf lo hi).toNat →
    decode (0x11 :: lo :: hi :: (payload ++ rest)) = .frame (.shiftOut (countOf lo hi) payload) rest ∧
    decode (0x13 :: lo :: hi :: (payload ++ rest)) = .frame (.shiftIo (countOf lo hi) payload) rest) ∧
  (∀ (b : Byte) (rest : List Byte),
    b ∉ ([0x00, 0x01, 0x10, 0x11, 0x12, 0x13, 0x20, 0x30, 0x40, 0x41] : List Byte) →
      decode (b :: rest) = .malformed b)

/-- The worked encodings of 30_encoding.md section 6 (rule R105) and vectors V1 to V9, read by the decoder and
written by the encoder. -/
def Obligations.WorkedEncodingsDecode : Prop :=
  ∀ w ∈ ([([0x00], .select false), ([0x01], .select true), ([0x40], .oe false), ([0x41], .oe true),
      ([0x30], .sync),
      ([0x20, 0x00, 0x00], .delay 0), ([0x20, 0x01, 0x00], .delay 1), ([0x20, 0xE8, 0x03], .delay 1000),
      ([0x20, 0xD0, 0x07], .delay 2000), ([0x20, 0xFF, 0xFF], .delay 65535),
      ([0x10, 0x00, 0x00], .shiftNone 0), ([0x10, 0x02, 0x00], .shiftNone 2),
      ([0x11, 0x03, 0x00, 0xDE, 0xAD, 0x01], .shiftOut 3 [0xDE, 0xAD, 0x01]),
      ([0x12, 0x2C, 0x01], .shiftIn 300), ([0x12, 0x00, 0x01], .shiftIn 256),
      ([0x13, 0x02, 0x00, 0xA5, 0x3C], .shiftIo 2 [0xA5, 0x3C]),
      ([0x11, 0x00, 0x00], .shiftOut 0 []), ([0x13, 0x00, 0x00], .shiftIo 0 [])] :
      List (List Byte × Instr)),
    decode w.1 = .frame w.2 [] ∧ encode w.2 = w.1

/-- Rules R94 and R69: the count is 256 times its high byte plus its low byte, and the two halves the state
machine writes in two ticks (rules R165, R166) make that count whatever stood in the register before. -/
def Obligations.CountIsLittleEndian : Prop :=
  ∀ (lo hi : Byte) (c : Count),
    (countOf lo hi).toNat = 256 * hi.toNat + lo.toNat ∧ setCountHi (setCountLo c lo) hi = countOf lo hi

/-- Rules R91, R93, R101, R104: every well-formed command, with every operand at every value its encoding
admits, is read back from its bytes, whatever bytes follow. -/
def Obligations.DecodeOfEncodeIsTheCommand : Prop :=
  ∀ (i : Instr) (rest : List Byte), i.WF → decode (encode i ++ rest) = .frame i rest

/-- The other direction: what the decoder calls a frame is a well-formed command whose bytes stand at the head
of the stream, as many of them as rule R93 says. -/
def Obligations.EncodeOfDecodeIsTheBytes : Prop :=
  ∀ (bytes : List Byte) (i : Instr) (rest : List Byte), decode bytes = .frame i rest →
    i.WF ∧ bytes = encode i ++ rest ∧ (encode i).length = frameLength i

/-- Rules R101 and R104: a program assembled and read again, frame by frame from its first byte, is the
program. -/
def Obligations.DisassembleOfAssembleIsTheProgram : Prop :=
  ∀ (program : List Instr) (bytes : List Byte), assemble program = some bytes →
    disassemble bytes = some program

/-- Rule R118 (decision D32): the frames of a long host operation are its own, well formed, with the chunk counts
in their count bytes, and their payloads in order are its bytes; the chunk counts are 1 to 65535 and add up
to the length. No frame for an empty operation is the model's choice (log entry 16). -/
def Obligations.ChunkingKeepsTheBytes : Prop :=
  (∀ bytes : List Byte,
    (∀ i ∈ payloadFrames .shiftOut bytes, i.WF ∧ ∃ n payload, i = .shiftOut n payload) ∧
    ((payloadFrames .shiftOut bytes).map payloadOf).flatten = bytes ∧
    (payloadFrames .shiftOut bytes).map countIn = (chunkCounts bytes.length).map some ∧
    (∀ i ∈ payloadFrames .shiftIo bytes, i.WF ∧ ∃ n payload, i = .shiftIo n payload) ∧
    ((payloadFrames .shiftIo bytes).map payloadOf).flatten = bytes ∧
    (payloadFrames .shiftIo bytes).map countIn = (chunkCounts bytes.length).map some) ∧
  (∀ units : Nat,
    (chunkCounts units).sum = units ∧ (∀ n ∈ chunkCounts units, 1 ≤ n ∧ n ≤ 65535) ∧
    ∀ f ∈ ([.shiftNone, .shiftIn, .delay] : List (Count → Instr)),
      (countFrames f units).map countIn = (chunkCounts units).map some)

/-! ### Reset and configuration -/

/-- The machine right after reset (10_state.md section 7). `state` and `oe` are the source's values, the other
registers the spec's decision D8; the streams are empty by premise `P_STREAMS_EMPTY`. It holds for every
parameter set; the one that `State.reset` takes is the model's choice (log entry 2). -/
def Obligations.ResetLeavesTheBusInert : Prop :=
  State.reset = State.resetWith Params.initial ∧
  ∀ p : Params,
    let s := State.resetWith p
    s.core.state = .receiveCommand ∧ s.core.oe = true ∧ s.core.cs = false ∧ s.core.cmd = 0 ∧
    s.core.count = 0 ∧ s.core.bitno = 0 ∧ s.core.shregO = 0 ∧ s.core.shregI = 0 ∧ s.core.timer = 0 ∧
    s.core.phase = false ∧ s.core.phaseR = false ∧ s.core.ctr = 0 ∧ s.core.sckR = p.sckIdle ∧
    s.fault = none ∧ s.cmdq = [] ∧ s.rspq = [] ∧
    (outputs s).sck = p.sckIdle ∧ (outputs s).dout = false ∧
    pinLevel (outputs s).csN (outputs s).csOe = some true ∧ (outputs s).rspFlush = true

/-- 70_reset_and_hazards.md section 1 (decisions D7, D9, D10): `rst` wins over everything, in any state of the
machine, with a fault recorded or not. The registers take their reset values, the recorded fault is
cleared, nothing is popped or pushed, the parameters are those that come with it; the streams are left to
the transport, which empties them when it reconnects. That `rst` is an input that carries the parameters and
the reconnection is log entries 18 and 4; that the two stages of the synchronizer, which are no registers of
the core, are 0 after it is 40_bus_signal_driver.md section 2 (decision D15, log entry 12); that the tick
number begins again is log entry 13. -/
def Obligations.ResetWinsOverEverything : Prop :=
  ∀ (s : State) (x : ResetInput), s.params.Valid → s.input.rst = some x →
    ∃ t, step s = .next t ∧ t.core = Regs.reset x.params ∧ t.params = x.params ∧ t.fault = none ∧
      t.tickNo = 0 ∧ t.sync1 = false ∧ t.sync2 = false ∧
      (outputs s).cmdPop = false ∧ (outputs s).rspPush = false ∧
      (x.reconnect = false → t.cmdq = s.cmdq ++ s.input.arrive.toList ∧
        t.delivered ++ t.rspq = s.delivered ++ s.rspq) ∧
      (x.reconnect = true → t.cmdq = [] ∧ t.rspq = [])

/-- 60_exceptions.md section 3, "Configuration refusal" (decision D11): parameters that are no configuration
of this hardware are refused, by every step and for every command. -/
def Obligations.BadConfigurationIsRefused : Prop :=
  ∀ s : State, ¬ s.params.Valid →
    step s = .refused .badConfiguration ∧ ∀ i : Instr, exec i s = .refused .badConfiguration

/-! ### The step -/

/-- At a frame boundary, without reset and without a recorded fault, when the bytes at the head of the command
stream decode to a command, the step is `exec` of that command, its bytes taken from the stream. -/
def Obligations.StepRunsTheDecodedCommand : Prop :=
  ∀ (s : State) (i : Instr) (rest : List Byte), s.core.state = .receiveCommand → s.fault = none →
    s.input.rst = none → decode s.cmdq = .frame i rest → step s = exec i { s with cmdq := rest }

/-- In every other running case the step is one tick: the core in the middle of a command, a frame that has not
arrived whole, a malformed opcode, an empty stream, a reset. -/
def Obligations.StepIsOneTickElsewhere : Prop :=
  ∀ s : State, s.params.Valid → s.fault = none →
    (s.core.state ≠ .receiveCommand ∨ s.inReset = true ∨ ∀ i rest, decode s.cmdq ≠ .frame i rest) →
      step s = .next (tick s)

/-- Log entry 1: whatever a step runs, it is a run of one or more of the ticks of rule R189; running a command
whole is a way of counting steps and gives the machine no other behaviour. -/
def Obligations.StepIsARunOfTicks : Prop :=
  ∀ s t : State, step s = .next t → ∃ k, 0 < k ∧ t = ticks k s

/-! ### Faults -/

/-- 60_exceptions.md section 2 (decision D6): a byte that is none of the ten, popped at a frame boundary, is
removed from the stream and copied into `cmd`, the fault is recorded, and nothing else happens; the step
after it is that fault, unless reset comes. -/
def Obligations.MalformedOpcodeIsRecorded : Prop :=
  ∀ (s : State) (b : Byte) (rest : List Byte), s.Ready → s.NoReset 1 → s.cmdq = b :: rest →
    b ∉ ([0x00, 0x01, 0x10, 0x11, 0x12, 0x13, 0x20, 0x30, 0x40, 0x41] : List Byte) →
    ∃ t, step s = .next t ∧ t.fault = some (.malformedOpcode b) ∧ t.core = { s.core with cmd := b } ∧
      t.params = s.params ∧ t.cmdq = rest ++ s.arrivals 1 ∧ t.popped = s.popped + 1 ∧
      t.delivered ++ t.rspq = s.delivered ++ s.rspq ∧ t.trace = s.trace ∧
      ((s.inputAt 1).rst = none → step t = .fault (.malformedOpcode b))

/-- 60_exceptions.md section 2 (decisions D6, D29): with a fault recorded and no reset the machine answers the
fault and takes no step; in the tick no register changes, no byte is popped and none is pushed. -/
def Obligations.RecordedFaultFreezesTheCore : Prop :=
  ∀ (s : State) (f : Fault), s.params.Valid → s.fault = some f → s.input.rst = none →
    step s = .fault f ∧ (∀ i : Instr, exec i s = .fault f) ∧
    (tick s).core = s.core ∧ (tick s).fault = some f ∧ (tick s).params = s.params ∧
    (tick s).cmdq = s.cmdq ++ s.input.arrive.toList ∧ (tick s).popped = s.popped ∧
    (tick s).delivered ++ (tick s).rspq = s.delivered ++ s.rspq ∧ (tick s).trace = s.trace ∧
    (outputs s).cmdPop = false ∧ (outputs s).rspPush = false

/-! ### The states of the interpreter, tick by tick -/

/-- 42_interpreter_fsm.md, state `RECEIVE_COMMAND` (that `cmd` is written with every opcode is decision D21): a
byte that waits is popped, one byte and no more, whatever of its frame has arrived; `cmd` takes it, and it
goes by its value: the SHIFT and DELAY opcodes to `RECEIVE_COUNT_1`, SYNC to `SYNC`, SELECT and OE write
their register and stay. No other register changes, nothing is pushed, and only SELECT and OE show an event.
(The bytes outside the ten are `MalformedOpcodeIsRecorded`.) -/
def Obligations.ReceiveCommandTakesAnOpcode : Prop :=
  ∀ s : State, s.params.Valid → s.Inv → s.fault = none → s.input.rst = none →
    s.core.state = .receiveCommand →
    (outputs s).rspFlush = true ∧
    (tick s).delivered ++ (tick s).rspq = s.delivered ++ s.rspq ∧
    (s.cmdq = [] → (tick s).core = s.core ∧ (tick s).fault = none ∧ (tick s).trace = s.trace ∧
      (tick s).cmdq = s.input.arrive.toList ∧ (tick s).popped = s.popped) ∧
    ∀ (b : Byte) (rest : List Byte), s.cmdq = b :: rest →
      (tick s).cmdq = rest ++ s.input.arrive.toList ∧ (tick s).popped = s.popped + 1 ∧
      (b ∈ ([0x10, 0x11, 0x12, 0x13, 0x20] : List Byte) →
        (tick s).core = { s.core with cmd := b, state := .receiveCount1 } ∧
        (tick s).fault = none ∧ (tick s).trace = s.trace) ∧
      (b = 0x30 →
        (tick s).core = { s.core with cmd := b, state := .sync } ∧
        (tick s).fault = none ∧ (tick s).trace = s.trace) ∧
      (∀ v, b = 0x00 ||| operandBit v →
        (tick s).core = { s.core with cmd := b, cs := v } ∧
        (tick s).fault = none ∧ (tick s).trace = s.trace ++ [(s.tickNo, .cs v)]) ∧
      (∀ v, b = 0x40 ||| operandBit v →
        (tick s).core = { s.core with cmd := b, oe := v } ∧
        (tick s).fault = none ∧ (tick s).trace = s.trace ++ [(s.tickNo, .oe v)])

/-- Rule R164. -/
def Obligations.SyncStateWaitsThenPushesZero : Prop :=
  ∀ s : State, s.params.Valid → s.Inv → s.fault = none → s.input.rst = none → s.core.state = .sync →
    (s.input.rspReady = true → (tick s).core = { s.core with state := .receiveCommand } ∧
      (tick s).delivered ++ (tick s).rspq = s.delivered ++ s.rspq ++ [0x00]) ∧
    (s.input.rspReady = false → (tick s).core = s.core ∧
      (tick s).delivered ++ (tick s).rspq = s.delivered ++ s.rspq) ∧
    (tick s).cmdq = s.cmdq ++ s.input.arrive.toList ∧ (tick s).popped = s.popped

/-- Rules R165 and R166: each count byte is popped into its half of `count`, the other half keeps its value;
the selector of `cmd` decides between `DELAY` and `COUNT_CHECK`. -/
def Obligations.CountBytesAreReadInTwoTicks : Prop :=
  ∀ s : State, s.params.Valid → s.Inv → s.fault = none → s.input.rst = none →
    (s.core.state = .receiveCount1 →
      (s.cmdq = [] → (tick s).core = s.core) ∧
      ∀ b rest, s.cmdq = b :: rest →
        ∃ c : Count, countLo c = b ∧ countHi c = countHi s.core.count ∧
          (tick s).core = { s.core with count := c, state := .receiveCount2 } ∧
          (tick s).cmdq = rest ++ s.input.arrive.toList) ∧
    (s.core.state = .receiveCount2 →
      (s.cmdq = [] → (tick s).core = s.core) ∧
      ∀ b rest, s.cmdq = b :: rest →
        ∃ c : Count, countHi c = b ∧ countLo c = countLo s.core.count ∧
          (tick s).core = { s.core with
            count := c
            state := if s.core.cmd.extractLsb' 4 4 = 0x2 then .delay else .countCheck } ∧
          (tick s).cmdq = rest ++ s.input.arrive.toList)

/-- Rule R168. -/
def Obligations.CountCheckTakesOneTick : Prop :=
  ∀ s : State, s.params.Valid → s.Inv → s.fault = none → s.input.rst = none → s.core.state = .countCheck →
    (s.core.count = 0 → (tick s).core = { s.core with state := .receiveCommand }) ∧
    (s.core.count ≠ 0 → (tick s).core = { s.core with state := .receiveData }) ∧
    (tick s).cmdq = s.cmdq ++ s.input.arrive.toList ∧
    (tick s).delivered ++ (tick s).rspq = s.delivered ++ s.rspq ∧ (tick s).trace = s.trace

/-- Rule R169, the ordinary cases: the core proceeds when DATA-IN is set or a byte is there; a payload byte is
popped only with DATA-OUT, else zero is loaded and the waiting byte stays; otherwise it stays. -/
def Obligations.ReceiveDataLoadsOrWaits : Prop :=
  ∀ s : State, s.params.Valid → s.Inv → s.fault = none → s.input.rst = none → s.core.state = .receiveData →
    (∀ b rest, dataOut s.core.cmd = true → s.cmdq = b :: rest →
      (tick s).core = { s.core with shregO := b, count := s.core.count - 1, bitno := 8, state := .transfer } ∧
      (tick s).cmdq = rest ++ s.input.arrive.toList) ∧
    (dataOut s.core.cmd = false → (dataIn s.core.cmd = true ∨ s.cmdq ≠ []) →
      (tick s).core = { s.core with shregO := 0, count := s.core.count - 1, bitno := 8, state := .transfer } ∧
      (tick s).cmdq = s.cmdq ++ s.input.arrive.toList) ∧
    (dataIn s.core.cmd = false → s.cmdq = [] →
      (tick s).core = s.core ∧ (tick s).cmdq = s.input.arrive.toList)

/-- 42_interpreter_fsm.md, the underrun of `RECEIVE_DATA` (decision D18, log entry 7): with both flags and no
byte waiting the core proceeds with a byte that nothing determines (the free value, whatever it is) and
pops nothing; under P5 = fault it records the fault in its place. -/
def Obligations.UnderrunLoadsAFreeByte : Prop :=
  ∀ s : State, s.params.Valid → s.Inv → s.fault = none → s.input.rst = none → s.core.state = .receiveData →
    dataOut s.core.cmd = true → dataIn s.core.cmd = true → s.cmdq = [] →
    (tick s).cmdq = s.input.arrive.toList ∧ (tick s).popped = s.popped ∧
    (s.params.underrun = .draw → (tick s).fault = none ∧
      (tick s).core = { s.core with shregO := Config.freeCmdData s.clock, count := s.core.count - 1, bitno := 8,
                                    state := .transfer }) ∧
    (s.params.underrun = .fault → (tick s).fault = some .cmdUnderrun ∧ (tick s).core = s.core)

/-- Rule R172: `bitno` counts the lead strobes, the trail strobe that finds none left ends the state, and
neither stream is looked at. -/
def Obligations.TransferCountsLeadStrobes : Prop :=
  ∀ s : State, s.fault = none → s.input.rst = none → s.core.state = .transfer →
    clkEn s.core = true ∧
    (stbLead s.core = true →
      (tick s).core.bitno = s.core.bitno - 1 ∧ (tick s).core.state = .transfer) ∧
    (stbLead s.core = false → stbTrail s.core = true → s.core.bitno = 0 →
      (tick s).core.bitno = s.core.bitno ∧ (tick s).core.state = .sendData) ∧
    (stbLead s.core = false → (stbTrail s.core = false ∨ s.core.bitno ≠ 0) →
      (tick s).core.bitno = s.core.bitno ∧ (tick s).core.state = .transfer) ∧
    (tick s).cmdq = s.cmdq ++ s.input.arrive.toList ∧ (tick s).popped = s.popped ∧
    (tick s).delivered ++ (tick s).rspq = s.delivered ++ s.rspq

/-- 42_interpreter_fsm.md, state `SEND_DATA` (that it waits for room is decision D17): with DATA-IN the byte
is pushed when there is room, else the core stays; without DATA-IN nothing is pushed. `count` decides
where it goes. In every case the held Clock Generator clears `ctr`, also where the core stays, as in every
tick outside `TRANSFER` (41_clock_generator.md sections 2 and 4, decision D12, log entry 10). -/
def Obligations.SendDataPushesTheSampledByte : Prop :=
  ∀ s : State, s.params.Valid → s.Inv → s.fault = none → s.input.rst = none → s.core.state = .sendData →
    let next : Fsm := if s.core.count = 0 then .receiveCommand else .receiveData
    (dataIn s.core.cmd = false →
      (tick s).core = { s.core with state := next, ctr := 0 } ∧
      (tick s).delivered ++ (tick s).rspq = s.delivered ++ s.rspq) ∧
    (dataIn s.core.cmd = true → s.input.rspReady = true →
      (tick s).core = { s.core with state := next, ctr := 0 } ∧
      (tick s).delivered ++ (tick s).rspq = s.delivered ++ s.rspq ++ [s.core.shregI]) ∧
    (dataIn s.core.cmd = true → s.input.rspReady = false →
      (tick s).core = { s.core with ctr := 0 } ∧
      (tick s).delivered ++ (tick s).rspq = s.delivered ++ s.rspq) ∧
    (tick s).cmdq = s.cmdq ++ s.input.arrive.toList

/-- 42_interpreter_fsm.md, state `DELAY` (the reload value is decision D16): entered with `timer = 0` it is held
for `count * DELAY_CYC + 1` ticks, in which neither stream is looked at and the bus is inert. -/
def Obligations.DelayStateLasts : Prop :=
  ∀ s : State, s.params.Valid → s.Inv → s.fault = none → s.core.state = .delay → s.core.timer = 0 →
    let k := s.core.count.toNat * s.params.delayCyc + 1
    s.NoReset k →
      (ticks k s).core = { s.core with state := .receiveCommand, count := 0 } ∧
      (∀ j, j < k → (ticks j s).core.state = .delay) ∧
      (ticks k s).cmdq = s.cmdq ++ s.arrivals k ∧
      (ticks k s).delivered ++ (ticks k s).rspq = s.delivered ++ s.rspq ∧ (ticks k s).trace = s.trace

/-! ### The clock and the shift registers -/

/-- Rules R124 and R125: with `sck_edge = rising` the `latch` is the rise of the pin and the `setup` its fall,
with `falling` the other way round; never both, and neither while the pin has its level of the tick
before. -/
def Obligations.SetupAndLatchAreExclusive : Prop :=
  ∀ (p : Params) (r : Regs),
    (p.sckEdge = .rising → (latchEvent p r = true ↔ r.sckR = false ∧ sckOf p r = true) ∧
      (setupEvent p r = true ↔ r.sckR = true ∧ sckOf p r = false)) ∧
    (p.sckEdge = .falling → (latchEvent p r = true ↔ r.sckR = true ∧ sckOf p r = false) ∧
      (setupEvent p r = true ↔ r.sckR = false ∧ sckOf p r = true)) ∧
    ¬(setupEvent p r = true ∧ latchEvent p r = true) ∧
    (sckOf p r = r.sckR → setupEvent p r = false ∧ latchEvent p r = false)

/-- Rules R177 and R178: on `setup` the output register shifts left with a zero at the bottom, on `latch` the
input register shifts left with `din_s` at the bottom, in every state; with neither, both keep their value
(but for the load of `RECEIVE_DATA`). Of `RECEIVE_DATA` it speaks in a well-formed machine only: there neither
event happens (`BusIsSilentOutsideTransfer`), and which of a load and a shift would win is a choice of the
spec. -/
def Obligations.ShiftRegistersFollowTheEvents : Prop :=
  ∀ s : State, s.fault = none → s.input.rst = none →
    (s.core.state ≠ .receiveData ∨ s.params.Valid ∧ s.Inv) →
    (setupEvent s.params s.core = true →
      (tick s).core.shregO.getLsbD 0 = false ∧
      (∀ j, j < 7 → (tick s).core.shregO.getLsbD (j + 1) = s.core.shregO.getLsbD j) ∧
      (tick s).core.shregI = s.core.shregI) ∧
    (latchEvent s.params s.core = true →
      (tick s).core.shregI.getLsbD 0 = s.dinAt 0 ∧
      (∀ j, j < 7 → (tick s).core.shregI.getLsbD (j + 1) = s.core.shregI.getLsbD j) ∧
      (tick s).core.shregO = s.core.shregO) ∧
    (setupEvent s.params s.core = false → latchEvent s.params s.core = false →
      (tick s).core.shregI = s.core.shregI ∧
      (s.core.state ≠ .receiveData → (tick s).core.shregO = s.core.shregO))

/-- 41_clock_generator.md section 4 (from decision D12): in a `TRANSFER` whose first tick is now, `phase` is 1
for the first half of each period, the periods starting one tick after the first. -/
def Obligations.ClockFollowsItsSchedule : Prop :=
  ∀ s : State, s.params.Valid → s.fault = none → s.core.state = .transfer → s.core.phase = false →
    s.core.phaseR = false → s.core.ctr = 0 → s.core.sckR = s.params.sckIdle → s.core.bitno = 8 →
    s.NoReset (transferTicks s.params) →
      ∀ j, j < transferTicks s.params →
        (ticks j s).core.phase =
          (1 ≤ j && (j - 1) % (2 * s.params.halfPeriodCyc) < s.params.halfPeriodCyc)

/-- 42_interpreter_fsm.md section 4 and the bus trace of 44_shift.md section 1 (ticks from decision D12): a
`TRANSFER` lasts `15H + 2` ticks; its bus trace is the eight periods of `byteTrace`; `shreg_o` ends empty,
`shreg_i` holds the eight bits sampled, the first in bit 7. Where `latch` is on the trail edge the peer does
not see bit 7 at a sampling edge (log entry 15). -/
def Obligations.TransferMovesOneByte : Prop :=
  ∀ s : State, s.params.Valid → s.fault = none → s.core.state = .transfer → s.core.phase = false →
    s.core.phaseR = false → s.core.ctr = 0 → s.core.sckR = s.params.sckIdle → s.core.bitno = 8 →
    s.NoReset (transferTicks s.params) →
      let t := ticks (transferTicks s.params) s
      t.core = { s.core with state := .sendData, bitno := 0, shregO := 0, shregI := s.sampled 0,
                             ctr := s.params.halfPeriodCyc - 2 } ∧
      (∀ j, j < transferTicks s.params → (ticks j s).core.state = .transfer) ∧
      t.trace = s.trace ++ byteTrace s.params s.tickNo s.core.shregO (s.sampled 0) ∧
      t.cmdq = s.cmdq ++ s.arrivals (transferTicks s.params) ∧
      t.delivered ++ t.rspq = s.delivered ++ s.rspq

/-- 40_bus_signal_driver.md section 4 and 10_state.md section 8: outside `TRANSFER` the clock pin rests, data-out
is 0, and neither event happens. -/
def Obligations.BusIsSilentOutsideTransfer : Prop :=
  ∀ s : State, s.params.Valid → s.Inv → s.core.state ≠ .transfer →
    setupEvent s.params s.core = false ∧ latchEvent s.params s.core = false ∧
    stbLead s.core = false ∧ stbTrail s.core = false ∧
    (outputs s).sck = s.params.sckIdle ∧ (outputs s).dout = false

/-- 40_bus_signal_driver.md section 2 (decision D15): `din_s` is the level of the data-in line two ticks
before; in the first two ticks after a reset it is 0. -/
def Obligations.DataInIsTwoTicksOld : Prop :=
  ∀ (s : State) (k : Nat),
    ((s.inputAt k).rst = none → (s.inputAt (k + 1)).rst = none →
      (ticks (k + 2) s).sync2 = (s.inputAt k).dinPin) ∧
    ((s.inputAt k).rst ≠ none → (ticks (k + 1) s).sync2 = false ∧
      ((s.inputAt (k + 1)).rst = none → (ticks (k + 2) s).sync2 = false))

/-! ### Rules about the whole machine -/

/-- 20_memory.md section 4: a state that waits keeps every register and moves no byte; the bus is inert
meanwhile. `TRANSFER` never waits: the core's answer there is the same whatever the streams show. In
`RECEIVE_DATA` a SHIFT with DATA-IN does not wait (under the default treatment of an underrun, decision D18, log
entry 7). The one exception is not of that section: in `SEND_DATA` the held Clock Generator clears `ctr`
meanwhile, as in every tick outside `TRANSFER` (41_clock_generator.md sections 2 and 4, decision D12, log entry
10). -/
def Obligations.StallKeepsEveryRegister : Prop :=
  (∀ s : State, s.params.Valid → s.Inv → s.fault = none → s.input.rst = none →
    (s.core.state = .receiveCommand ∧ s.cmdq = [] ∨ s.waitsForByte = true ∨ s.waitsForRoom = true) →
      (tick s).core = { s.core with ctr := 0 } ∧ (tick s).cmdq = s.cmdq ++ s.input.arrive.toList ∧
      (tick s).popped = s.popped ∧ (tick s).delivered ++ (tick s).rspq = s.delivered ++ s.rspq ∧
      (s.core.state ≠ .sendData → (tick s).core = s.core) ∧
      (outputs s).sck = s.params.sckIdle ∧ (outputs s).dout = false ∧
      (outputs (tick s)).csN = (outputs s).csN ∧ (outputs (tick s)).csOe = (outputs s).csOe) ∧
  (∀ (p : Params) (x y : CoreIn) (r : Regs), r.state = .transfer → x.dinS = y.dinS →
    coreStep p x r = coreStep p y r) ∧
  (∀ s : State, s.params.Valid → s.Inv → s.fault = none → s.input.rst = none → s.params.underrun = .draw →
    s.core.state = .receiveData → dataIn s.core.cmd = true → (tick s).core.state = .transfer)

/-- Rule R28's sentence on who writes `cs`: without a reset in the ticks the step took (as many as `clock` has
advanced), a step changes the logical
chip-select only when it stands at a SELECT opcode, and then to the operand bit. -/
def Obligations.OnlySelectChangesChipSelect : Prop :=
  ∀ s t : State, step s = .next t → s.NoReset (t.clock - s.clock) → t.core.cs ≠ s.core.cs →
    s.core.state = .receiveCommand ∧
      ∃ rest, s.cmdq = (0x00 ||| operandBit t.core.cs) :: rest

/-- Rule R29's sentence on who writes `oe`: the same for the driver enable and the OUTPUT-ENABLE opcodes. -/
def Obligations.OnlyOeChangesTheDriverEnable : Prop :=
  ∀ s t : State, step s = .next t → s.NoReset (t.clock - s.clock) → t.core.oe ≠ s.core.oe →
    s.core.state = .receiveCommand ∧
      ∃ rest, s.cmdq = (0x40 ||| operandBit t.core.oe) :: rest

/-- 20_memory.md sections 3, 6 and 7 (the handshake is decision D4): in every tick without reset the response
stream grows by what the core pushes and by nothing else; it pushes only with room, only in `SYNC` (a zero
byte) or in `SEND_DATA` with DATA-IN (`shreg_i`), and never in a tick in which it pops. -/
def Obligations.ResponsesComeFromSyncAndDataIn : Prop :=
  ∀ s : State, s.input.rst = none →
    (tick s).delivered ++ (tick s).rspq = s.delivered ++ s.rspq ++ (coreOut s).push.toList ∧
    (∀ v, (coreOut s).push = some v → s.input.rspReady = true ∧ (coreOut s).pop = false ∧
      (s.core.state = .sync ∧ v = 0 ∨
       s.core.state = .sendData ∧ dataIn s.core.cmd = true ∧ v = s.core.shregI))

/-- 10_state.md section 5 (the command stream's head in the place of a program counter): over any run of ticks
without reset, the command stream is what it was with the arrivals behind it, less as many bytes from the
head as the head position has advanced, at most one a tick. -/
def Obligations.HeadPositionCountsThePops : Prop :=
  ∀ (s : State) (k : Nat), s.NoReset k →
    s.popped ≤ (ticks k s).popped ∧ (ticks k s).popped ≤ s.popped + k ∧
    (ticks k s).popped - s.popped ≤ (s.cmdq ++ s.arrivals k).length ∧
    (ticks k s).cmdq = (s.cmdq ++ s.arrivals k).drop ((ticks k s).popped - s.popped)

/-- 42_interpreter_fsm.md section 5: in a well-formed machine `count` and `bitno` go down by one only from a value
that is not 0; otherwise `count` is written by the count bytes only, and `bitno` by the load of 8 in
`RECEIVE_DATA`. Of `timer` and `ctr` it says the range only: `timer` stays below `DELAY_CYC` (10_state.md section
2, which rests on the reload value of decision D16) and `ctr` below `HALF_PERIOD_CYC` (41_clock_generator.md
section 2, which rests on that of decision D12), both followed as log entry 10 says. -/
def Obligations.CountersNeverWrap : Prop :=
  ∀ s : State, s.params.Valid → s.Inv → s.fault = none → s.input.rst = none →
    (s.core.state ≠ .receiveCount1 → s.core.state ≠ .receiveCount2 →
      (tick s).core.count = s.core.count ∨ (tick s).core.count.toNat + 1 = s.core.count.toNat) ∧
    ((tick s).core.bitno = s.core.bitno ∨ (tick s).core.bitno.toNat + 1 = s.core.bitno.toNat ∨
      (s.core.state = .receiveData ∧ (tick s).core.bitno = 8)) ∧
    (tick s).core.timer < s.params.delayCyc ∧ (tick s).core.ctr < s.params.halfPeriodCyc

/-- 44_shift.md section 3 (SHIFT ignores chip-select and the output enable), and the same of DELAY and SYNC: what
these commands do does not depend on `cs` and `oe`, and they leave both as they were (without a reset in the
ticks the command took). -/
def Obligations.TransfersIgnoreChipSelect : Prop :=
  ∀ (i : Instr) (s t : State) (c e : Bool), (∀ l, i ≠ .select l) → (∀ l, i ≠ .oe l) →
    exec i s = .next t → s.NoReset (t.clock - s.clock) →
      t.core.cs = s.core.cs ∧ t.core.oe = s.core.oe ∧
      exec i { s with core := { s.core with cs := c, oe := e } } =
        .next { t with core := { t.core with cs := c, oe := e } }

/-- Time passes for the environment in every tick a command takes (00_scope.md section 4, 10_state.md section 6).
The forms in which it does are the model's: a command takes between one tick and its budget of ticks, which
is what it needs and a tick for each scripted input (log entry 1); one tick of the list of inputs is used and
the index of the free values advances by one (log entry 3); without a reset among them the tick number
advances (log entry 13) and the synchronizer takes in the level of the data-in line (decision D15, log entry
12). -/
def Obligations.CommandsLetTimePass : Prop :=
  ∀ (i : Instr) (s t : State), exec i s = .next t →
    ∃ k, 0 < k ∧ k ≤ ticksNeeded s.params i + s.inputs.length ∧
      t.clock = s.clock + k ∧ t.inputs = s.inputs.drop k ∧
      (s.NoReset k → t.tickNo = s.tickNo + k ∧ t.sync2 = s.dinAt k ∧ t.sync1 = s.dinAt (k + 1))

/-! ### What every command leaves alone, however it is stalled -/

/-- SHIFT, all four variants, from a frame boundary and without reset in the ticks taken, whatever stalls:
`cs`, `oe`, `timer` and the parameters are unchanged; SHIFT.NONE and SHIFT.OUT push nothing, SHIFT.IN and
SHIFT.IO at most as many bytes as the count, behind those already there. -/
def Obligations.FrameOfShift : Prop :=
  ∀ (i : Instr) (n : Count) (payload : List Byte) (s t : State),
    i ∈ ([.shiftNone n, .shiftOut n payload, .shiftIn n, .shiftIo n payload] : List Instr) →
    s.Ready → exec i s = .next t → s.NoReset (t.clock - s.clock) →
      t.core.cs = s.core.cs ∧ t.core.oe = s.core.oe ∧ t.core.timer = s.core.timer ∧ t.params = s.params ∧
      (i ∈ ([.shiftNone n, .shiftOut n payload] : List Instr) →
        t.delivered ++ t.rspq = s.delivered ++ s.rspq) ∧
      ∃ rsp : List Byte, rsp.length ≤ n.toNat ∧ t.delivered ++ t.rspq = s.delivered ++ s.rspq ++ rsp

/-- DELAY and SYNC, from a frame boundary and without reset in the ticks taken, whatever stalls: every register
but `cmd`, `count`, `timer` and `state` is unchanged, SYNC leaves `count` and `timer` too, the bus trace
gains nothing; DELAY pushes nothing, SYNC nothing or one zero byte. -/
def Obligations.FrameOfDelayAndSync : Prop :=
  ∀ (n : Count) (s t : State), s.Ready → s.NoReset (t.clock - s.clock) →
    (exec (.delay n) s = .next t →
      t.core = { s.core with cmd := t.core.cmd, count := t.core.count, timer := t.core.timer,
                             state := t.core.state } ∧
      t.params = s.params ∧ t.fault = none ∧ t.trace = s.trace ∧
      t.delivered ++ t.rspq = s.delivered ++ s.rspq) ∧
    (exec .sync s = .next t →
      t.core = { s.core with cmd := t.core.cmd, state := t.core.state } ∧
      t.params = s.params ∧ t.fault = none ∧ t.trace = s.trace ∧
      (t.delivered ++ t.rspq = s.delivered ++ s.rspq ∨
       t.delivered ++ t.rspq = s.delivered ++ s.rspq ++ [0x00]))

/-! ### What each command does: every command completes -/

/-- Rule R200, and with it the frame of SELECT: `cs` takes the operand bit and `cmd` the opcode, in one tick;
every other register is unchanged; one byte is popped and none pushed; the pin shows the inverted level if
it is driven. -/
def Obligations.SelectSetsChipSelect : Prop :=
  ∀ (level : Bool) (s : State), s.Ready → s.NoReset 1 →
    encode (.select level) = [0x00 ||| operandBit level] ∧
    ∃ t, exec (.select level) s = .next t ∧
      t.core = { s.core with cs := level, cmd := 0x00 ||| operandBit level } ∧
      CommandDone s t 1 1 [] [(s.tickNo, .cs level)] ∧
      (outputs t).csN = !level ∧
      pinLevel (outputs t).csN (outputs t).csOe = if s.core.oe then some (!level) else none

/-- Rule R260, and with it the frame of OE: `oe` takes the operand bit and `cmd` the opcode, in one tick; every
other register is unchanged; only the drive of the chip-select pin is gated, clock and data-out stay
driven. -/
def Obligations.OeSetsTheDriverEnable : Prop :=
  ∀ (enable : Bool) (s : State), s.Ready → s.NoReset 1 →
    encode (.oe enable) = [0x40 ||| operandBit enable] ∧
    ∃ t, exec (.oe enable) s = .next t ∧
      t.core = { s.core with oe := enable, cmd := 0x40 ||| operandBit enable } ∧
      CommandDone s t 1 1 [] [(s.tickNo, .oe enable)] ∧
      (outputs t).csOe = enable ∧ (outputs t).sckOe = true ∧ (outputs t).doutOe = true ∧
      pinLevel (outputs t).csN (outputs t).csOe = if enable then some (!s.core.cs) else none

/-- Rule R250, and with it the frame of SYNC: with the response stream first ready `j` ticks after the opcode's
(as far as the script of inputs lists stalls, log entry 1), exactly one zero byte is pushed, behind every
earlier response, and the core is back at a frame boundary; no register but `cmd` has changed. -/
def Obligations.SyncPushesOneZeroByte : Prop :=
  ∀ (s : State) (j : Nat), s.Ready → s.NoReset (j + 2) → j ≤ s.inputs.length →
    (∀ i, i < j → (s.inputAt (i + 1)).rspReady = false) → (s.inputAt (j + 1)).rspReady = true →
    encode .sync = [0x30] ∧
    ∃ t, exec .sync s = .next t ∧ t.core = { s.core with cmd := 0x30 } ∧
      CommandDone s t (j + 2) 1 [0x00] []

/-- Rule R240, and with it the frame of DELAY: `n * DELAY_CYC + 1` ticks in `DELAY` after the three of its
bytes; `count` and `timer` end at 0, no other register but `cmd` has changed; nothing but the frame is
popped, nothing is pushed, no bus event; in every tick the clock rests, data-out is 0 and chip-select keeps
its level and its drive. -/
def Obligations.DelayHoldsTheInterpreter : Prop :=
  ∀ (n : Count) (s : State), s.Ready → s.NoReset (n.toNat * s.params.delayCyc + 4) →
    encode (.delay n) = [0x20, countLo n, countHi n] ∧
    ∃ t, exec (.delay n) s = .next t ∧ t.core = { s.core with cmd := 0x20, count := 0, timer := 0 } ∧
      CommandDone s t (n.toNat * s.params.delayCyc + 4) 3 [] [] ∧
      ∀ j, j ≤ n.toNat * s.params.delayCyc + 4 →
        let u := ticks j (s.deliver (encode (.delay n)))
        (outputs u).sck = s.params.sckIdle ∧ (outputs u).dout = false ∧
        (outputs u).csN = (outputs s).csN ∧ (outputs u).csOe = (outputs s).csOe

/-- Rule R215: a SHIFT of no bytes, in all four variants, pops its three frame bytes and is back after four
ticks; no bus event, no response byte, and no register but `cmd` and `count` is written. -/
def Obligations.ShiftOfNothingIsANoOp : Prop :=
  ∀ (s : State) (i : Instr) (op : Byte), s.Ready → s.NoReset 4 →
    (i, op) ∈ ([(.shiftNone 0, 0x10), (.shiftOut 0 [], 0x11), (.shiftIn 0, 0x12), (.shiftIo 0 [], 0x13)] :
      List (Instr × Byte)) →
    ∃ t, exec i s = .next t ∧ t.core = { s.core with cmd := op, count := 0 } ∧ CommandDone s t 4 3 [] []

/-- SHIFT.NONE (44_shift.md section 2; the ticks are derived from decisions D2, D12): with a byte waiting behind
the frame when the first transfer would start, `n` bytes of zeros are clocked out, the sampled bits stay in
`shreg_i`, nothing but the frame is popped and nothing is pushed. -/
def Obligations.ShiftNoneClocksWithoutData : Prop :=
  ∀ (n : Count) (s : State), s.Ready → s.NoReset (shiftTicks s.params n) →
    (n ≠ 0 → s.cmdq ++ s.arrivals 4 ≠ []) →
    ∃ t, exec (.shiftNone n) s = .next t ∧ t.core = s.coreAfterShift 0x10 n.toNat ∧
      CommandDone s t (shiftTicks s.params n) 3 [] (s.shiftTrace (List.replicate n.toNat 0))

/-- SHIFT.OUT (44_shift.md section 2; the ticks are derived): the payload is clocked out in order, most
significant bit first as `byteTrace` says, the sampled bits are not sent. -/
def Obligations.ShiftOutWritesThePayload : Prop :=
  ∀ (n : Count) (payload : List Byte) (s : State), payload.length = n.toNat → s.Ready →
    s.NoReset (shiftTicks s.params n) →
    ∃ t, exec (.shiftOut n payload) s = .next t ∧ t.core = s.coreAfterShift 0x11 n.toNat ∧
      CommandDone s t (shiftTicks s.params n) (3 + n.toNat) [] (s.shiftTrace payload)

/-- SHIFT.IN (44_shift.md section 2; the ticks are derived): with room for a response in each byte's `SEND_DATA`
tick, `n` bytes are sampled, most significant bit first, and pushed in order, while data-out stays 0. -/
def Obligations.ShiftInReadsThePeer : Prop :=
  ∀ (n : Count) (s : State), s.Ready → s.NoReset (shiftTicks s.params n) →
    (∀ k, k < n.toNat → (s.inputAt (sendTick s.params k)).rspReady = true) →
    ∃ t, exec (.shiftIn n) s = .next t ∧ t.core = s.coreAfterShift 0x12 n.toNat ∧
      CommandDone s t (shiftTicks s.params n) 3 (s.sampledBytes n.toNat)
        (s.shiftTrace (List.replicate n.toNat 0))

/-- SHIFT.IO (44_shift.md section 2; the ticks are derived), property S1 of 95_test_vectors.md: each payload byte
is clocked out while one byte is sampled; the response byte `k` is the one sampled in the eight `latch` ticks
of payload byte `k`. -/
def Obligations.ShiftIoExchangesBytes : Prop :=
  ∀ (n : Count) (payload : List Byte) (s : State), payload.length = n.toNat → s.Ready →
    s.NoReset (shiftTicks s.params n) →
    (∀ k, k < n.toNat → (s.inputAt (sendTick s.params k)).rspReady = true) →
    ∃ t, exec (.shiftIo n payload) s = .next t ∧ t.core = s.coreAfterShift 0x13 n.toNat ∧
      CommandDone s t (shiftTicks s.params n) (3 + n.toNat) (s.sampledBytes n.toNat) (s.shiftTrace payload)

/-! ### Runs of a command sequence -/

/-- 20_memory.md section 4 and 44_shift.md section 3: a core that waits for a byte waits on while none arrives, a
core that waits for room waits on while there is none, in the same state and without a fault; there is no
time-out. -/
def Obligations.StallsLastUntilTheirCauseEnds : Prop :=
  ∀ (s : State) (k : Nat), s.fault = none → s.NoReset k →
    (s.waitsForByte = true → (∀ j, j < k → (s.inputAt j).arrive = none) →
      ∀ j, j ≤ k → (ticks j s).waitsForByte = true ∧ (ticks j s).core.state = s.core.state ∧
        (ticks j s).fault = none ∧ (ticks j s).popped = s.popped) ∧
    (s.waitsForRoom = true → (∀ j, j ≤ k → (s.inputAt j).rspReady = false) →
      ∀ j, j ≤ k → (ticks j s).waitsForRoom = true ∧ (ticks j s).core.state = s.core.state ∧
        (ticks j s).fault = none ∧ (ticks j s).delivered ++ (ticks j s).rspq = s.delivered ++ s.rspq)

/-- 60_exceptions.md section 7 (decision D28): a run ends in at most one of the four ways, and one that ends
quiescent or faulted does so at one tick. -/
def Obligations.RunEndsAreExclusive : Prop :=
  ∀ (s : State) (seq : List Byte) (j k : Nat) (e e' : RunEnd), s.EndsAt seq j e → s.EndsAt seq k e' →
    e = e' ∧ (e ≠ .waitingInput → e ≠ .waitingRoom → j = k)

/-- 60_exceptions.md section 7, last sentence (decision D28): what `runEnd` answers under fuel is the end of the
run; it answers every quiescent and every faulted end that comes within the fuel, and neither of the waits. -/
def Obligations.RunEndUnderFuelIsTheEnd : Prop :=
  ∀ (s : State) (seq : List Byte) (fuel : Nat) (e : RunEnd),
    s.runEnd seq fuel = some e ↔
      e ≠ .waitingInput ∧ e ≠ .waitingRoom ∧ ∃ k, k ≤ fuel ∧ s.EndsAt seq k e

/-- The completion claim of 70_reset_and_hazards.md section 2 and 20_memory.md section 7, where nothing stalls:
the run of an assembled program whose bytes all wait at its first tick is over, in the sense of 00_scope.md
section 6, after exactly the ticks its commands need one by one; every byte is popped, and the response
stream has gained as many bytes as the accounting says. Its premises are `P_CONFIG_VALID`, a machine ready
for a command (in the place of `P_RESET`), `P_WELLFORMED`, all bytes there (so `P_ALL_BYTES_ARRIVE` and
`P_PAYLOAD_READY`), room in every tick (so `P_FAIR_RSP`) and the first case of `P_TAIL`. The tick counts are
derived from the spec's decisions (log entry 10). -/
def Obligations.ProgramsRunToQuiescence : Prop :=
  ∀ (program : List Instr) (bytes : List Byte) (s : State), assemble program = some bytes →
    TailStarts program → s.Ready → s.cmdq = bytes →
    let k := (program.map (ticksNeeded s.params)).sum
    s.NoReset k → (∀ j, j < k → (s.inputAt j).arrive = none ∧ (s.inputAt j).rspReady = true) →
      s.OverAt bytes k ∧ (ticks k s).popped = s.popped + bytes.length ∧
      ∃ rsp : List Byte, rsp.length = (program.map responseCount).sum ∧
        (ticks k s).delivered ++ (ticks k s).rspq = s.delivered ++ s.rspq ++ rsp

/-! ### The host's half -/

/-- Rules R111 to R116 and R74 (30_encoding.md section 7, 20_memory.md section 7): every host operation reads
exactly as many response bytes as its frames produce; `exchange` and `read` return them, `synchronize` reads
one and discards it, the others read none; a request the host refuses sends nothing. -/
def Obligations.HostOperationsReadTheirResponses : Prop :=
  (∀ bytes, ∃ op, exchangeOp bytes = .ok op ∧ op.reads = bytes.length ∧ op.returns = true ∧
    (op.frames.map responseCount).sum = op.reads) ∧
  (∀ count, ∃ op, readOp count .single = .ok op ∧ op.reads = count ∧ op.returns = true ∧
    (op.frames.map responseCount).sum = op.reads) ∧
  (∃ op, synchronizeOp = .ok op ∧ op.frames = [.sync] ∧ op.reads = 1 ∧ op.returns = false ∧
    (op.frames.map responseCount).sum = op.reads) ∧
  (∀ op : HostOp,
    ((∃ bytes, writeOp bytes .single = .ok op) ∨ (∃ count, dummyOp count = .ok op) ∨
      (∃ duration, delayMicrosOp duration = .ok op ∨ delayMillisOp duration = .ok op) ∨
      (∃ enabled, outputEnableOp enabled = .ok op)) →
    op.reads = 0 ∧ op.returns = false ∧ (op.frames.map responseCount).sum = 0) ∧
  (∀ mode, mode ≠ .single → (∀ count, readOp count mode = .error .unsupportedMode) ∧
    ∀ bytes, writeOp bytes mode = .error .unsupportedMode)

/-- Rules R66 and R291 for the host's half: reading takes the oldest delivered bytes, exactly as many as asked,
and touches nothing else of the machine; while fewer have been delivered it waits. -/
def Obligations.HostReadsTheOldestBytes : Prop :=
  ∀ (op : HostOp) (s : State),
    (s.delivered.length < op.reads ↔ op.finish s = none) ∧
    ∀ result t, op.finish s = some (result, t) →
      ∃ rsp : List Byte, rsp.length = op.reads ∧ s.delivered = rsp ++ t.delivered ∧
        t = { s with delivered := t.delivered } ∧ (op.returns = true → result = some rsp) ∧
        (op.returns = false → result = none)

/-- The completion of a host operation (30_encoding.md section 7, 20_memory.md section 7) where nothing stalls: its
frames waiting, nothing unread from before, room in every tick, its last frame not a SHIFT.NONE of some
bytes; as soon as the transport has delivered every response, after the ticks its frames need, the
operation is finished, has read what it produced and leaves nothing unread. (The tick counts rest on the
spec's decisions, log entry 10.) -/
def Obligations.HostOperationsFinish : Prop :=
  ∀ (op : HostOp) (wire : List Byte) (s : State) (d : Nat), assemble op.frames = some wire →
    op.reads = (op.frames.map responseCount).sum → TailStarts op.frames → s.Ready → s.cmdq = wire →
    s.delivered = [] → s.rspq = [] → (op.frames.map (ticksNeeded s.params)).sum ≤ d → s.NoReset d →
    (∀ j, j < d → (s.inputAt j).arrive = none ∧ (s.inputAt j).rspReady = true) →
    (ticks d s).rspq = [] →
    ∃ rsp t, rsp.length = op.reads ∧ op.finish (ticks d s) = some (op.result rsp, t) ∧ t.delivered = []

/-- Property S1 of 95_test_vectors.md, at the host: an `exchange` of one frame returns the bytes sampled while its
own were shifted out, in order, and a `read` of one frame the bytes sampled; under the conditions of
`HostOperationsFinish`. (The ticks of the samples rest on decisions D2, D12 and D15.) -/
def Obligations.ExchangeAndReadReturnTheSampledBytes : Prop :=
  ∀ (op : HostOp) (n : Count) (wire : List Byte) (s : State) (d : Nat),
    ((∃ bytes : List Byte, bytes.length = n.toNat ∧ exchangeOp bytes = .ok op) ∨
      readOp n.toNat .single = .ok op) →
    assemble op.frames = some wire → s.Ready → s.cmdq = wire → s.delivered = [] → s.rspq = [] →
    shiftTicks s.params n ≤ d → s.NoReset d →
    (∀ j, j < d → (s.inputAt j).arrive = none ∧ (s.inputAt j).rspReady = true) →
    (ticks d s).rspq = [] →
    ∃ t, op.finish (ticks d s) = some (some (s.sampledBytes n.toNat), t) ∧ t.delivered = []

/-! ### The invariant -/

/-- The invariant of 10_state.md section 8 holds at reset (section 7 of that file), for every parameter set. The
reset values of every register but `state` and `oe` are decision D8 (log entry 9), and the parameters that
`State.reset` takes are the model's choice (log entry 2). -/
def Obligations.ResetSatisfiesTheInvariant : Prop :=
  State.reset.Inv ∧ ∀ p : Params, (State.resetWith p).Inv

/-- 10_state.md section 8 and the reachability rule of 42_interpreter_fsm.md: every step, from every state that
meets the invariant, whatever the environment does, gives a state that meets it. -/
def Obligations.StepKeepsTheInvariant : Prop :=
  ∀ s t : State, s.Inv → step s = .next t → t.Inv
end

