-- ==== Sys2Proof/Laws/State.lean ====
section
/-! SUPPORT. One lemma for each field of each update of `State` and `Regs`, so that no proof unfolds a record
update; the inputs of the coming ticks across a tick. -/

namespace Sys2Proof.Machine

/-! ### `State.passTick` -/

@[simp] theorem passTick_params (s : State) : s.passTick.params = s.params := rfl
@[simp] theorem passTick_core (s : State) : s.passTick.core = s.core := rfl
@[simp] theorem passTick_fault (s : State) : s.passTick.fault = s.fault := rfl
@[simp] theorem passTick_cmdq (s : State) : s.passTick.cmdq = s.cmdq := rfl
@[simp] theorem passTick_rspq (s : State) : s.passTick.rspq = s.rspq := rfl
@[simp] theorem passTick_delivered (s : State) :
    s.passTick.delivered = s.delivered ++ s.rspq.take s.input.take := rfl
@[simp] theorem passTick_inputs (s : State) : s.passTick.inputs = s.inputs.tail := rfl
@[simp] theorem passTick_clock (s : State) : s.passTick.clock = s.clock + 1 := rfl

/-! ### `State.advance` -/

@[simp] theorem advance_params (s : State) (o : CoreOut) : (s.advance o).params = s.params := rfl
@[simp] theorem advance_core (s : State) (o : CoreOut) : (s.advance o).core = o.regs := rfl
@[simp] theorem advance_fault (s : State) (o : CoreOut) : (s.advance o).fault = s.fault.or o.fault := rfl
@[simp] theorem advance_cmdq (s : State) (o : CoreOut) :
    (s.advance o).cmdq = nextCmdq s.cmdq o.pop s.input.arrive := rfl
@[simp] theorem advance_rspq (s : State) (o : CoreOut) :
    (s.advance o).rspq = nextRspq s.rspq s.input.take o.push := rfl
@[simp] theorem advance_delivered (s : State) (o : CoreOut) :
    (s.advance o).delivered = s.delivered ++ s.rspq.take s.input.take := rfl
@[simp] theorem advance_sync1 (s : State) (o : CoreOut) : (s.advance o).sync1 = s.input.dinPin := rfl
@[simp] theorem advance_sync2 (s : State) (o : CoreOut) : (s.advance o).sync2 = s.sync1 := rfl
@[simp] theorem advance_popped (s : State) (o : CoreOut) :
    (s.advance o).popped = s.popped + (if o.pop && s.cmdValid then 1 else 0) := rfl
@[simp] theorem advance_tickNo (s : State) (o : CoreOut) : (s.advance o).tickNo = s.tickNo + 1 := rfl
@[simp] theorem advance_trace (s : State) (o : CoreOut) :
    (s.advance o).trace = s.trace ++ o.events.map fun e => (s.tickNo, e) := rfl
@[simp] theorem advance_inputs (s : State) (o : CoreOut) : (s.advance o).inputs = s.inputs.tail := rfl
@[simp] theorem advance_clock (s : State) (o : CoreOut) : (s.advance o).clock = s.clock + 1 := rfl

/-! ### `State.resetTick` -/

@[simp] theorem resetTick_params (s : State) (x : ResetInput) : (s.resetTick x).params = x.params := rfl
@[simp] theorem resetTick_core (s : State) (x : ResetInput) :
    (s.resetTick x).core = Regs.reset x.params := rfl
@[simp] theorem resetTick_fault (s : State) (x : ResetInput) : (s.resetTick x).fault = none := rfl
@[simp] theorem resetTick_cmdq (s : State) (x : ResetInput) :
    (s.resetTick x).cmdq = if x.reconnect then [] else nextCmdq s.cmdq false s.input.arrive := rfl
@[simp] theorem resetTick_rspq (s : State) (x : ResetInput) :
    (s.resetTick x).rspq = if x.reconnect then [] else nextRspq s.rspq s.input.take none := rfl
@[simp] theorem resetTick_delivered (s : State) (x : ResetInput) :
    (s.resetTick x).delivered = s.delivered ++ s.rspq.take s.input.take := rfl
@[simp] theorem resetTick_sync1 (s : State) (x : ResetInput) : (s.resetTick x).sync1 = false := rfl
@[simp] theorem resetTick_sync2 (s : State) (x : ResetInput) : (s.resetTick x).sync2 = false := rfl
@[simp] theorem resetTick_popped (s : State) (x : ResetInput) : (s.resetTick x).popped = 0 := rfl
@[simp] theorem resetTick_tickNo (s : State) (x : ResetInput) : (s.resetTick x).tickNo = 0 := rfl
@[simp] theorem resetTick_trace (s : State) (x : ResetInput) : (s.resetTick x).trace = [] := rfl
@[simp] theorem resetTick_inputs (s : State) (x : ResetInput) :
    (s.resetTick x).inputs = s.inputs.tail := rfl
@[simp] theorem resetTick_clock (s : State) (x : ResetInput) : (s.resetTick x).clock = s.clock + 1 := rfl

/-! ### `State.deliver` -/

@[simp] theorem deliver_params (s : State) (bs : List Byte) : (s.deliver bs).params = s.params := rfl
@[simp] theorem deliver_core (s : State) (bs : List Byte) : (s.deliver bs).core = s.core := rfl
@[simp] theorem deliver_fault (s : State) (bs : List Byte) : (s.deliver bs).fault = s.fault := rfl
@[simp] theorem deliver_cmdq (s : State) (bs : List Byte) : (s.deliver bs).cmdq = bs ++ s.cmdq := rfl
@[simp] theorem deliver_rspq (s : State) (bs : List Byte) : (s.deliver bs).rspq = s.rspq := rfl
@[simp] theorem deliver_delivered (s : State) (bs : List Byte) :
    (s.deliver bs).delivered = s.delivered := rfl
@[simp] theorem deliver_sync1 (s : State) (bs : List Byte) : (s.deliver bs).sync1 = s.sync1 := rfl
@[simp] theorem deliver_sync2 (s : State) (bs : List Byte) : (s.deliver bs).sync2 = s.sync2 := rfl
@[simp] theorem deliver_popped (s : State) (bs : List Byte) : (s.deliver bs).popped = s.popped := rfl
@[simp] theorem deliver_tickNo (s : State) (bs : List Byte) : (s.deliver bs).tickNo = s.tickNo := rfl
@[simp] theorem deliver_trace (s : State) (bs : List Byte) : (s.deliver bs).trace = s.trace := rfl
@[simp] theorem deliver_inputs (s : State) (bs : List Byte) : (s.deliver bs).inputs = s.inputs := rfl
@[simp] theorem deliver_clock (s : State) (bs : List Byte) : (s.deliver bs).clock = s.clock := rfl
@[simp] theorem deliver_input (s : State) (bs : List Byte) : (s.deliver bs).input = s.input := rfl
@[simp] theorem deliver_inReset (s : State) (bs : List Byte) : (s.deliver bs).inReset = s.inReset := rfl
@[simp] theorem deliver_inputAt (s : State) (bs : List Byte) (j : Nat) :
    (s.deliver bs).inputAt j = s.inputAt j := rfl

@[simp] theorem deliver_dinAt (s : State) (bs : List Byte) (j : Nat) :
    (s.deliver bs).dinAt j = s.dinAt j := by
  match j with
  | 0 => rfl
  | 1 => rfl
  | _ + 2 => rfl

@[simp] theorem deliver_arrivals (s : State) (bs : List Byte) (k : Nat) :
    (s.deliver bs).arrivals k = s.arrivals k := by
  induction k with
  | zero => rfl
  | succ k ih => simp [State.arrivals, ih]

/-! ### `busUpdate`: it writes the shift registers, the Clock Generator and `sck_r`, nothing else -/

@[simp] theorem shiftRegs_state (p : Params) (d : Bool) (r : Regs) :
    (shiftRegs p d r).state = r.state := by unfold shiftRegs; split_ifs <;> rfl
@[simp] theorem shiftRegs_cmd (p : Params) (d : Bool) (r : Regs) :
    (shiftRegs p d r).cmd = r.cmd := by unfold shiftRegs; split_ifs <;> rfl
@[simp] theorem shiftRegs_count (p : Params) (d : Bool) (r : Regs) :
    (shiftRegs p d r).count = r.count := by unfold shiftRegs; split_ifs <;> rfl
@[simp] theorem shiftRegs_bitno (p : Params) (d : Bool) (r : Regs) :
    (shiftRegs p d r).bitno = r.bitno := by unfold shiftRegs; split_ifs <;> rfl
@[simp] theorem shiftRegs_timer (p : Params) (d : Bool) (r : Regs) :
    (shiftRegs p d r).timer = r.timer := by unfold shiftRegs; split_ifs <;> rfl
@[simp] theorem shiftRegs_cs (p : Params) (d : Bool) (r : Regs) :
    (shiftRegs p d r).cs = r.cs := by unfold shiftRegs; split_ifs <;> rfl
@[simp] theorem shiftRegs_oe (p : Params) (d : Bool) (r : Regs) :
    (shiftRegs p d r).oe = r.oe := by unfold shiftRegs; split_ifs <;> rfl

@[simp] theorem busUpdate_state (p : Params) (d : Bool) (r : Regs) :
    (busUpdate p d r).state = r.state := shiftRegs_state p d r
@[simp] theorem busUpdate_cmd (p : Params) (d : Bool) (r : Regs) :
    (busUpdate p d r).cmd = r.cmd := shiftRegs_cmd p d r
@[simp] theorem busUpdate_count (p : Params) (d : Bool) (r : Regs) :
    (busUpdate p d r).count = r.count := shiftRegs_count p d r
@[simp] theorem busUpdate_bitno (p : Params) (d : Bool) (r : Regs) :
    (busUpdate p d r).bitno = r.bitno := shiftRegs_bitno p d r
@[simp] theorem busUpdate_timer (p : Params) (d : Bool) (r : Regs) :
    (busUpdate p d r).timer = r.timer := shiftRegs_timer p d r
@[simp] theorem busUpdate_cs (p : Params) (d : Bool) (r : Regs) :
    (busUpdate p d r).cs = r.cs := shiftRegs_cs p d r
@[simp] theorem busUpdate_oe (p : Params) (d : Bool) (r : Regs) :
    (busUpdate p d r).oe = r.oe := shiftRegs_oe p d r
@[simp] theorem busUpdate_shregO (p : Params) (d : Bool) (r : Regs) :
    (busUpdate p d r).shregO = (shiftRegs p d r).shregO := rfl
@[simp] theorem busUpdate_shregI (p : Params) (d : Bool) (r : Regs) :
    (busUpdate p d r).shregI = (shiftRegs p d r).shregI := rfl
@[simp] theorem busUpdate_phase (p : Params) (d : Bool) (r : Regs) :
    (busUpdate p d r).phase = (clockGen p r).phase := rfl
@[simp] theorem busUpdate_phaseR (p : Params) (d : Bool) (r : Regs) :
    (busUpdate p d r).phaseR = (clockGen p r).phaseR := rfl
@[simp] theorem busUpdate_ctr (p : Params) (d : Bool) (r : Regs) :
    (busUpdate p d r).ctr = (clockGen p r).ctr := rfl
@[simp] theorem busUpdate_sckR (p : Params) (d : Bool) (r : Regs) :
    (busUpdate p d r).sckR = sckOf p r := rfl

/-- Outside `TRANSFER` the Clock Generator is held at rest (rule R142). -/
theorem clockGen_disabled (p : Params) (r : Regs) (h : r.state ≠ .transfer) :
    clockGen p r = { r with phase := false, phaseR := false, ctr := 0 } := by
  simp [clockGen, clkEn, h]

/-! ### The inputs of the coming ticks -/

theorem inputAt_zero (s : State) : s.inputAt 0 = s.input := by
  unfold State.inputAt State.input
  cases s.inputs <;> simp

/-- One tick on, the inputs `j` ticks from now are those that were `j + 1` ticks away. -/
theorem inputAt_of_tail (s t : State) (hi : t.inputs = s.inputs.tail) (hc : t.clock = s.clock + 1) (j : Nat) :
    t.inputAt j = s.inputAt (j + 1) := by
  unfold State.inputAt
  rw [hi, hc]
  cases s.inputs <;> simp [Nat.add_assoc, Nat.add_comm 1 j]

end Sys2Proof.Machine
end

