-- ==== Sys2Proof/Laws/Tick.lean ====
section
/-! SUPPORT. What a tick can do, runs of ticks, and a command run to a frame boundary. -/

namespace Sys2Proof.Machine

/-! ### One tick -/

/-- Rule R161, first case. -/
theorem tick_of_reset {s : State} {x : ResetInput} (h : s.input.rst = some x) : tick s = s.resetTick x := by
  simp [tick, h]

/-- Rule R161, without `rst`. -/
theorem tick_of_noReset {s : State} (h : s.input.rst = none) : tick s = s.advance (coreOut s) := by
  simp [tick, h]

/-- Rule R161, third case: the rules apply. -/
theorem tick_of_running {s : State} (h : s.input.rst = none) (hf : s.fault = none) :
    tick s = s.advance (coreStep s.params s.coreIn s.core) := by
  simp [tick, h, coreOut, hf]

/-- Rule R161, second case: a recorded fault freezes the core. -/
theorem tick_of_fault {s : State} {f : Fault} (h : s.input.rst = none) (hf : s.fault = some f) :
    tick s = s.advance { regs := s.core } := by
  simp [tick, h, coreOut, hf]

/-- Everything a tick can be. -/
theorem tick_cases (s : State) :
    (∃ x, s.input.rst = some x ∧ tick s = s.resetTick x) ∨
    (s.input.rst = none ∧ (∃ f, s.fault = some f) ∧ tick s = s.advance { regs := s.core }) ∨
    (s.input.rst = none ∧ s.fault = none ∧ tick s = s.advance (coreStep s.params s.coreIn s.core)) := by
  rcases hr : s.input.rst with _ | x
  · rcases hf : s.fault with _ | f
    · exact .inr (.inr ⟨rfl, rfl, tick_of_running hr hf⟩)
    · exact .inr (.inl ⟨rfl, ⟨f, rfl⟩, tick_of_fault hr hf⟩)
  · exact .inl ⟨x, rfl, tick_of_reset hr⟩

@[simp] theorem tick_inputs (s : State) : (tick s).inputs = s.inputs.tail := by
  rcases tick_cases s with ⟨x, -, h⟩ | ⟨-, -, h⟩ | ⟨-, -, h⟩ <;> simp [h]

@[simp] theorem tick_clock (s : State) : (tick s).clock = s.clock + 1 := by
  rcases tick_cases s with ⟨x, -, h⟩ | ⟨-, -, h⟩ | ⟨-, -, h⟩ <;> simp [h]

@[simp] theorem tick_delivered (s : State) :
    (tick s).delivered = s.delivered ++ s.rspq.take s.input.take := by
  rcases tick_cases s with ⟨x, -, h⟩ | ⟨-, -, h⟩ | ⟨-, -, h⟩ <;> simp [h]

theorem tick_params {s : State} (h : s.input.rst = none) : (tick s).params = s.params := by
  simp [tick_of_noReset h]

theorem tick_tickNo {s : State} (h : s.input.rst = none) : (tick s).tickNo = s.tickNo + 1 := by
  simp [tick_of_noReset h]

theorem tick_sync1 {s : State} (h : s.input.rst = none) : (tick s).sync1 = s.input.dinPin := by
  simp [tick_of_noReset h]

theorem tick_sync2 {s : State} (h : s.input.rst = none) : (tick s).sync2 = s.sync1 := by
  simp [tick_of_noReset h]

/-- The inputs seen from the next tick. -/
theorem tick_inputAt (s : State) (j : Nat) : (tick s).inputAt j = s.inputAt (j + 1) :=
  inputAt_of_tail s (tick s) (tick_inputs s) (tick_clock s) j

/-- `din_s` seen from the next tick (rule R126). -/
theorem tick_dinAt {s : State} (h : s.input.rst = none) (j : Nat) : (tick s).dinAt j = s.dinAt (j + 1) := by
  match j with
  | 0 => simpa [State.dinAt] using tick_sync2 h
  | 1 => simpa [State.dinAt, inputAt_zero] using tick_sync1 h
  | j + 2 => simp only [State.dinAt, tick_inputAt]

/-! ### Runs of ticks -/

@[simp] theorem ticks_zero (s : State) : ticks 0 s = s := rfl

theorem ticks_succ (k : Nat) (s : State) : ticks (k + 1) s = ticks k (tick s) := rfl

theorem ticks_add (j k : Nat) (s : State) : ticks (j + k) s = ticks k (ticks j s) := by
  induction j generalizing s with
  | zero => simp
  | succ j ih => rw [Nat.succ_add]; exact ih (tick s)

/-- The last tick of a run. -/
theorem ticks_succ' (k : Nat) (s : State) : ticks (k + 1) s = tick (ticks k s) := ticks_add k 1 s

@[simp] theorem ticks_inputAt (k : Nat) (s : State) (j : Nat) :
    (ticks k s).inputAt j = s.inputAt (k + j) := by
  induction k generalizing s with
  | zero => simp
  | succ k ih => rw [ticks_succ, ih, tick_inputAt]; congr 1; omega

theorem ticks_input (k : Nat) (s : State) : (ticks k s).input = s.inputAt k := by
  rw [← inputAt_zero, ticks_inputAt]; rfl

theorem ticks_clock (k : Nat) (s : State) : (ticks k s).clock = s.clock + k := by
  induction k generalizing s with
  | zero => rfl
  | succ k ih => rw [ticks_succ, ih, tick_clock]; omega

theorem ticks_inputs (k : Nat) (s : State) : (ticks k s).inputs = s.inputs.drop k := by
  induction k generalizing s with
  | zero => rfl
  | succ k ih => rw [ticks_succ, ih, tick_inputs]; simp

/-! ### A run to a frame boundary -/

/-- What a run to a boundary can be: at most `budget` ticks, at least one of them if it has any. -/
theorem runToBoundary_is_ticks (budget : Nat) (s : State) :
    ∃ k, k ≤ budget ∧ (0 < budget → 0 < k) ∧ runToBoundary budget s = ticks k s := by
  induction budget generalizing s with
  | zero => exact ⟨0, le_rfl, id, rfl⟩
  | succ b ih =>
    rw [runToBoundary]
    by_cases h : (tick s).atBoundary
    · exact ⟨1, by omega, by omega, by simp [h, ticks_succ]⟩
    · obtain ⟨k, hk, -, he⟩ := ih (tick s)
      exact ⟨k + 1, by omega, by omega, by simp [h, he, ticks_succ]⟩

/-- A run to a boundary is the run to the first boundary, when that is within the budget. -/
theorem runToBoundary_eq_ticks {budget k : Nat} {s : State} (hk : 0 < k) (hb : k ≤ budget)
    (hmid : ∀ j, 0 < j → j < k → (ticks j s).atBoundary = false) (hend : (ticks k s).atBoundary = true) :
    runToBoundary budget s = ticks k s := by
  induction budget generalizing s k with
  | zero => omega
  | succ b ih =>
    rw [runToBoundary]
    obtain rfl | hk1 := Nat.eq_or_lt_of_le (Nat.succ_le_of_lt hk)
    · simp only [ticks_succ, ticks_zero] at hend ⊢; simp [hend]
    · obtain ⟨k, rfl⟩ : ∃ m, k = m + 1 := ⟨k - 1, by omega⟩
      have h1 : (tick s).atBoundary = false := by simpa [ticks_succ] using hmid 1 (by omega) (by omega)
      simp only [h1, Bool.false_eq_true, if_false]
      rw [ih (k := k) (by omega) (by omega)
        (fun j h0 hj => by simpa [ticks_succ] using hmid (j + 1) (by omega) (by omega))
        (by simpa [ticks_succ] using hend), ticks_succ]

/-! ### `State.guarded` and `runCommand` -/

theorem guarded_next_iff {s t u : State} :
    s.guarded t = .next u ↔ s.params.Valid ∧ (s.fault = none ∨ s.inReset = true) ∧ t = u := by
  unfold State.guarded
  by_cases hv : s.params.Valid
  · rw [if_pos hv]
    rcases s.fault with _ | f <;> cases s.inReset <;> simp <;> exact fun _ => hv
  · rw [if_neg hv]
    exact ⟨(nomatch ·), fun h => absurd h.1 hv⟩

theorem guarded_of_running {s t : State} (hv : s.params.Valid) (hf : s.fault = none) :
    s.guarded t = .next t := guarded_next_iff.mpr ⟨hv, .inl hf, rfl⟩

/-- What a command's run can be when it answers a next state. -/
theorem runCommand_next {bs : List Byte} {n : Nat} {s t : State} (hn : 0 < n)
    (h : runCommand bs n s = .next t) :
    s.params.Valid ∧ (s.fault = none ∨ s.inReset = true) ∧
      ∃ k, 0 < k ∧ k ≤ n + s.inputs.length ∧ t = ticks k (s.deliver bs) := by
  obtain ⟨hv, hf, rfl⟩ := guarded_next_iff.mp h
  obtain ⟨k, hk, hpos, he⟩ := runToBoundary_is_ticks (n + s.inputs.length) (s.deliver bs)
  exact ⟨hv, hf, k, hpos (by omega), hk, he⟩

/-- A command completes in `k` ticks when the first boundary after its start is `k` ticks away. -/
theorem runCommand_eq_ticks {bs : List Byte} {n k : Nat} {s : State} (hv : s.params.Valid)
    (hf : s.fault = none) (hk : 0 < k) (hb : k ≤ n + s.inputs.length)
    (hmid : ∀ j, 0 < j → j < k → (ticks j (s.deliver bs)).atBoundary = false)
    (hend : (ticks k (s.deliver bs)).atBoundary = true) :
    runCommand bs n s = .next (ticks k (s.deliver bs)) := by
  rw [runCommand, guarded_of_running hv hf, runToBoundary_eq_ticks hk hb hmid hend]

/-- Every command's meaning is a run of its own frame with a positive budget. -/
theorem exec_eq_runCommand (i : Instr) (s : State) :
    exec i s = runCommand (encode i) (ticksNeeded s.params i) s := by
  cases i <;> rfl

theorem ticksNeeded_pos (p : Params) (i : Instr) : 0 < ticksNeeded p i := by
  cases i <;> simp [ticksNeeded, registerTicks, syncTicks, shiftTicks, delayTicks]

end Sys2Proof.Machine
end

