-- ==== Sys2Proof/Laws/Interpreter.lean ====
section
/-! SUPPORT. The step of the core, state by state (rules R163 to R173): each lemma says what the rule answers,
so that no proof unfolds the state machine. -/

namespace Sys2Proof.Machine

@[simp] theorem coreStep_regs (p : Params) (x : CoreIn) (r : Regs) :
    (coreStep p x r).regs = (stateRule p x r (busUpdate p x.dinS r)).regs := rfl
@[simp] theorem coreStep_pop (p : Params) (x : CoreIn) (r : Regs) :
    (coreStep p x r).pop = (stateRule p x r (busUpdate p x.dinS r)).pop := rfl
@[simp] theorem coreStep_push (p : Params) (x : CoreIn) (r : Regs) :
    (coreStep p x r).push = (stateRule p x r (busUpdate p x.dinS r)).push := rfl
@[simp] theorem coreStep_fault (p : Params) (x : CoreIn) (r : Regs) :
    (coreStep p x r).fault = (stateRule p x r (busUpdate p x.dinS r)).fault := rfl
@[simp] theorem coreStep_events (p : Params) (x : CoreIn) (r : Regs) :
    (coreStep p x r).events =
      clockEvents p x.dinS r ++ (stateRule p x r (busUpdate p x.dinS r)).events := rfl

theorem stateRule_receiveCommand {p : Params} {x : CoreIn} {r b : Regs} (h : r.state = .receiveCommand) :
    stateRule p x r b = onReceiveCommand x b := by simp [stateRule, h]
theorem stateRule_sync {p : Params} {x : CoreIn} {r b : Regs} (h : r.state = .sync) :
    stateRule p x r b = onSync x b := by simp [stateRule, h]
theorem stateRule_receiveCount1 {p : Params} {x : CoreIn} {r b : Regs} (h : r.state = .receiveCount1) :
    stateRule p x r b = onReceiveCount1 x r b := by simp [stateRule, h]
theorem stateRule_receiveCount2 {p : Params} {x : CoreIn} {r b : Regs} (h : r.state = .receiveCount2) :
    stateRule p x r b = onReceiveCount2 x r b := by simp [stateRule, h]
theorem stateRule_delay {p : Params} {x : CoreIn} {r b : Regs} (h : r.state = .delay) :
    stateRule p x r b = onDelay p r b := by simp [stateRule, h]
theorem stateRule_countCheck {p : Params} {x : CoreIn} {r b : Regs} (h : r.state = .countCheck) :
    stateRule p x r b = onCountCheck r b := by simp [stateRule, h]
theorem stateRule_receiveData {p : Params} {x : CoreIn} {r b : Regs} (h : r.state = .receiveData) :
    stateRule p x r b = onReceiveData p x r b := by simp [stateRule, h]
theorem stateRule_transfer {p : Params} {x : CoreIn} {r b : Regs} (h : r.state = .transfer) :
    stateRule p x r b = onTransfer r b := by simp [stateRule, h]
theorem stateRule_sendData {p : Params} {x : CoreIn} {r b : Regs} (h : r.state = .sendData) :
    stateRule p x r b = onSendData x r b := by simp [stateRule, h]

/-! ### What an opcode byte can do (rule R163) -/

/-- Everything a popped opcode can do. -/
theorem acceptOpcode_cases (byte : Byte) (b : Regs) :
    ((lookupOpcode byte).map OpcodeRow.op = some .select ∧
      acceptOpcode byte b =
        { regs := { b with cmd := byte, cs := operandOf byte }, pop := true, events := [.cs (operandOf byte)] }) ∨
    ((lookupOpcode byte).map OpcodeRow.op = some .oe ∧
      acceptOpcode byte b =
        { regs := { b with cmd := byte, oe := operandOf byte }, pop := true, events := [.oe (operandOf byte)] }) ∨
    ((lookupOpcode byte).map OpcodeRow.op = some .sync ∧
      acceptOpcode byte b = { regs := { b with cmd := byte, state := .sync }, pop := true }) ∨
    ((∃ op ∈ ([.shiftNone, .shiftOut, .shiftIn, .shiftIo, .delay] : List Opcode),
        (lookupOpcode byte).map OpcodeRow.op = some op) ∧
      acceptOpcode byte b = { regs := { b with cmd := byte, state := .receiveCount1 }, pop := true }) ∨
    ((lookupOpcode byte).map OpcodeRow.op = none ∧
      acceptOpcode byte b = raiseFault (.malformedOpcode byte) { b with cmd := byte } true) := by
  unfold acceptOpcode
  rcases h : (lookupOpcode byte).map OpcodeRow.op with _ | op
  · simp
  · cases op <;> simp

/-! ### The opcodes, byte by byte (rule R92) -/

theorem lookupOpcode_select (v : Bool) :
    (lookupOpcode (0x00 ||| operandBit v)).map OpcodeRow.op = some .select := by cases v <;> rfl
theorem lookupOpcode_oe (v : Bool) :
    (lookupOpcode (0x40 ||| operandBit v)).map OpcodeRow.op = some .oe := by cases v <;> rfl
theorem operandOf_select (v : Bool) : operandOf (0x00 ||| operandBit v) = v := by cases v <;> rfl
theorem operandOf_oe (v : Bool) : operandOf (0x40 ||| operandBit v) = v := by cases v <;> rfl

/-! ### The count, half by half (rules R94, R165, R166) -/

theorem extract_low_append (a b : Byte) : (a ++ b : BitVec (8 + 8)).extractLsb' 0 8 = b := by
  apply BitVec.eq_of_getLsbD_eq
  intro i hi
  rw [BitVec.getLsbD_extractLsb', BitVec.getLsbD_append]
  simp [hi]

theorem extract_high_append (a b : Byte) : (a ++ b : BitVec (8 + 8)).extractLsb' 8 8 = a := by
  apply BitVec.eq_of_getLsbD_eq
  intro i hi
  rw [BitVec.getLsbD_extractLsb', BitVec.getLsbD_append]
  simp [hi]

theorem setCount_both (c : Count) (lo hi : Byte) : setCountHi (setCountLo c lo) hi = countOf lo hi :=
  congrArg (fun z : Byte => (hi ++ z : BitVec (8 + 8))) (extract_low_append _ lo)

theorem countLo_countOf (lo hi : Byte) : countLo (countOf lo hi) = lo := extract_low_append hi lo

theorem countHi_countOf (lo hi : Byte) : countHi (countOf lo hi) = hi := extract_high_append hi lo

theorem countOf_halves (n : Count) : countOf (countLo n) (countHi n) = n := by
  unfold countOf countLo countHi
  apply BitVec.eq_of_getLsbD_eq
  intro i hi
  simp only [BitVec.getLsbD_append, BitVec.getLsbD_extractLsb']
  split_ifs with h
  · simp [h]
  · have : 8 + (i - 8) = i := by omega
    simp only [this]
    have h2 : i - 8 < 8 := by omega
    simp [h2]

end Sys2Proof.Machine
end

