-- ==== Sys2Proof/Laws/Run.lean ====
section
/-! SUPPORT. Runs of ticks without reset and without fault, put end to end: what they pop, push and show on the
bus adds up. -/

namespace Sys2Proof.Machine

/-- `t` is `s` after `k` ticks without reset and without fault, which popped `pops` bytes that were waiting,
pushed `rsp` and showed `events`. The registers of `t` are left to the lemma that uses it. -/
structure Ran (s t : State) (k pops : Nat) (rsp : List Byte) (events : List (Nat × BusEvent)) : Prop where
  isTicks   : t = ticks k s
  params    : t.params = s.params
  fault     : t.fault = none
  enough    : pops ≤ s.cmdq.length
  cmdq      : t.cmdq = s.cmdq.drop pops ++ s.arrivals k
  responses : t.delivered ++ t.rspq = s.delivered ++ s.rspq ++ rsp
  popped    : t.popped = s.popped + pops
  tickNo    : t.tickNo = s.tickNo + k
  trace     : t.trace = s.trace ++ events
  din       : ∀ j, t.dinAt j = s.dinAt (k + j)

theorem arrivals_add (s : State) (j k : Nat) :
    s.arrivals (j + k) = s.arrivals j ++ (ticks j s).arrivals k := by
  induction k with
  | zero => simp [State.arrivals]
  | succ k ih =>
    show s.arrivals (j + k) ++ (s.inputAt (j + k)).arrive.toList = _
    rw [ih, List.append_assoc, State.arrivals, ticks_inputAt]

/-- No ticks. -/
theorem Ran.refl {s : State} (hf : s.fault = none) : Ran s s 0 0 [] [] where
  isTicks   := rfl
  params    := rfl
  fault     := hf
  enough    := Nat.zero_le _
  cmdq      := by simp [State.arrivals]
  responses := by simp
  popped    := rfl
  tickNo    := rfl
  trace     := by simp
  din       := by simp

/-- Two runs put end to end. -/
theorem Ran.trans {s t u : State} {j k a b : Nat} {r₁ r₂ : List Byte} {e₁ e₂ : List (Nat × BusEvent)}
    (h : Ran s t j a r₁ e₁) (g : Ran t u k b r₂ e₂) (hab : a + b ≤ s.cmdq.length) :
    Ran s u (j + k) (a + b) (r₁ ++ r₂) (e₁ ++ e₂) where
  isTicks   := by rw [g.isTicks, h.isTicks, ticks_add]
  params    := g.params.trans h.params
  fault     := g.fault
  enough    := hab
  cmdq      := by
    have : b - (s.cmdq.length - a) = 0 := by omega
    rw [g.cmdq, h.cmdq, arrivals_add, ← h.isTicks, ← List.append_assoc]
    congr 1
    rw [List.drop_append, List.drop_drop]
    simp [this]
  responses := by rw [g.responses, h.responses, List.append_assoc]
  popped    := by rw [g.popped, h.popped]; omega
  tickNo    := by rw [g.tickNo, h.tickNo]; omega
  trace     := by rw [g.trace, h.trace, List.append_assoc]
  din       := fun i => by rw [g.din, h.din]; congr 1; omega

/-- Two runs put end to end, the second popping nothing. -/
theorem Ran.trans_quiet {s t u : State} {j k a : Nat} {r₁ r₂ : List Byte} {e₁ e₂ : List (Nat × BusEvent)}
    (h : Ran s t j a r₁ e₁) (g : Ran t u k 0 r₂ e₂) : Ran s u (j + k) a (r₁ ++ r₂) (e₁ ++ e₂) :=
  h.trans g h.enough

/-- One tick in which the core answers `o`. -/
theorem Ran.one {s : State} {o : CoreOut} {pops : Nat} {rsp : List Byte} {events : List (Nat × BusEvent)}
    (hr : (s.inputAt 0).rst = none) (hf : s.fault = none)
    (ho : coreStep s.params s.coreIn s.core = o) (hof : o.fault = none)
    (hp : pops = if o.pop then 1 else 0) (hpv : o.pop = true → s.cmdq ≠ [])
    (hrsp : rsp = o.push.toList) (hev : events = o.events.map fun e => (s.tickNo, e)) :
    Ran s (tick s) 1 pops rsp events ∧ (tick s).core = o.regs := by
  rw [inputAt_zero] at hr
  have ht := tick_of_running hr hf
  rw [ho] at ht
  have hlen : o.pop = true → 1 ≤ s.cmdq.length := fun h => List.length_pos_iff.mpr (hpv h)
  refine ⟨?_, by rw [ht, advance_core]⟩
  exact {
    isTicks   := rfl
    params    := tick_params hr
    fault     := by simp [ht, hf, hof]
    enough    := by subst hp; split_ifs with h; exacts [hlen h, Nat.zero_le _]
    cmdq      := by
      simp only [ht, advance_cmdq, nextCmdq, State.arrivals, inputAt_zero, List.nil_append, hp]
      split_ifs <;> rfl
    responses := by
      simp only [ht, advance_delivered, advance_rspq, nextRspq, hrsp]
      rw [← List.append_assoc, List.append_assoc s.delivered, List.take_append_drop]
    popped    := by
      simp only [ht, advance_popped, hp]
      rcases hpop : o.pop with _ | _
      · simp
      · have := hpv hpop
        simp [State.cmdValid, this]
    tickNo    := tick_tickNo hr
    trace     := by simp [ht, hev]
    din       := fun j => by rw [tick_dinAt hr, Nat.add_comm] }

/-- What a finished run says of a command whose frame had been delivered. -/
theorem Ran.commandDone {s t : State} {bs : List Byte} {k : Nat} {rsp : List Byte}
    {events : List (Nat × BusEvent)} (h : Ran (s.deliver bs) t k bs.length rsp events) :
    CommandDone s t k bs.length rsp events := by
  exact ⟨h.params, h.fault, by simpa using h.cmdq, h.responses, h.popped, h.tickNo, h.trace⟩

end Sys2Proof.Machine
end

