-- ==== Sys2Proof/Laws/Rest.lean ====
section
/-! SUPPORT. Outside `TRANSFER`, with the bus at rest (rule R41): the shared part of a tick writes nothing but
`ctr <- 0`, there is no bus event of the clock, and a tick is the state's own rule and nothing else. -/

namespace Sys2Proof.Machine

/-- The invariant of the registers at rest, read off `State.Inv`. -/
theorem Regs.Inv.rest {p : Params} {r : Regs} (h : r.Inv p) (hs : r.state ≠ .transfer) : r.BusAtRest p :=
  h.2.2.2.1 hs

theorem Regs.Inv.ctr_zero {p : Params} {r : Regs} (h : r.Inv p) (hs : r.state ≠ .transfer)
    (hs' : r.state ≠ .sendData) : r.ctr = 0 :=
  h.2.2.2.2.1 hs hs'

/-- At rest the pin shows the idle level. -/
theorem Regs.BusAtRest.sck {p : Params} {r : Regs} (h : r.BusAtRest p) : sckOf p r = p.sckIdle := by
  simp [sckOf, h.1]

/-- At rest there is no `setup`. -/
theorem Regs.BusAtRest.setup {p : Params} {r : Regs} (h : r.BusAtRest p) : setupEvent p r = false := by
  unfold setupEvent sckFall sckRise
  rw [h.sck, h.2.2.1]
  cases p.sckEdge <;> cases p.sckIdle <;> rfl

/-- At rest there is no `latch`. -/
theorem Regs.BusAtRest.latch {p : Params} {r : Regs} (h : r.BusAtRest p) : latchEvent p r = false := by
  unfold latchEvent sckFall sckRise
  rw [h.sck, h.2.2.1]
  cases p.sckEdge <;> cases p.sckIdle <;> rfl

/-- At rest the clock shows no event. -/
theorem Regs.BusAtRest.clockEvents {p : Params} {r : Regs} (h : r.BusAtRest p) (d : Bool) :
    clockEvents p d r = [] := by
  simp [Machine.clockEvents, edgeEvents, shiftEvents, h.sck, h.2.2.1, h.setup, h.latch]

/-- At rest the shared part of a tick writes `ctr <- 0` and nothing else. -/
theorem Regs.BusAtRest.busUpdate {p : Params} {r : Regs} (h : r.BusAtRest p) (hs : r.state ≠ .transfer)
    (d : Bool) : busUpdate p d r = { r with ctr := 0 } := by
  obtain ⟨h1, h2, h3, h4⟩ := id h
  have hsh : shiftRegs p d r = r := by simp [shiftRegs, h.setup, h.latch]
  unfold Machine.busUpdate
  rw [hsh, clockGen_disabled p r hs, h.sck]
  cases r
  simp_all

/-- The step of the core at rest is the rule of its state. -/
theorem coreStep_atRest {p : Params} {r : Regs} (h : r.BusAtRest p) (hs : r.state ≠ .transfer) (x : CoreIn) :
    coreStep p x r = stateRule p x r { r with ctr := 0 } := by
  unfold coreStep
  rw [h.busUpdate hs, h.clockEvents]
  simp

/-- A running tick outside `TRANSFER` of a well-formed machine. -/
theorem tick_atRest {s : State} (hv : s.params.Valid) (hi : s.Inv) (hf : s.fault = none)
    (hr : s.input.rst = none) (hs : s.core.state ≠ .transfer) :
    tick s = s.advance (stateRule s.params s.coreIn s.core { s.core with ctr := 0 }) := by
  rw [tick_of_running hr hf, coreStep_atRest ((hi hv).rest hs) hs]

/-- The same where `ctr` is 0 already. -/
theorem tick_atRest' {s : State} (hv : s.params.Valid) (hi : s.Inv) (hf : s.fault = none)
    (hr : s.input.rst = none) (hs : s.core.state ≠ .transfer) (hs' : s.core.state ≠ .sendData) :
    tick s = s.advance (stateRule s.params s.coreIn s.core s.core) := by
  rw [tick_atRest hv hi hf hr hs, ← (hi hv).ctr_zero hs hs']

/-- The response stream and what has been delivered, together, gain what the core pushes. -/
theorem advance_responses (s : State) (o : CoreOut) :
    (s.advance o).delivered ++ (s.advance o).rspq = s.delivered ++ s.rspq ++ o.push.toList := by
  simp only [advance_delivered, advance_rspq, nextRspq]
  rw [← List.append_assoc, List.append_assoc s.delivered, List.take_append_drop]

end Sys2Proof.Machine
end

