-- ==== Sys2Proof/Laws/Transfer.lean ====
section
/-! SUPPORT. Inside `TRANSFER` (rules R143, R144, R172, R177, R178): the ticks between two strobes, and the tick
of a strobe. -/

namespace Sys2Proof.Machine

/-- The tick in the middle of a half-period: no strobe, the counter not yet at 0. -/
theorem coreStep_coast {p : Params} {x : CoreIn} {r : Regs} (hs : r.state = .transfer)
    (hp : r.phaseR = r.phase) (hk : r.sckR = sckOf p r) (hc : r.ctr ≠ 0) :
    coreStep p x r = { regs := { r with ctr := r.ctr - 1 } } := by
  have hset : setupEvent p r = false := by unfold setupEvent sckFall sckRise; rw [hk]; cases p.sckEdge <;> simp
  have hlat : latchEvent p r = false := by unfold latchEvent sckFall sckRise; rw [hk]; cases p.sckEdge <;> simp
  have hl : stbLead r = false := by simp [stbLead, hp]
  have ht : stbTrail r = false := by simp [stbTrail, hp]
  have hb : busUpdate p x.dinS r = { r with ctr := r.ctr - 1 } := by
    simp only [busUpdate, shiftRegs, hset, hlat, clockGen, clkEn, hs, hc, ← hk]
    simp [hp, hs]
  have he : clockEvents p x.dinS r = [] := by
    simp [clockEvents, edgeEvents, shiftEvents, hset, hlat, hk]
  unfold coreStep
  rw [stateRule_transfer hs, hb, he]
  simp [onTransfer, hl, ht]

/-- The tick that ends a half-period: no strobe, the counter at 0, the clock toggles. -/
theorem coreStep_toggle {p : Params} {x : CoreIn} {r : Regs} (hs : r.state = .transfer)
    (hp : r.phaseR = r.phase) (hk : r.sckR = sckOf p r) (hc : r.ctr = 0) :
    coreStep p x r = { regs := { r with ctr := p.halfPeriodCyc - 1, phase := !r.phase } } := by
  have hset : setupEvent p r = false := by unfold setupEvent sckFall sckRise; rw [hk]; cases p.sckEdge <;> simp
  have hlat : latchEvent p r = false := by unfold latchEvent sckFall sckRise; rw [hk]; cases p.sckEdge <;> simp
  have hl : stbLead r = false := by simp [stbLead, hp]
  have ht : stbTrail r = false := by simp [stbTrail, hp]
  have hb : busUpdate p x.dinS r = { r with ctr := p.halfPeriodCyc - 1, phase := !r.phase } := by
    simp only [busUpdate, shiftRegs, hset, hlat, clockGen, clkEn, hs, hc, ← hk]
    simp [hp, hs]
  have he : clockEvents p x.dinS r = [] := by
    simp [clockEvents, edgeEvents, shiftEvents, hset, hlat, hk]
  unfold coreStep
  rw [stateRule_transfer hs, hb, he]
  simp [onTransfer, hl, ht]

/-- Which event a lead edge carries (rule R128). -/
theorem events_on_lead {p : Params} {r : Regs} (hph : r.phase = true) (hk : r.sckR = p.sckIdle) :
    setupEvent p r = !latchOnLead p ∧ latchEvent p r = latchOnLead p := by
  unfold setupEvent latchEvent sckFall sckRise sckOf latchOnLead
  rw [hph, hk]
  cases p.sckEdge <;> cases p.sckIdle <;> decide

/-- Which event a trail edge carries (rule R128). -/
theorem events_on_trail {p : Params} {r : Regs} (hph : r.phase = false) (hk : r.sckR = !p.sckIdle) :
    setupEvent p r = latchOnLead p ∧ latchEvent p r = !latchOnLead p := by
  unfold setupEvent latchEvent sckFall sckRise sckOf latchOnLead
  rw [hph, hk]
  cases p.sckEdge <;> cases p.sckIdle <;> decide

/-- The registers after the event of a lead edge. -/
def afterLead (p : Params) (d : Bool) (r : Regs) : Regs :=
  if latchOnLead p then { r with shregI := shiftInLeft r.shregI d }
  else { r with shregO := shiftOutLeft r.shregO }

/-- The registers after the event of a trail edge. -/
def afterTrail (p : Params) (d : Bool) (r : Regs) : Regs :=
  if latchOnLead p then { r with shregO := shiftOutLeft r.shregO }
  else { r with shregI := shiftInLeft r.shregI d }

/-- The tick of a lead strobe. -/
theorem coreStep_lead {p : Params} {x : CoreIn} {r : Regs} (hs : r.state = .transfer)
    (hph : r.phase = true) (hpr : r.phaseR = false) (hk : r.sckR = p.sckIdle) (hc : r.ctr ≠ 0) :
    coreStep p x r =
      { regs := { afterLead p x.dinS r with
                    bitno := r.bitno - 1, phaseR := true, ctr := r.ctr - 1, sckR := !p.sckIdle },
        events := [.lead (doutOf r), if latchOnLead p then .latch x.dinS else .setup] } := by
  obtain ⟨hset, hlat⟩ := events_on_lead hph hk
  have hsck : sckOf p r = !p.sckIdle := by simp [sckOf, hph]
  have hl : stbLead r = true := by simp [stbLead, hph, hpr]
  have hb : busUpdate p x.dinS r =
      { afterLead p x.dinS r with phaseR := true, ctr := r.ctr - 1, sckR := !p.sckIdle } := by
    simp only [busUpdate, shiftRegs, hset, hlat, clockGen, clkEn, hs, hc, hsck, afterLead]
    cases latchOnLead p <;> simp [hph]
  have he : clockEvents p x.dinS r =
      [.lead (doutOf r), if latchOnLead p then .latch x.dinS else .setup] := by
    simp only [clockEvents, edgeEvents, shiftEvents, hset, hlat, hsck, hk]
    cases latchOnLead p <;> cases p.sckIdle <;> simp
  unfold coreStep
  rw [stateRule_transfer hs, hb, he]
  simp [onTransfer, hl]

/-- The registers after the tick of a trail strobe: the state is left when no period is left to start. -/
theorem coreStep_trail {p : Params} {x : CoreIn} {r : Regs} (hs : r.state = .transfer)
    (hph : r.phase = false) (hpr : r.phaseR = true) (hk : r.sckR = !p.sckIdle) (hc : r.ctr ≠ 0) :
    coreStep p x r =
      { regs := { afterTrail p x.dinS r with
                    state := if r.bitno = 0 then .sendData else .transfer,
                    phaseR := false, ctr := r.ctr - 1, sckR := p.sckIdle },
        events := [.trail (doutOf r), if latchOnLead p then .setup else .latch x.dinS] } := by
  obtain ⟨hset, hlat⟩ := events_on_trail hph hk
  have hsck : sckOf p r = p.sckIdle := by simp [sckOf, hph]
  have hl : stbLead r = false := by simp [stbLead, hph]
  have ht : stbTrail r = true := by simp [stbTrail, hph, hpr]
  have hb : busUpdate p x.dinS r =
      { afterTrail p x.dinS r with phaseR := false, ctr := r.ctr - 1, sckR := p.sckIdle } := by
    simp only [busUpdate, shiftRegs, hset, hlat, clockGen, clkEn, hs, hc, hsck, afterTrail]
    cases latchOnLead p <;> simp [hph]
  have he : clockEvents p x.dinS r =
      [.trail (doutOf r), if latchOnLead p then .setup else .latch x.dinS] := by
    simp only [clockEvents, edgeEvents, shiftEvents, hset, hlat, hsck, hk]
    cases latchOnLead p <;> cases p.sckIdle <;> simp
  have hst : (afterTrail p x.dinS r).state = .transfer := by
    unfold afterTrail; split_ifs <;> exact hs
  unfold coreStep
  rw [stateRule_transfer hs, hb, he]
  by_cases hz : r.bitno = 0#4 <;> simp [onTransfer, hl, ht, hz, hst]

/-- From a tick without a strobe to the next strobe: the counter runs out and the clock toggles. -/
theorem ran_to_strobe {s : State} {c : Nat} (hn : s.NoReset (c + 1)) (hf : s.fault = none)
    (hs : s.core.state = .transfer) (hp : s.core.phaseR = s.core.phase)
    (hk : s.core.sckR = sckOf s.params s.core) (hc : s.core.ctr = c) :
    ∃ t, Ran s t (c + 1) 0 [] [] ∧
      t.core = { s.core with ctr := s.params.halfPeriodCyc - 1, phase := !s.core.phase } ∧
      ∀ j, j ≤ c + 1 → (ticks j s).core.state = .transfer := by
  induction c generalizing s with
  | zero =>
    obtain ⟨h, hcore⟩ := Ran.one (hn 0 (by omega)) hf (coreStep_toggle (x := s.coreIn) hs hp hk hc)
      rfl rfl (by simp) rfl rfl
    refine ⟨_, h, hcore, fun j hj => ?_⟩
    obtain rfl | rfl : j = 0 ∨ j = 1 := by omega
    · exact hs
    · rw [ticks_succ, ticks_zero, hcore]; exact hs
  | succ c ih =>
    obtain ⟨h, hcore⟩ := Ran.one (hn 0 (by omega)) hf
      (coreStep_coast (x := s.coreIn) hs hp hk (by omega)) rfl rfl (by simp) rfl rfl
    obtain ⟨t, ht, htc, hall⟩ := ih (s := tick s)
      (fun j hj => by rw [tick_inputAt]; exact hn (j + 1) (by omega)) h.fault
      (by rw [hcore]; exact hs) (by rw [hcore]; exact hp)
      (by rw [hcore, h.params]; exact hk) (by rw [hcore]; simp [hc])
    refine ⟨t, ?_, ?_, fun j hj => ?_⟩
    · have := h.trans_quiet ht
      rwa [Nat.add_comm 1 (c + 1)] at this
    · rw [htc, hcore, h.params]
    · cases j with
      | zero => exact hs
      | succ j => rw [ticks_succ]; exact hall j (by omega)

end Sys2Proof.Machine
end

