-- ==== Sys2Proof/Laws/Frame.lean ====
section
/-! SUPPORT. What one step of the core can write in each register, whatever the state: the frame of the tick. -/

namespace Sys2Proof.Machine

/-- Outside `RECEIVE_COMMAND` the core writes none of `cs`, `oe` and `cmd`, and records no malformed opcode. -/
theorem coreStep_keeps {p : Params} {x : CoreIn} {r : Regs} (h : r.state ≠ .receiveCommand) :
    (coreStep p x r).regs.cs = r.cs ∧ (coreStep p x r).regs.oe = r.oe ∧
      (coreStep p x r).regs.cmd = r.cmd := by
  simp only [coreStep_regs]
  rcases hs : r.state with _ | _ | _ | _ | _ | _ | _ | _ | _ <;> simp only [stateRule, hs]
  · exact absurd hs h
  · unfold onSync; split_ifs <;> simp
  · unfold onReceiveCount1; split_ifs <;> simp
  · unfold onReceiveCount2; split_ifs <;> simp
  · unfold onDelay; split_ifs <;> simp
  · simp [onCountCheck]
  · unfold onReceiveData
    cases p.underrun <;> split_ifs <;> simp [startByte, raiseFault]
  · unfold onTransfer; split_ifs <;> simp
  · unfold onSendData; split_ifs <;> simp

/-- `timer` is written in `DELAY` only. -/
theorem coreStep_timer {p : Params} {x : CoreIn} {r : Regs} (h : r.state ≠ .delay) :
    (coreStep p x r).regs.timer = r.timer := by
  simp only [coreStep_regs]
  rcases hs : r.state with _ | _ | _ | _ | _ | _ | _ | _ | _ <;> simp only [stateRule, hs]
  · unfold onReceiveCommand
    split_ifs
    · rcases acceptOpcode_cases x.cmdData (busUpdate p x.dinS r) with g | g | g | g | g <;>
        simp [g.2, raiseFault]
    · simp
  · unfold onSync; split_ifs <;> simp
  · unfold onReceiveCount1; split_ifs <;> simp
  · unfold onReceiveCount2; split_ifs <;> simp
  · exact absurd hs h
  · simp [onCountCheck]
  · unfold onReceiveData
    cases p.underrun <;> split_ifs <;> simp [startByte, raiseFault]
  · unfold onTransfer; split_ifs <;> simp
  · unfold onSendData; split_ifs <;> simp

/-- Everything a step of the core in `RECEIVE_COMMAND` can write (rule R163). -/
theorem coreStep_receiveCommand_cases {p : Params} {x : CoreIn} {r : Regs} (h : r.state = .receiveCommand) :
    (x.cmdValid = false ∧ (coreStep p x r).regs = busUpdate p x.dinS r ∧ (coreStep p x r).fault = none ∧
      (coreStep p x r).pop = false) ∨
    (x.cmdValid = true ∧ (coreStep p x r).pop = true ∧ (coreStep p x r).push = none ∧
      (((lookupOpcode x.cmdData).map OpcodeRow.op = some .select ∧ (coreStep p x r).fault = none ∧
          (coreStep p x r).regs =
            { busUpdate p x.dinS r with cmd := x.cmdData, cs := operandOf x.cmdData }) ∨
       ((lookupOpcode x.cmdData).map OpcodeRow.op = some .oe ∧ (coreStep p x r).fault = none ∧
          (coreStep p x r).regs =
            { busUpdate p x.dinS r with cmd := x.cmdData, oe := operandOf x.cmdData }) ∨
       ((lookupOpcode x.cmdData).map OpcodeRow.op = some .sync ∧ (coreStep p x r).fault = none ∧
          (coreStep p x r).regs = { busUpdate p x.dinS r with cmd := x.cmdData, state := .sync }) ∨
       ((∃ op ∈ ([.shiftNone, .shiftOut, .shiftIn, .shiftIo, .delay] : List Opcode),
          (lookupOpcode x.cmdData).map OpcodeRow.op = some op) ∧ (coreStep p x r).fault = none ∧
          (coreStep p x r).regs = { busUpdate p x.dinS r with cmd := x.cmdData, state := .receiveCount1 }) ∨
       ((lookupOpcode x.cmdData).map OpcodeRow.op = none ∧
          (coreStep p x r).fault = some (.malformedOpcode x.cmdData) ∧
          (coreStep p x r).regs = { busUpdate p x.dinS r with cmd := x.cmdData }))) := by
  simp only [coreStep_regs, coreStep_fault, coreStep_pop, coreStep_push, stateRule_receiveCommand h]
  unfold onReceiveCommand
  rcases x.cmdValid
  · exact .inl ⟨rfl, rfl, rfl, rfl⟩
  · refine .inr ⟨rfl, ?_⟩
    rcases acceptOpcode_cases x.cmdData (busUpdate p x.dinS r) with g | g | g | g | g
    · simp [g.1, g.2]
    · simp [g.1, g.2]
    · simp [g.1, g.2]
    · obtain ⟨⟨op, hm, hop⟩, g2⟩ := g
      rw [hop, g2]
      refine ⟨rfl, rfl, .inr (.inr (.inr (.inl ⟨⟨op, hm, rfl⟩, rfl, rfl⟩)))⟩
    · simp [g.1, g.2, raiseFault]

/-- A property of the machine that every tick without reset keeps, a run of such ticks keeps. -/
theorem ticks_keep {P : State → Prop} (hP : ∀ s, s.input.rst = none → P s → P (tick s)) {k : Nat} {s : State}
    (hn : s.NoReset k) (h : P s) : P (ticks k s) := by
  induction k generalizing s with
  | zero => exact h
  | succ k ih =>
    refine ih (s := tick s) (fun j hj => ?_) (hP s ?_ h)
    · rw [tick_inputAt]; exact hn (j + 1) (by omega)
    · rw [← inputAt_zero]; exact hn 0 (by omega)

/-- A property that holds after the first tick of a run to a boundary, and that every tick away from a boundary
keeps, holds at its end. -/
theorem runToBoundary_keeps {P : State → Prop}
    (hP : ∀ s, s.input.rst = none → s.atBoundary = false → P s → P (tick s)) {budget : Nat} {s : State}
    (hb : 0 < budget) (hn : ∀ j, (s.inputAt j).rst = none) (h : P (tick s)) :
    P (runToBoundary budget s) := by
  induction budget generalizing s with
  | zero => omega
  | succ b ih =>
    rw [runToBoundary]
    by_cases ha : (tick s).atBoundary
    · simpa [ha] using h
    · simp only [ha]
      rcases Nat.eq_zero_or_pos b with rfl | hpos
      · exact h
      · have hn' : ∀ j, ((tick s).inputAt j).rst = none := fun j => by rw [tick_inputAt]; exact hn (j + 1)
        exact ih hpos hn' (hP _ (by rw [← inputAt_zero]; exact hn' 0) (by simpa using ha) h)

end Sys2Proof.Machine
end

