-- ==== Sys2Proof/Laws/HostSide.lean ====
section
/-! SUPPORT. What reading responses can do, and what the host's operations are when they are not refused. -/

namespace Sys2Proof.Machine

/-- Everything a read of responses can be. -/
theorem readResponses_eq_some_iff {s t : State} {n : Nat} {rsp : List Byte} :
    s.readResponses n = some (rsp, t) ↔
      n ≤ s.delivered.length ∧ rsp = s.delivered.take n ∧ t = { s with delivered := s.delivered.drop n } := by
  unfold State.readResponses
  split_ifs with h
  · simp [h, eq_comm]
  · simp [h]

/-- A read waits exactly while too little has been delivered. -/
theorem readResponses_eq_none_iff {s : State} {n : Nat} :
    s.readResponses n = none ↔ s.delivered.length < n := by
  unfold State.readResponses
  split_ifs with h <;> simp <;> omega

/-- Everything the end of an operation can be. -/
theorem finish_eq_some_iff {op : HostOp} {s t : State} {result : Option (List Byte)} :
    op.finish s = some (result, t) ↔
      op.reads ≤ s.delivered.length ∧ result = op.result (s.delivered.take op.reads) ∧
        t = { s with delivered := s.delivered.drop op.reads } := by
  unfold HostOp.finish
  rw [Option.map_eq_some_iff]
  constructor
  · rintro ⟨⟨rsp, u⟩, h, he⟩
    obtain ⟨hn, rfl, rfl⟩ := readResponses_eq_some_iff.mp h
    obtain ⟨rfl, rfl⟩ := Prod.mk.inj he
    exact ⟨hn, rfl, rfl⟩
  · rintro ⟨hn, rfl, rfl⟩
    exact ⟨_, readResponses_eq_some_iff.mpr ⟨hn, rfl, rfl⟩, rfl⟩

@[simp] theorem exchangeOp_eq (bytes : List Byte) :
    exchangeOp bytes =
      .ok { frames := payloadFrames .shiftIo bytes, reads := bytes.length, returns := true } := rfl

@[simp] theorem readOp_single (count : Nat) :
    readOp count .single = .ok { frames := countFrames .shiftIn count, reads := count, returns := true } := rfl

@[simp] theorem synchronizeOp_eq :
    synchronizeOp = .ok { frames := [.sync], reads := 1, returns := false } := rfl

@[simp] theorem writeOp_single (bytes : List Byte) :
    writeOp bytes .single = .ok (.sendOnly (payloadFrames .shiftOut bytes)) := rfl

/-- A `dummy` that is not refused is of a multiple of eight clock periods. -/
theorem dummyOp_eq_ok_iff {count : Nat} {op : HostOp} :
    dummyOp count = .ok op ↔ count % 8 = 0 ∧ op = .sendOnly (countFrames .shiftNone (count / 8)) := by
  unfold dummyOp hostDummy
  split_ifs with h
  · simp [h, Except.map, eq_comm]
  · simp [h, Except.map]

end Sys2Proof.Machine
end

