-- ==== Sys2Proof/Laws/PerInstr.lean ====
section
/-! SUPPORT. A statement for every command of the syntax, one lemma a constructor: the bytes of a well-formed
command are as many as rule R93 says, and the first of them is an opcode of the table (rule R92). -/

namespace Sys2Proof.Laws.FrameLength

/-- Rules R92 and R93 of one command. -/
def Statement (i : Instr) : Prop :=
  i.WF → (encode i).length = frameLength i ∧
    ((encode i).head?.bind lookupOpcode).isSome = true

theorem select (level : Bool) : Statement (.select level) := fun _ => ⟨rfl, by cases level <;> rfl⟩

theorem shiftNone (n : Count) : Statement (.shiftNone n) := fun _ => ⟨rfl, rfl⟩

theorem shiftOut (n : Count) (payload : List Byte) : Statement (.shiftOut n payload) := fun h =>
  ⟨by simp only [Instr.WF, Instr.wellFormed, beq_iff_eq] at h
      simp only [encode, frameLength, List.length_append, h]; rfl, rfl⟩

theorem shiftIn (n : Count) : Statement (.shiftIn n) := fun _ => ⟨rfl, rfl⟩

theorem shiftIo (n : Count) (payload : List Byte) : Statement (.shiftIo n payload) := fun h =>
  ⟨by simp only [Instr.WF, Instr.wellFormed, beq_iff_eq] at h
      simp only [encode, frameLength, List.length_append, h]; rfl, rfl⟩

theorem delay (n : Count) : Statement (.delay n) := fun _ => ⟨rfl, rfl⟩

theorem sync : Statement .sync := fun _ => ⟨rfl, rfl⟩

theorem oe (enable : Bool) : Statement (.oe enable) := fun _ => ⟨rfl, by cases enable <;> rfl⟩

end Sys2Proof.Laws.FrameLength
end

