-- ==== Sys2Proof/Laws/Stall.lean ====
section
/-! SUPPORT. One tick of a core that waits, in any registers (rules R67, R219), and the small lemmas of the end of
a run (rules R17, R301). -/

namespace Sys2Proof.Machine

theorem waitsForByte_iff (s : State) :
    s.waitsForByte = true ↔ s.cmdq = [] ∧
      (s.core.state = .receiveCount1 ∨ s.core.state = .receiveCount2 ∨
        s.core.state = .receiveData ∧ dataIn s.core.cmd = false) := by
  unfold State.waitsForByte State.cmdValid
  rcases h : s.core.state <;> simp

theorem waitsForRoom_iff (s : State) :
    s.waitsForRoom = true ↔ s.input.rspReady = false ∧
      (s.core.state = .sync ∨ s.core.state = .sendData ∧ dataIn s.core.cmd = true) := by
  unfold State.waitsForRoom
  rcases h : s.core.state <;> simp

/-- A core that waits for a byte answers nothing but what every tick writes. -/
theorem stateRule_of_waitsForByte {s : State} (h : s.waitsForByte = true) (b : Regs) :
    stateRule s.params s.coreIn s.core b = { regs := b } := by
  obtain ⟨hq, hs⟩ := (waitsForByte_iff s).mp h
  have hv : s.coreIn.cmdValid = false := by simp [State.coreIn, State.cmdValid, hq]
  rcases hs with hs | hs | ⟨hs, hd⟩
  · simp [stateRule_receiveCount1 hs, onReceiveCount1, hv]
  · simp [stateRule_receiveCount2 hs, onReceiveCount2, hv]
  · simp [stateRule_receiveData hs, onReceiveData, hv, hd]

/-- A core that waits for room answers nothing but what every tick writes. -/
theorem stateRule_of_waitsForRoom {s : State} (h : s.waitsForRoom = true) (b : Regs) :
    stateRule s.params s.coreIn s.core b = { regs := b } := by
  obtain ⟨hr, hs⟩ := (waitsForRoom_iff s).mp h
  have hv : s.coreIn.rspReady = false := hr
  rcases hs with hs | ⟨hs, hd⟩
  · simp [stateRule_sync hs, onSync, hv]
  · simp [stateRule_sendData hs, onSendData, hv, hd]

/-- What a tick of a running core that answers only what every tick writes leaves as it was. -/
theorem tick_of_idleRule {s : State} (hr : s.input.rst = none) (hf : s.fault = none)
    (h : ∀ b, stateRule s.params s.coreIn s.core b = { regs := b }) :
    (tick s).core.state = s.core.state ∧ (tick s).core.cmd = s.core.cmd ∧ (tick s).fault = none ∧
      (tick s).cmdq = s.cmdq ++ s.input.arrive.toList ∧ (tick s).popped = s.popped ∧
      (tick s).delivered ++ (tick s).rspq = s.delivered ++ s.rspq := by
  rw [tick_of_running hr hf, advance_responses]
  simp [coreStep, h, hf, nextCmdq]

/-! ### The end of a run -/

@[simp] theorem runEnd_zero (s : State) (seq : List Byte) : s.runEnd seq 0 = endNow seq s.cmdq s := rfl

theorem endNow_of_fault {seq sofar : List Byte} {t : State} {f : Fault} (h : t.fault = some f) :
    endNow seq sofar t = some (.faulted f) := by
  simp [endNow, h]

theorem endNow_of_running {seq sofar : List Byte} {t : State} (h : t.fault = none) :
    endNow seq sofar t = if seq <+: sofar ∧ t.Quiescent then some .quiescent else none := by
  simp [endNow, h]

/-- A tick answers quiescent or faulted, never a wait. -/
theorem endNow_cases (seq sofar : List Byte) (t : State) :
    (∃ f, t.fault = some f ∧ endNow seq sofar t = some (.faulted f)) ∨
    (t.fault = none ∧ seq <+: sofar ∧ t.Quiescent ∧ endNow seq sofar t = some .quiescent) ∨
    (t.fault = none ∧ ¬(seq <+: sofar ∧ t.Quiescent) ∧ endNow seq sofar t = none) := by
  rcases hf : t.fault with _ | f
  · rw [endNow_of_running hf]
    by_cases h : seq <+: sofar ∧ t.Quiescent
    · exact .inr (.inl ⟨rfl, h.1, h.2, if_pos h⟩)
    · exact .inr (.inr ⟨rfl, h, if_neg h⟩)
  · exact .inl ⟨f, rfl, endNow_of_fault hf⟩

theorem undecided_zero (s : State) (seq : List Byte) : s.Undecided seq 0 :=
  ⟨fun _ h => absurd h (Nat.not_lt_zero _), fun _ h => absurd h (Nat.not_lt_zero _)⟩

/-- A run that is undecided up to a tick was undecided up to every earlier one. -/
theorem State.Undecided.mono {s : State} {seq : List Byte} {j k : Nat} (h : s.Undecided seq k) (hjk : j ≤ k) :
    s.Undecided seq j :=
  ⟨fun i hi => h.1 i (by omega), fun i hi => h.2 i (by omega)⟩

end Sys2Proof.Machine
end

