-- ==== Sys2Proof/Tests/Slice0.lean ====
section
/-! SUPPORT. Tests of the model against the spec's worked encodings and vectors (95_test_vectors.md; each test
names its source), and for every obligation with hypotheses a concrete state that meets them. -/

namespace Sys2Proof.Tests

open Sys2Proof.Machine

/-! ### Well-formedness: an ill-formed term for each check, refused -/

theorem test_wellFormed_shiftOut_payload_too_short : (Instr.shiftOut 2 [0xAA]).wellFormed = false := by decide
theorem test_wellFormed_shiftIo_payload_too_long : (Instr.shiftIo 1 [0xAA, 0xBB]).wellFormed = false := by decide
theorem test_assemble_refuses_ill_formed : assemble [.sync, .shiftOut 2 [0xAA]] = none := by decide

/-! ### Decoding: words written out bit by bit from rules R90 to R98 -/

/-- SELECT: selector 0000, bits 3 to 1 zero, bit 0 the level. -/
theorem test_decode_select :
    decode [0b00000001] = .frame (.select true) [] ∧ decode [0b00000000] = .frame (.select false) [] := by decide
/-- SHIFT.NONE: selector 0001, DATA-IN 0, DATA-OUT 0; then the count 258, low byte first. -/
theorem test_decode_shiftNone :
    decode [0b00010000, 0b00000010, 0b00000001] = .frame (.shiftNone 258) [] := by decide
/-- SHIFT.OUT: DATA-OUT 1; two payload bytes, the byte behind them left alone (V61). -/
theorem test_decode_shiftOut :
    decode [0b00010001, 0b00000010, 0b00000000, 0b00110000, 0b10101010, 0b00110000]
      = .frame (.shiftOut 2 [0x30, 0xAA]) [0x30] := by decide
/-- SHIFT.IN: DATA-IN 1; V7: 300 is 0x012C, low byte first. -/
theorem test_decode_shiftIn :
    decode [0b00010010, 0b00101100, 0b00000001] = .frame (.shiftIn 300) [] := by decide
/-- SHIFT.IO: both flags (V8). -/
theorem test_decode_shiftIo :
    decode [0b00010011, 0b00000010, 0b00000000, 0b10100101, 0b00111100] = .frame (.shiftIo 2 [0xA5, 0x3C]) [] := by
  decide
/-- DELAY: selector 0010; V4: 1000 is 0x03E8. -/
theorem test_decode_delay :
    decode [0b00100000, 0b11101000, 0b00000011] = .frame (.delay 1000) [] := by decide
/-- SYNC: selector 0011. -/
theorem test_decode_sync : decode [0b00110000, 0b00110000] = .frame .sync [0x30] := by decide
/-- OE: selector 0100, bit 0 the enable. -/
theorem test_decode_oe :
    decode [0b01000000] = .frame (.oe false) [] ∧ decode [0b01000001] = .frame (.oe true) [] := by decide
/-- V60: the ten malformed bytes of that vector. -/
theorem test_decode_malformed :
    ∀ b ∈ ([0x02, 0x0F, 0x14, 0x1F, 0x21, 0x31, 0x42, 0x50, 0x80, 0xFF] : List Byte),
      decode [b, 0x30] = .malformed b := by decide
/-- A frame that has not arrived whole. -/
theorem test_decode_short : decode [0x11, 0x02, 0x00, 0xAA] = .short ∧ decode [] = .short := by decide
/-- Section 2.1 of the vectors: four frames, the two `30` behind the count are payload. -/
theorem test_disassemble_frames :
    disassemble [0x01, 0x11, 0x02, 0x00, 0x30, 0x30, 0x00, 0x30]
      = some [.select true, .shiftOut 2 [0x30, 0x30], .select false, .sync] := by decide
/-- The table's numbering: SELECT on 8 bits, DELAY 3 on 24 bits with the second byte in bits 15 to 8. -/
theorem test_decodeTableWord :
    decodeTableWord 8 0x01 = some (.select true) ∧ decodeTableWord 24 0x000320 = some (.delay 3) ∧
    decodeTableWord 8 0x13 = some (.shiftIo 0 []) ∧ decodeTableWord 8 0x02 = none := by decide

/-! ### One step -/

/-- The state a step leads to; `State.reset` where it leads to none. -/
def nextOf : Host.Outcome State Fault Refusal → State
  | .next t => t
  | _       => State.reset

/-- A machine after reset with `k` quiet ticks to come and bytes waiting. -/
def bench (k : Nat) (bytes : List Byte) : State :=
  { State.reset with cmdq := bytes, inputs := List.replicate k TickInput.quiet }

/-- The data-in line of a peer that presents `b` at the eight `latch` ticks of the first byte of a SHIFT, with
the latency of two ticks (`HALF_PERIOD_CYC = 2`, `latch` on the lead edges 6, 10 and so on). -/
def presenting (b : Byte) : List TickInput :=
  List.replicate 4 TickInput.quiet ++
    (List.range 8).flatMap fun j => List.replicate 4 { TickInput.quiet with dinPin := b.getLsbD (7 - j) }

/-- `dout` at the lead edges of a trace, in order. -/
def leadBits (trace : List (Nat × BusEvent)) : List Bool :=
  trace.filterMap fun e => match e.2 with
    | .lead d => some d
    | _       => none

/-- V10. -/
theorem test_select_asserts :
    let t := nextOf (step (bench 1 [0x01]))
    t.core.cs = true ∧ (outputs t).csN = false ∧ t.trace = [(0, .cs true)] ∧ t.rspq = [] := by decide
/-- V13: `cs` is written while the driver is released, and the pin stays high impedance. -/
theorem test_select_while_released :
    let t := nextOf (step (nextOf (step (bench 2 [0x40, 0x01]))))
    t.core.cs = true ∧ pinLevel (outputs t).csN (outputs t).csOe = none := by decide
/-- Worked example of rule R260. -/
theorem test_oe_releases_the_pin :
    let t := nextOf (step (nextOf (step (bench 2 [0x01, 0x40]))))
    t.core.oe = false ∧ t.core.cs = true ∧ pinLevel (outputs t).csN (outputs t).csOe = none := by decide
/-- V50. -/
theorem test_sync_answers_zero :
    let t := nextOf (step (bench 2 [0x30]))
    t.rspq = [0x00] ∧ t.tickNo = 2 ∧ t.core.cmd = 0x30 ∧ t.trace = [] := by decide
/-- V52: no room in ticks 0 to 4. -/
theorem test_sync_waits_for_room :
    let s := { bench 0 [0x30] with
      inputs := List.replicate 5 { TickInput.quiet with rspReady := false } ++ [TickInput.quiet] }
    (nextOf (step s)).rspq = [0x00] ∧ (nextOf (step s)).tickNo = 6 := by decide
/-- V40, `DELAY_CYC = 4`: 16 ticks in all. -/
theorem test_delay_length :
    let s := { bench 16 [0x20, 0x03, 0x00] with params := { Params.initial with delayCyc := 4 } }
    (nextOf (step s)).tickNo = 16 ∧ (nextOf (step s)).core.count = 0 ∧
      (nextOf (step s)).core.timer = 0 := by decide
/-- V24 with one byte: 8 lead edges with `dout = 0`, the waiting byte not popped, nothing pushed. -/
theorem test_shiftNone_clocks :
    let t := nextOf (step (bench 38 [0x10, 0x01, 0x00, 0x30]))
    leadBits t.trace = List.replicate 8 false ∧ t.cmdq = [0x30] ∧ t.rspq = [] ∧ t.popped = 3 := by decide
/-- V32: with nothing behind the frame the core waits in `RECEIVE_DATA`, no clock edge. -/
theorem test_shiftNone_waits :
    let t := ticks 10 (bench 10 [0x10, 0x01, 0x00])
    t.core.state = .receiveData ∧ t.trace = [] := by decide
/-- V25 and the worked example of rule R212. -/
theorem test_shiftOut_msb_first :
    let t := nextOf (step { bench 0 [0x11, 0x01, 0x00, 0x9F] with
      inputs := presenting 0xFF ++ [TickInput.quiet, TickInput.quiet] })
    leadBits t.trace = [true, false, false, true, true, true, true, true] ∧ t.rspq = [] ∧
      t.core.shregI = 0xFF ∧ t.core.shregO = 0x00 := by decide
/-- V63: the surplus payload byte is left to be decoded as an opcode, in tick 38. -/
theorem test_shiftOut_surplus :
    let t := nextOf (step (bench 39 [0x11, 0x01, 0x00, 0xAA, 0xBB]))
    t.tickNo = 38 ∧ t.cmdq = [0xBB] ∧ (nextOf (step t)).fault = some (.malformedOpcode 0xBB) := by decide
/-- V23, its first byte: the peer's 5A becomes the response 5A, first sample in bit 7. -/
theorem test_shiftIn_response :
    let t := nextOf (step { bench 0 [0x12, 0x01, 0x00] with
      inputs := presenting 0x5A ++ [TickInput.quiet, TickInput.quiet] })
    t.rspq = [0x5A] ∧ t.popped = 3 ∧ leadBits t.trace = List.replicate 8 false := by decide
/-- V20. -/
theorem test_shiftIo_exchange :
    let t := nextOf (step { bench 0 [0x13, 0x01, 0x00, 0xA5] with
      inputs := presenting 0x3C ++ [TickInput.quiet, TickInput.quiet] })
    t.rspq = [0x3C] ∧ t.tickNo = 38 ∧
      leadBits t.trace = [true, false, true, false, false, true, false, true] ∧
      t.core = { Regs.reset Params.initial with cmd := 0x13, shregI := 0x3C } := by decide
/-- V30: the underrun of SHIFT.IO: the late byte is still waiting when the transfer has started. -/
theorem test_shiftIo_underrun :
    let s := { bench 0 [0x13, 0x01, 0x00] with
      inputs := List.replicate 9 TickInput.quiet ++ [{ TickInput.quiet with arrive := some 0xA5 }] }
    (ticks 5 s).core.state = .transfer ∧ (ticks 10 s).cmdq = [0xA5] ∧ (ticks 10 s).popped = 3 := by decide
/-- V60 and V72: a malformed opcode is recorded, is then the fault, and reset clears it. -/
theorem test_malformed_fault_and_reset :
    let t := nextOf (step (bench 2 [0x50, 0x30]))
    t.fault = some (.malformedOpcode 0x50) ∧ t.core.cmd = 0x50 ∧ t.cmdq = [0x30] ∧
      (match step t with | .fault f => f == .malformedOpcode 0x50 | _ => false) = true ∧
      (let u := nextOf (step { t with inputs := [{ TickInput.quiet with rst := some ⟨Params.initial, true⟩ }] })
       u.fault = none ∧ u.cmdq = [] ∧ u.core = Regs.reset Params.initial) := by decide
/-- V70: reset in the middle of a byte: the clock is back at its idle level in the next tick. -/
theorem test_reset_in_mid_byte :
    let s := { bench 0 [0x13, 0x01, 0x00, 0xA5] with
      inputs := List.replicate 15 TickInput.quiet ++
        [{ TickInput.quiet with rst := some ⟨Params.initial, false⟩ }] }
    (outputs (ticks 15 s)).sck = true ∧ (outputs (ticks 15 s)).dout = true ∧
      (ticks 16 s).core = Regs.reset Params.initial ∧ (outputs (ticks 16 s)).sck = false := by decide
/-- `step` runs the word that `withFetchWord` places, right after reset. -/
theorem test_withFetchWord :
    (nextOf (step (State.reset.withFetchWord 8 0x01))).core.cs = true ∧
    (nextOf (step (State.reset.withFetchWord 24 0x000012))).popped = 3 := by decide
/-- Rules R115 and S6: two milliseconds are `20 D0 07`; rule R289 and S7: the refused requests. -/
theorem test_host_operations :
    hostDelayMillis 2 = .ok [.delay 2000] ∧ encode (.delay 2000) = [0x20, 0xD0, 0x07] ∧
    hostSelect 1 [] = .error .unsupportedChip ∧ hostRead 5 .dual = .error .unsupportedMode ∧
    hostDummy 7 = .error .invalidArgument ∧ hostDummy 16 = .ok [.shiftNone 2] := by
  refine ⟨?_, by decide, by decide, by decide, by decide, ?_⟩ <;> rfl

/-! ### The host's half of an operation (rules R111, R113, R116) -/

/-- What an operation returns at a state: `none` while it waits. -/
def returned (op : Except HostError HostOp) (s : State) : Option (Option (List Byte)) :=
  match op with
  | .ok op    => (op.finish s).map Prod.fst
  | .error _  => none

/-- A quiet tick in which the response consumer takes one byte. -/
def takingTick : TickInput := { TickInput.quiet with take := 1 }

/-- S1 with V20: `exchange([A5])` returns `3C` once it has been delivered, and waits until then. -/
theorem test_exchange_returns_the_sample :
    let s := { bench 0 [0x13, 0x01, 0x00, 0xA5] with
      inputs := presenting 0x3C ++ [TickInput.quiet, TickInput.quiet, takingTick] }
    returned (exchangeOp [0xA5]) (ticks 38 s) = none ∧
    returned (exchangeOp [0xA5]) (ticks 39 s) = some (some [0x3C]) := by decide
/-- V23, its first byte: `read(1)`. -/
theorem test_read_returns_the_sample :
    let s := { bench 0 [0x12, 0x01, 0x00] with
      inputs := presenting 0x5A ++ [TickInput.quiet, TickInput.quiet, takingTick] }
    returned (readOp 1 .single) (ticks 39 s) = some (some [0x5A]) := by decide
/-- S2, V51: each `synchronize()` takes one zero byte and returns nothing; a third one waits. -/
theorem test_synchronize_twice :
    let s := ticks 5 { bench 0 [0x30, 0x30] with inputs := List.replicate 5 takingTick }
    let op : HostOp := { frames := [.sync], reads := 1, returns := false }
    synchronizeOp = .ok op ∧ s.delivered = [0x00, 0x00] ∧
    ((op.finish s).bind fun x => (op.finish x.2).map fun y => (x.1, y.1, y.2.delivered))
      = some (none, none, []) ∧
    ((op.finish s).bind fun x => (op.finish x.2).bind fun y => op.finish y.2) = none := by
  refine ⟨rfl, ?_, ?_, ?_⟩ <;> decide

/-! ### The end of a run (rules R17, R301) -/

/-- V10: over at tick 1, not while its byte is still to come, and not within no ticks. -/
theorem test_run_ends_quiescent :
    (bench 1 [0x01]).runEnd [0x01] 1 = some .quiescent ∧ (bench 1 [0x01]).runEnd [0x01] 0 = none ∧
    State.reset.runEnd [0x01] 0 = none := by decide
/-- A byte that arrives in tick 2 is popped in tick 3: the quiescent ticks before it are no end of the run. -/
theorem test_run_waits_for_arrival :
    let s := { bench 0 [] with inputs := [TickInput.quiet, TickInput.quiet,
      { TickInput.quiet with arrive := some 0x01 }, TickInput.quiet] }
    s.Quiescent ∧ s.runEnd [0x01] 3 = none ∧ s.runEnd [0x01] 4 = some .quiescent := by decide
/-- V60: the run of `01 50 30` is faulted. -/
theorem test_run_ends_faulted :
    (bench 2 [0x01, 0x50, 0x30]).runEnd [0x01, 0x50, 0x30] 2 = some (.faulted (.malformedOpcode 0x50)) := by
  decide
/-- V52: a stall that ends is no end of a run. -/
theorem test_run_stall_is_no_end :
    let s := { bench 0 [0x30] with
      inputs := List.replicate 5 { TickInput.quiet with rspReady := false } ++ [TickInput.quiet] }
    (ticks 1 s).waitsForRoom = true ∧ s.runEnd [0x30] 5 = none ∧ s.runEnd [0x30] 6 = some .quiescent := by
  decide

/-! ### Witnesses: for every obligation with hypotheses, a state and operands that meet them together -/

/-- A machine with registers `r`, bytes waiting and `k` quiet ticks to come. -/
def benchAt (k : Nat) (r : Regs) (bytes : List Byte) : State := { bench k bytes with core := r }

/-- The registers after reset but for the state, `cmd` and `count`. -/
def regsAt (st : Fsm) (cmd : Byte) (count : Count) : Regs :=
  { Regs.reset Params.initial with state := st, cmd := cmd, count := count }

theorem bench_noReset (k : Nat) (bytes : List Byte) : (bench k bytes).NoReset k := by
  intro j hj
  simp [State.inputAt, bench, hj, TickInput.quiet]

theorem reset_regs_inv : (Regs.reset Params.initial).Inv Params.initial :=
  ⟨by decide, by decide, by decide, fun _ => ⟨rfl, rfl, rfl, rfl⟩, by decide, trivial⟩

theorem bench_ready (k : Nat) (bytes : List Byte) : (bench k bytes).Ready :=
  ⟨⟨Nat.le_refl 2, Nat.le_refl 1⟩, rfl, rfl, reset_regs_inv⟩

theorem regsAt_inv_sync : (regsAt .sync 0x30 0).Inv Params.initial :=
  ⟨by decide, by decide, by decide, fun _ => ⟨rfl, rfl, rfl, rfl⟩, by decide, rfl⟩

theorem regsAt_inv_receiveCount1 : (regsAt .receiveCount1 0x13 0).Inv Params.initial :=
  ⟨by decide, by decide, by decide, fun _ => ⟨rfl, rfl, rfl, rfl⟩, by decide, by simp [regsAt]⟩

theorem regsAt_inv_receiveCount2 : (regsAt .receiveCount2 0x20 0xFFFF).Inv Params.initial :=
  ⟨by decide, by decide, by decide, fun _ => ⟨rfl, rfl, rfl, rfl⟩, by decide, by simp [regsAt]⟩

theorem regsAt_inv_delay (n : Count) : (regsAt .delay 0x20 n).Inv Params.initial :=
  ⟨Nat.zero_le 8, Nat.one_pos, fun _ => rfl, fun _ => ⟨rfl, rfl, rfl, rfl⟩, fun _ _ => rfl, rfl⟩

theorem regsAt_inv_countCheck (n : Count) : (regsAt .countCheck 0x12 n).Inv Params.initial :=
  ⟨Nat.zero_le 8, Nat.one_pos, fun _ => rfl, fun _ => ⟨rfl, rfl, rfl, rfl⟩, fun _ _ => rfl, by simp [regsAt]⟩

theorem regsAt_inv_receiveData {cmd : Byte} (h : cmd ∈ ([0x10, 0x11, 0x12, 0x13] : List Byte)) :
    (regsAt .receiveData cmd 1).Inv Params.initial :=
  ⟨Nat.zero_le 8, Nat.one_pos, fun _ => rfl, fun _ => ⟨rfl, rfl, rfl, rfl⟩, fun _ _ => rfl, h, (by decide : (1 : Count) ≠ 0)⟩

theorem regsAt_inv_sendData {cmd : Byte} (h : cmd ∈ ([0x10, 0x11, 0x12, 0x13] : List Byte)) (n : Count) :
    (regsAt .sendData cmd n).Inv Params.initial :=
  ⟨Nat.zero_le 8, Nat.one_pos, fun _ => rfl, fun _ => ⟨rfl, rfl, rfl, rfl⟩, fun _ h' => absurd rfl h', h, Nat.two_pos⟩

/-- The first tick of a `TRANSFER`. -/
def transferRegs : Regs := { regsAt .transfer 0x13 0 with bitno := 8, shregO := 0xA5 }

theorem transferRegs_inv : transferRegs.Inv Params.initial :=
  ⟨by decide, by decide, by decide, fun h => absurd rfl h, by decide, by simp [transferRegs, regsAt],
    by decide, rfl, by decide, by decide, by decide, by decide⟩

/-- A lead strobe with one period left to start. -/
def leadRegs : Regs := { transferRegs with bitno := 1, phase := true, ctr := 1, shregO := 0x80 }

theorem leadRegs_inv : leadRegs.Inv Params.initial :=
  ⟨by decide, by decide, by decide, fun h => absurd rfl h, by decide, by simp [leadRegs, transferRegs, regsAt],
    by decide, rfl, by decide, by decide, by decide, by decide⟩

/-- The last trail strobe of a byte. -/
def trailRegs : Regs :=
  { transferRegs with bitno := 0, phaseR := true, sckR := true, ctr := 1, shregO := 0x80 }

theorem trailRegs_inv : trailRegs.Inv Params.initial :=
  ⟨by decide, by decide, by decide, fun h => absurd rfl h, by decide, by simp [trailRegs, transferRegs, regsAt],
    by decide, rfl, by decide, by decide, by decide, by decide⟩

/-- What every tick-level obligation asks of the machine, but for its state. -/
abbrev Runs (s : State) : Prop := s.params.Valid ∧ s.Inv ∧ s.fault = none ∧ s.input.rst = none

theorem benchAt_runs (k : Nat) (bytes : List Byte) {r : Regs} (h : r.Inv Params.initial) :
    Runs (benchAt (k + 1) r bytes) :=
  ⟨show Params.initial.Valid by decide, fun _ => h, rfl, rfl⟩

theorem witness_OpcodeMapIsTheTenBytes :
    ([0xAA] : List Byte).length = (countOf 0x01 0x00).toNat ∧ ([] : List Byte).length = (countOf 0 0).toNat ∧
    ∀ b ∈ ([0x02, 0x14, 0x21, 0x31, 0x42, 0xFF] : List Byte),
      b ∉ ([0x00, 0x01, 0x10, 0x11, 0x12, 0x13, 0x20, 0x30, 0x40, 0x41] : List Byte) := by decide

theorem witness_DecodeOfEncodeIsTheCommand :
    (Instr.shiftIo 2 [0xA5, 0x3C]).WF ∧ (Instr.shiftOut 0 []).WF ∧ (Instr.delay 0xFFFF).WF := by decide

theorem witness_EncodeOfDecodeIsTheBytes :
    decode [0x11, 0x01, 0x00, 0x9F, 0x30] = .frame (.shiftOut 1 [0x9F]) [0x30] := by decide

theorem witness_DisassembleOfAssembleIsTheProgram :
    assemble [.select true, .shiftIn 3, .select false] = some [0x01, 0x12, 0x03, 0x00, 0x00] := by decide

/-- A reset input, with and without the transport reconnected, in a machine with a fault recorded. -/
theorem witness_ResetWinsOverEverything :
    ∀ reconnect : Bool, let s := { bench 0 [0x30] with
        fault := some .cmdUnderrun,
        inputs := [{ TickInput.quiet with rst := some ⟨Params.initial, reconnect⟩ }] }
      s.params.Valid ∧ s.input.rst = some ⟨Params.initial, reconnect⟩ := by decide

/-- A half-period of one tick (rule R7), and a delay unit of none (rule R300). -/
theorem witness_BadConfigurationIsRefused :
    ¬({ Params.initial with halfPeriodCyc := 1 }).Valid ∧ ¬({ Params.initial with delayCyc := 0 }).Valid := by
  decide

theorem witness_StepRunsTheDecodedCommand :
    let s := bench 38 [0x12, 0x01, 0x00, 0x30]
    s.core.state = .receiveCommand ∧ s.fault = none ∧ s.input.rst = none ∧
      decode s.cmdq = .frame (.shiftIn 1) [0x30] := by decide

theorem witness_StepIsOneTickElsewhere :
    (let s := benchAt 1 transferRegs []
     s.params.Valid ∧ s.fault = none ∧ s.core.state ≠ .receiveCommand) ∧
    (let s := { bench 0 [0x30] with inputs := [{ TickInput.quiet with rst := some ⟨Params.initial, false⟩ }] }
     s.params.Valid ∧ s.fault = none ∧ s.inReset = true) ∧
    (let s := bench 1 [0x11, 0x02, 0x00, 0xAA]
     s.params.Valid ∧ s.fault = none ∧ decode s.cmdq = .short) := by decide

theorem witness_StepIsARunOfTicks : ∃ t, step (bench 1 [0x01]) = .next t := ⟨_, rfl⟩

theorem witness_MalformedOpcodeIsRecorded :
    let s := bench 2 [0x50, 0x30]
    s.Ready ∧ s.NoReset 1 ∧ s.cmdq = 0x50 :: [0x30] ∧
      (0x50 : Byte) ∉ ([0x00, 0x01, 0x10, 0x11, 0x12, 0x13, 0x20, 0x30, 0x40, 0x41] : List Byte) ∧
      (s.inputAt 1).rst = none :=
  ⟨bench_ready _ _, fun j hj => bench_noReset 2 _ j (by omega), rfl, by decide, rfl⟩

theorem witness_RecordedFaultFreezesTheCore :
    let s := { bench 1 [0x30] with fault := some (.malformedOpcode 0x50) }
    s.params.Valid ∧ s.fault = some (.malformedOpcode 0x50) ∧ s.input.rst = none := by decide

/-- With and without room. -/
theorem witness_SyncStateWaitsThenPushesZero :
    (Runs (benchAt 1 (regsAt .sync 0x30 0) []) ∧ (benchAt 1 (regsAt .sync 0x30 0) []).input.rspReady = true) ∧
    ∃ s : State, Runs s ∧ s.core.state = .sync ∧ s.input.rspReady = false :=
  ⟨⟨benchAt_runs 0 _ regsAt_inv_sync, rfl⟩,
    { benchAt 1 (regsAt .sync 0x30 0) [] with inputs := [{ TickInput.quiet with rspReady := false }] },
    ⟨by decide, fun _ => regsAt_inv_sync, rfl, rfl⟩, rfl, rfl⟩

/-- Both states, with no byte and with one. -/
theorem witness_CountBytesAreReadInTwoTicks :
    (∀ q ∈ ([[], [0xFF]] : List (List Byte)), Runs (benchAt 1 (regsAt .receiveCount1 0x13 0) q)) ∧
    (∀ q ∈ ([[], [0xFF]] : List (List Byte)), Runs (benchAt 1 (regsAt .receiveCount2 0x20 0xFFFF) q)) :=
  ⟨fun _ _ => benchAt_runs 0 _ regsAt_inv_receiveCount1, fun _ _ => benchAt_runs 0 _ regsAt_inv_receiveCount2⟩

/-- `count` 0, 1 and 65535. -/
theorem witness_CountCheckTakesOneTick :
    ∀ n ∈ ([0, 1, 0xFFFF] : List Count), Runs (benchAt 1 (regsAt .countCheck 0x12 n) []) :=
  fun _ _ => benchAt_runs 0 _ (regsAt_inv_countCheck _)

/-- The three clauses: a payload byte is there; no DATA-OUT, with DATA-IN or a byte; neither DATA-IN nor a byte. -/
theorem witness_ReceiveDataLoadsOrWaits :
    (∀ cmd ∈ ([0x11, 0x13] : List Byte), Runs (benchAt 1 (regsAt .receiveData cmd 1) [0xA5]) ∧ dataOut cmd = true) ∧
    (Runs (benchAt 1 (regsAt .receiveData 0x12 1) []) ∧ dataOut 0x12 = false ∧ dataIn 0x12 = true) ∧
    (Runs (benchAt 1 (regsAt .receiveData 0x10 1) [0x30]) ∧ dataOut 0x10 = false) ∧
    (∀ cmd ∈ ([0x10, 0x11] : List Byte), Runs (benchAt 1 (regsAt .receiveData cmd 1) []) ∧ dataIn cmd = false) := by
  refine ⟨fun cmd h => ⟨benchAt_runs 0 _ (regsAt_inv_receiveData ?_), ?_⟩,
    ⟨benchAt_runs 0 _ (regsAt_inv_receiveData (by decide)), by decide⟩,
    ⟨benchAt_runs 0 _ (regsAt_inv_receiveData (by decide)), by decide⟩,
    fun cmd h => ⟨benchAt_runs 0 _ (regsAt_inv_receiveData ?_), ?_⟩⟩ <;>
  · revert cmd; decide

/-- Under both treatments of an underrun. -/
theorem witness_UnderrunLoadsAFreeByte :
    ∀ u : UnderrunPolicy, ∃ s : State, Runs s ∧ s.core.state = .receiveData ∧ dataOut s.core.cmd = true ∧
      dataIn s.core.cmd = true ∧ s.cmdq = [] ∧ s.params.underrun = u :=
  fun u => ⟨{ benchAt 1 (regsAt .receiveData 0x13 1) [] with params := { Params.initial with underrun := u } },
    ⟨show Params.Valid _ from ⟨Nat.le_refl 2, Nat.le_refl 1⟩,
      fun _ => ⟨Nat.zero_le 8, Nat.one_pos, fun _ => rfl, fun _ => ⟨rfl, rfl, rfl, rfl⟩, fun _ _ => rfl,
        by simp [benchAt, regsAt],
        (by decide : (1 : Count) ≠ 0)⟩, rfl, rfl⟩, rfl,
    (by decide : dataOut 0x13 = true), (by decide : dataIn 0x13 = true), rfl, rfl⟩

/-- A lead strobe, the last trail strobe, a trail strobe before it, a tick without strobe. -/
theorem witness_TransferCountsLeadStrobes :
    (Runs (benchAt 1 leadRegs []) ∧ leadRegs.state = .transfer ∧ stbLead leadRegs = true) ∧
    (Runs (benchAt 1 trailRegs []) ∧ stbLead trailRegs = false ∧ stbTrail trailRegs = true ∧
      trailRegs.bitno = 0) ∧
    (Runs (benchAt 1 transferRegs []) ∧ stbLead transferRegs = false ∧ stbTrail transferRegs = false) ∧
    (let r := { trailRegs with bitno := 1, shregO := 0x80 }
     stbLead r = false ∧ stbTrail r = true ∧ r.bitno ≠ 0) :=
  ⟨⟨benchAt_runs 0 _ leadRegs_inv, by decide⟩, ⟨benchAt_runs 0 _ trailRegs_inv, by decide⟩,
    ⟨benchAt_runs 0 _ transferRegs_inv, by decide⟩, by decide⟩

/-- Without DATA-IN, with DATA-IN and room, with DATA-IN and no room; `count` 0 and 1. -/
theorem witness_SendDataPushesTheSampledByte :
    ∀ n ∈ ([0, 1] : List Count),
      (Runs (benchAt 1 (regsAt .sendData 0x11 n) []) ∧ dataIn 0x11 = false) ∧
      (Runs (benchAt 1 (regsAt .sendData 0x12 n) []) ∧ dataIn 0x12 = true) ∧
      ∃ s : State, Runs s ∧ s.core = regsAt .sendData 0x12 n ∧ s.input.rspReady = false :=
  fun n _ => ⟨⟨benchAt_runs 0 _ (regsAt_inv_sendData (by decide) n), by decide⟩,
    ⟨benchAt_runs 0 _ (regsAt_inv_sendData (by decide) n), by decide⟩,
    { benchAt 1 (regsAt .sendData 0x12 n) [] with inputs := [{ TickInput.quiet with rspReady := false }] },
    ⟨show Params.initial.Valid by decide, fun _ => regsAt_inv_sendData (by decide) n, rfl, rfl⟩, rfl, rfl⟩

/-- `count` 0 and 3, with a tick for each unit and one more. -/
theorem witness_DelayStateLasts :
    ∀ n ∈ ([0, 3] : List Count), ∀ s ∈ [benchAt 4 (regsAt .delay 0x20 n) []],
      Runs s ∧ s.core.state = .delay ∧ s.core.timer = 0 ∧
        s.NoReset (s.core.count.toNat * s.params.delayCyc + 1) := by
  intro n hn s hs
  obtain rfl := List.mem_singleton.mp hs
  refine ⟨benchAt_runs 3 _ (regsAt_inv_delay n), rfl, rfl, fun j hj => bench_noReset 4 [] j ?_⟩
  revert hj; revert n
  simp [benchAt, bench, regsAt, State.reset, State.resetWith, Params.initial]
  omega

/-- Both edges of the pin under both values of `sck_edge`. -/
theorem witness_SetupAndLatchAreExclusive :
    ∀ e : SckEdge, ({ Params.initial with sckEdge := e }).Valid ∧
      sckRise { Params.initial with sckEdge := e } leadRegs = true ∧
      sckFall { Params.initial with sckEdge := e } trailRegs = true ∧
      sckOf { Params.initial with sckEdge := e } transferRegs = transferRegs.sckR := by
  intro e; cases e <;> decide

/-- A `latch` on the lead edge, a `setup` on the trail edge, a tick with neither. -/
theorem witness_ShiftRegistersFollowTheEvents :
    (Runs (benchAt 1 leadRegs []) ∧ leadRegs.state ≠ .receiveData ∧ latchEvent Params.initial leadRegs = true) ∧
    (Runs (benchAt 1 trailRegs []) ∧ trailRegs.state ≠ .receiveData ∧
      setupEvent Params.initial trailRegs = true) ∧
    (Runs (benchAt 1 transferRegs []) ∧ latchEvent Params.initial transferRegs = false ∧
      setupEvent Params.initial transferRegs = false) :=
  ⟨⟨benchAt_runs 0 _ leadRegs_inv, by decide⟩, ⟨benchAt_runs 0 _ trailRegs_inv, by decide⟩,
    ⟨benchAt_runs 0 _ transferRegs_inv, by decide⟩⟩

theorem witness_ClockFollowsItsSchedule :
    let s := benchAt 32 transferRegs []
    s.params.Valid ∧ s.fault = none ∧ s.core.state = .transfer ∧ s.core.phase = false ∧
      s.core.phaseR = false ∧ s.core.ctr = 0 ∧ s.core.sckR = s.params.sckIdle ∧ s.core.bitno = 8 ∧
      s.NoReset (transferTicks s.params) :=
  ⟨by decide, rfl, rfl, rfl, rfl, rfl, rfl, rfl, bench_noReset 32 []⟩

theorem witness_TransferMovesOneByte :
    let s := benchAt 32 transferRegs []
    s.params.Valid ∧ s.fault = none ∧ s.core.state = .transfer ∧ s.core.phase = false ∧
      s.core.phaseR = false ∧ s.core.ctr = 0 ∧ s.core.sckR = s.params.sckIdle ∧ s.core.bitno = 8 ∧
      s.NoReset (transferTicks s.params) :=
  witness_ClockFollowsItsSchedule

theorem witness_BusIsSilentOutsideTransfer :
    Runs (benchAt 1 (regsAt .sendData 0x12 0) []) ∧ (regsAt .sendData 0x12 0).state ≠ .transfer :=
  ⟨benchAt_runs 0 _ (regsAt_inv_sendData (by decide) 0), by decide⟩

theorem witness_DataInIsTwoTicksOld :
    (((bench 2 []).inputAt 0).rst = none ∧ ((bench 2 []).inputAt 1).rst = none) ∧
    (let s := { bench 0 [] with
       inputs := [{ TickInput.quiet with rst := some ⟨Params.initial, false⟩ }, TickInput.quiet] }
     (s.inputAt 0).rst ≠ none ∧ (s.inputAt 1).rst = none) := by decide

/-- No opcode, no count byte, no payload byte; no room; the two states that do not wait. -/
theorem witness_StallKeepsEveryRegister :
    Runs (bench 1 []) ∧ Runs (benchAt 1 (regsAt .receiveCount1 0x13 0) []) ∧
    (benchAt 1 (regsAt .receiveCount1 0x13 0) []).waitsForByte = true ∧
    (benchAt 1 (regsAt .receiveData 0x10 1) []).waitsForByte = true ∧
    ({ benchAt 1 (regsAt .sendData 0x12 0) [] with
        inputs := [{ TickInput.quiet with rspReady := false }] }).waitsForRoom = true ∧
    transferRegs.state = .transfer ∧
    Runs (benchAt 1 (regsAt .receiveData 0x13 1) []) ∧ Params.initial.underrun = .draw :=
  ⟨benchAt_runs 0 _ reset_regs_inv, benchAt_runs 0 _ regsAt_inv_receiveCount1, by decide, by decide, by decide,
    rfl, benchAt_runs 0 _ (regsAt_inv_receiveData (by decide)), rfl⟩

theorem witness_OnlySelectChangesChipSelect :
    ∃ t, step (bench 1 [0x01]) = .next t ∧ (bench 1 [0x01]).NoReset (t.clock - (bench 1 [0x01]).clock) ∧
      t.core.cs ≠ (bench 1 [0x01]).core.cs :=
  ⟨_, rfl, fun j hj => bench_noReset 1 _ j hj, by decide⟩

theorem witness_OnlyOeChangesTheDriverEnable :
    ∃ t, step (bench 1 [0x40]) = .next t ∧ (bench 1 [0x40]).NoReset (t.clock - (bench 1 [0x40]).clock) ∧
      t.core.oe ≠ (bench 1 [0x40]).core.oe :=
  ⟨_, rfl, fun j hj => bench_noReset 1 _ j hj, by decide⟩

/-- A tick that pushes in `SYNC`, one in `SEND_DATA`. -/
theorem witness_ResponsesComeFromSyncAndDataIn :
    (bench 1 []).input.rst = none ∧ (coreOut (benchAt 1 (regsAt .sync 0x30 0) [])).push = some 0x00 ∧
      (coreOut (benchAt 1 (regsAt .sendData 0x13 0) [])).push = some 0x00 := by decide

theorem witness_HeadPositionCountsThePops : (bench 4 [0x12, 0x00, 0x00, 0x30]).NoReset 4 := bench_noReset 4 _

/-- A count byte state, another state, a `RECEIVE_DATA` and a lead strobe. -/
theorem witness_CountersNeverWrap :
    Runs (benchAt 1 (regsAt .receiveCount1 0x13 0) [0x01]) ∧ Runs (benchAt 1 (regsAt .delay 0x20 1) []) ∧
      Runs (benchAt 1 (regsAt .receiveData 0x13 1) [0x01]) ∧ Runs (benchAt 1 leadRegs []) :=
  ⟨benchAt_runs 0 _ regsAt_inv_receiveCount1, benchAt_runs 0 _ (regsAt_inv_delay 1),
    benchAt_runs 0 _ (regsAt_inv_receiveData (by decide)), benchAt_runs 0 _ leadRegs_inv⟩

theorem witness_TransfersIgnoreChipSelect :
    ∃ t, exec (.shiftIn 0) (bench 4 []) = .next t ∧ (bench 4 []).NoReset (t.clock - (bench 4 []).clock) :=
  ⟨_, rfl, bench_noReset 4 []⟩

theorem witness_CommandsLetTimePass :
    ∃ t, exec (.delay 2) (bench 6 []) = .next t ∧ (bench 6 []).NoReset 6 := ⟨_, rfl, bench_noReset 6 []⟩

theorem witness_FrameOfShift :
    ∃ t, exec (.shiftIn 1) (bench 38 []) = .next t ∧ (bench 38 []).Ready ∧
      (bench 38 []).NoReset (t.clock - (bench 38 []).clock) :=
  ⟨_, rfl, bench_ready 38 [], bench_noReset 38 []⟩

theorem witness_FrameOfDelayAndSync :
    (∃ t, exec (.delay 1) (bench 5 []) = .next t ∧ (bench 5 []).Ready ∧
      (bench 5 []).NoReset (t.clock - (bench 5 []).clock)) ∧
    (∃ t, exec .sync (bench 2 []) = .next t ∧ (bench 2 []).Ready ∧
      (bench 2 []).NoReset (t.clock - (bench 2 []).clock)) :=
  ⟨⟨_, rfl, bench_ready 5 [], bench_noReset 5 []⟩, ⟨_, rfl, bench_ready 2 [], bench_noReset 2 []⟩⟩

theorem witness_SelectSetsChipSelect : (bench 1 []).Ready ∧ (bench 1 []).NoReset 1 :=
  ⟨bench_ready 1 [], bench_noReset 1 []⟩

theorem witness_OeSetsTheDriverEnable : (bench 1 [0x01]).Ready ∧ (bench 1 [0x01]).NoReset 1 :=
  ⟨bench_ready 1 _, bench_noReset 1 _⟩

/-- Room at once, and room after one tick without. -/
theorem witness_SyncPushesOneZeroByte :
    (∃ s : State, s.Ready ∧ s.NoReset 2 ∧ (s.inputAt 1).rspReady = true) ∧
    (∃ s : State, s.Ready ∧ s.NoReset 3 ∧ 1 ≤ s.inputs.length ∧ (s.inputAt 1).rspReady = false ∧
      (s.inputAt 2).rspReady = true) :=
  ⟨⟨bench 2 [], bench_ready 2 [], bench_noReset 2 [], rfl⟩,
    { bench 0 [] with
        inputs := [TickInput.quiet, { TickInput.quiet with rspReady := false }, TickInput.quiet] },
    bench_ready 0 [], by intro j hj; interval_cases j <;> rfl, by decide, rfl, rfl⟩

theorem witness_DelayHoldsTheInterpreter :
    (bench 7 []).Ready ∧ (bench 7 []).NoReset ((3 : Count).toNat * (bench 7 []).params.delayCyc + 4) :=
  ⟨bench_ready 7 [], bench_noReset 7 []⟩

theorem witness_ShiftOfNothingIsANoOp : (bench 4 []).Ready ∧ (bench 4 []).NoReset 4 :=
  ⟨bench_ready 4 [], bench_noReset 4 []⟩

theorem witness_ShiftNoneClocksWithoutData :
    (bench 38 [0x30]).Ready ∧ (bench 38 [0x30]).NoReset (shiftTicks (bench 38 [0x30]).params 1) ∧
      (bench 38 [0x30]).cmdq ++ (bench 38 [0x30]).arrivals 4 ≠ [] :=
  ⟨bench_ready 38 _, bench_noReset 38 _, by decide⟩

theorem witness_ShiftOutWritesThePayload :
    ([0x9F] : List Byte).length = (1 : Count).toNat ∧ (bench 38 []).Ready ∧
      (bench 38 []).NoReset (shiftTicks (bench 38 []).params 1) :=
  ⟨rfl, bench_ready 38 [], bench_noReset 38 []⟩

theorem witness_ShiftInReadsThePeer :
    (bench 38 []).Ready ∧ (bench 38 []).NoReset (shiftTicks (bench 38 []).params 1) ∧
      ∀ k, k < (1 : Count).toNat → ((bench 38 []).inputAt (sendTick (bench 38 []).params k)).rspReady = true :=
  ⟨bench_ready 38 [], bench_noReset 38 [], by decide⟩

theorem witness_ShiftIoExchangesBytes :
    ([0xA5] : List Byte).length = (1 : Count).toNat ∧ (bench 38 []).Ready ∧
      (bench 38 []).NoReset (shiftTicks (bench 38 []).params 1) ∧
      ∀ k, k < (1 : Count).toNat → ((bench 38 []).inputAt (sendTick (bench 38 []).params k)).rspReady = true :=
  ⟨rfl, bench_ready 38 [], bench_noReset 38 [], by decide⟩

/-- No byte; a SHIFT opcode whose frame has not arrived whole; DELAY, SYNC, SELECT and OE opcodes. -/
theorem witness_ReceiveCommandTakesAnOpcode :
    (∀ q ∈ ([[], [0x13], [0x10, 0x01], [0x20], [0x30], [0x01], [0x40]] : List (List Byte)),
      Runs (bench 1 q) ∧ (bench 1 q).core.state = .receiveCommand) ∧
    (0x13 : Byte) ∈ ([0x10, 0x11, 0x12, 0x13, 0x20] : List Byte) ∧
    (0x01 : Byte) = 0x00 ||| operandBit true ∧ (0x40 : Byte) = 0x40 ||| operandBit false :=
  ⟨fun _ _ => ⟨benchAt_runs 0 _ reset_regs_inv, rfl⟩, by decide, by decide, by decide⟩

/-- A wait for a count byte, and a wait for room, over three ticks. -/
theorem witness_StallsLastUntilTheirCauseEnds :
    (let s := benchAt 3 (regsAt .receiveCount1 0x13 0) []
     s.fault = none ∧ s.NoReset 3 ∧ s.waitsForByte = true ∧ ∀ j, j < 3 → (s.inputAt j).arrive = none) ∧
    (let s := { benchAt 0 (regsAt .sync 0x30 0) [] with
       inputs := List.replicate 4 { TickInput.quiet with rspReady := false } }
     s.fault = none ∧ s.NoReset 3 ∧ s.waitsForRoom = true ∧ ∀ j, j ≤ 3 → (s.inputAt j).rspReady = false) :=
  ⟨⟨rfl, bench_noReset 3 [], by decide, by decide⟩,
    rfl, fun j hj => by interval_cases j <;> rfl, by decide, by decide⟩

/-- V10 ends quiescent at tick 1, V60 faulted at tick 1. (Of the two waits no concrete state can be shown: the
inputs past the script are free values.) -/
theorem witness_RunEndsAreExclusive :
    (bench 1 [0x01]).EndsAt [0x01] 1 .quiescent ∧
    (bench 1 [0x50]).EndsAt [0x50] 1 (.faulted (.malformedOpcode 0x50)) :=
  ⟨⟨⟨bench_noReset 1 _, by decide⟩, by decide⟩, ⟨bench_noReset 1 _, by decide⟩, by decide⟩

/-- A SYNC behind a SHIFT.NONE of no bytes. -/
theorem witness_ProgramsRunToQuiescence :
    assemble [.shiftNone 0, .sync] = some [0x10, 0x00, 0x00, 0x30] ∧ TailStarts [.shiftNone 0, .sync] ∧
    (bench 6 [0x10, 0x00, 0x00, 0x30]).Ready ∧
    ([Instr.shiftNone 0, .sync].map (ticksNeeded Params.initial)).sum = 6 ∧
    (bench 6 [0x10, 0x00, 0x00, 0x30]).NoReset 6 ∧
    ∀ j, j < 6 → ((bench 6 [0x10, 0x00, 0x00, 0x30]).inputAt j).arrive = none ∧
      ((bench 6 [0x10, 0x00, 0x00, 0x30]).inputAt j).rspReady = true :=
  ⟨by decide, by simp [TailStarts], bench_ready 6 _, by decide, bench_noReset 6 _, by decide⟩

/-- An operation whose response has been delivered, and one that waits for it. -/
theorem witness_HostReadsTheOldestBytes :
    (let s := { bench 0 [] with delivered := [0x3C, 0x00] }
     let op : HostOp := { frames := [], reads := 1, returns := true }
     (op.finish s).map Prod.fst = some (some [0x3C])) ∧
    (let op : HostOp := { frames := [.sync], reads := 1, returns := false }
     op.finish (bench 0 []) = none) := by decide

theorem witness_HostOperationsReadTheirResponses :
    (∃ op, writeOp [0xAA] .single = .ok op) ∧ (∃ op, dummyOp 16 = .ok op) ∧ (∃ op, delayMicrosOp 5 = .ok op) ∧
      (∃ op, delayMillisOp 2 = .ok op) ∧ (∃ op, outputEnableOp true = .ok op) ∧ LaneMode.dual ≠ .single :=
  ⟨⟨_, rfl⟩, ⟨_, rfl⟩, ⟨_, rfl⟩, ⟨_, rfl⟩, ⟨_, rfl⟩, by decide⟩

/-- A machine whose transport takes one response byte in every tick. -/
def takingBench (k : Nat) (bytes : List Byte) : State :=
  { bench 0 bytes with inputs := List.replicate k takingTick }

theorem takingBench_noReset (k : Nat) (bytes : List Byte) : (takingBench k bytes).NoReset k := by
  intro j hj
  simp [State.inputAt, takingBench, takingTick, hj, TickInput.quiet]

theorem takingBench_ready (k : Nat) (bytes : List Byte) : (takingBench k bytes).Ready :=
  ⟨⟨Nat.le_refl 2, Nat.le_refl 1⟩, rfl, rfl, reset_regs_inv⟩

/-- `synchronize()`, over three ticks. -/
theorem witness_HostOperationsFinish :
    let op : HostOp := { frames := [.sync], reads := 1, returns := false }
    let s := takingBench 3 [0x30]
    assemble op.frames = some [0x30] ∧ op.reads = (op.frames.map responseCount).sum ∧ TailStarts op.frames ∧
      s.Ready ∧ s.delivered = [] ∧ s.rspq = [] ∧ (op.frames.map (ticksNeeded s.params)).sum ≤ 3 ∧ s.NoReset 3 ∧
      (∀ j, j < 3 → (s.inputAt j).arrive = none ∧ (s.inputAt j).rspReady = true) ∧ (ticks 3 s).rspq = [] :=
  ⟨by decide, rfl, by simp [TailStarts], takingBench_ready 3 _, rfl, rfl, by decide, takingBench_noReset 3 _,
    by decide, by decide⟩

/-- `exchange([A5])` and `read(1)`, over 39 ticks. -/
theorem witness_ExchangeAndReadReturnTheSampledBytes :
    (∃ op, exchangeOp [0xA5] = .ok op ∧ ([0xA5] : List Byte).length = (1 : Count).toNat ∧
      assemble op.frames = some [0x13, 0x01, 0x00, 0xA5]) ∧
    (∃ op, readOp (1 : Count).toNat .single = .ok op ∧ assemble op.frames = some [0x12, 0x01, 0x00]) ∧
    ∀ wire ∈ ([[0x13, 0x01, 0x00, 0xA5], [0x12, 0x01, 0x00]] : List (List Byte)),
      let s := takingBench 39 wire
      s.Ready ∧ s.cmdq = wire ∧ s.delivered = [] ∧ s.rspq = [] ∧ shiftTicks s.params 1 ≤ 39 ∧ s.NoReset 39 ∧
        (∀ j, j < 39 → (s.inputAt j).arrive = none ∧ (s.inputAt j).rspReady = true) ∧
        (ticks 39 s).rspq = [] := by
  refine ⟨⟨_, rfl, rfl, by decide⟩, ⟨_, rfl, by decide⟩, fun wire h => ?_⟩
  refine ⟨takingBench_ready 39 _, rfl, rfl, rfl, (by decide : shiftTicks Params.initial 1 ≤ 39),
    takingBench_noReset 39 _, ?_, ?_⟩ <;> revert wire <;> decide

theorem witness_StepKeepsTheInvariant : (bench 1 [0x01]).Inv ∧ ∃ t, step (bench 1 [0x01]) = .next t :=
  ⟨fun _ => reset_regs_inv, _, rfl⟩

end Sys2Proof.Tests
end

/-! The opcode map (rules R91, R92): the decoder one frame format at a time, and the bytes the table gives no
row. -/

namespace Sys2Proof

/-- The bits an opcode row of mask `0xFE` compares, and the operand bit beside them, make the whole byte. -/
theorem and_FE_or_operandBit (b : Byte) : (b &&& 0xFE) ||| operandBit (b.getLsbD 0) = b := by
  revert b; decide

/-- A row of mask `0xFE` takes at most two bytes, one for each value of the operand bit. -/
theorem eq_or_eq_of_and_FE_eq {b v : Byte} (h : b &&& 0xFE = v) : b = v ∨ b = v ||| 1 := by
  have hb := and_FE_or_operandBit b
  cases hbit : b.getLsbD 0 <;> rw [h, hbit] at hb
  · exact .inl (hb.symm.trans BitVec.or_zero)
  · exact .inr hb.symm

/-- A row of mask `0xFF` compares the whole byte. -/
theorem and_FF (b : Byte) : b &&& 0xFF = b := BitVec.and_allOnes

/-- Rule R92: a byte that is none of the ten belongs to no row of the table. -/
theorem lookupOpcode_eq_none_of_not_mem {b : Byte}
    (h : b ∉ ([0x00, 0x01, 0x10, 0x11, 0x12, 0x13, 0x20, 0x30, 0x40, 0x41] : List Byte)) :
    lookupOpcode b = none := by
  have hselect : b &&& 0xFE ≠ 0x00 := fun hb => h <| by
    rcases eq_or_eq_of_and_FE_eq hb with rfl | rfl <;> decide
  have hoe : b &&& 0xFE ≠ 0x40 := fun hb => h <| by
    rcases eq_or_eq_of_and_FE_eq hb with rfl | rfl <;> decide
  simp only [List.mem_cons, not_or] at h
  obtain ⟨-, -, h10, h11, h12, h13, h20, h30, -⟩ := h
  simp only [lookupOpcode, opcodeTable, List.find?_eq_none, List.forall_mem_cons, beq_iff_eq, and_FF]
  exact ⟨hselect, h10, h11, h12, h13, h20, h30, hoe, List.forall_mem_nil _⟩

theorem decode_of_lookupOpcode_eq_none {b : Byte} (h : lookupOpcode b = none) (rest : List Byte) :
    decode (b :: rest) = .malformed b := by
  simp only [decode, h]

theorem decode_f1 (op : Opcode) {b mask value : Byte} (h : lookupOpcode b = some ⟨op, mask, value, .f1⟩)
    (rest : List Byte) : decode (b :: rest) = .frame (instrOf op b 0 []) rest := by
  simp only [decode, h]

theorem decode_f3 (op : Opcode) {b mask value : Byte} (h : lookupOpcode b = some ⟨op, mask, value, .f3⟩)
    (lo hi : Byte) (rest : List Byte) :
    decode (b :: lo :: hi :: rest) = .frame (instrOf op b (countOf lo hi) []) rest := by
  simp only [decode, h]

/-- A payload that is there is taken whole, and the bytes behind it are left. -/
theorem takePayload_length_append (payload rest : List Byte) :
    takePayload payload.length (payload ++ rest) = some (payload, rest) := by
  induction payload with
  | nil => rfl
  | cons b payload ih => simp [takePayload, ih]

theorem decode_f3p (op : Opcode) {b mask value : Byte} (h : lookupOpcode b = some ⟨op, mask, value, .f3p⟩)
    {lo hi : Byte} {payload : List Byte} (hlen : payload.length = (countOf lo hi).toNat) (rest : List Byte) :
    decode (b :: lo :: hi :: (payload ++ rest)) = .frame (instrOf op b (countOf lo hi) payload) rest := by
  simp only [decode, h, ← hlen, takePayload_length_append]

/-- Settles O1: the table row of each of the ten bytes fixes its frame, and every other byte has no row. -/
theorem opcodeMapIsTheTenBytes : Obligations.OpcodeMapIsTheTenBytes :=
  ⟨fun rest => ⟨decode_f1 .select rfl rest, decode_f1 .select rfl rest, decode_f1 .sync rfl rest,
      decode_f1 .oe rfl rest, decode_f1 .oe rfl rest⟩,
    fun lo hi rest => ⟨decode_f3 .shiftNone rfl lo hi rest, decode_f3 .shiftIn rfl lo hi rest,
      decode_f3 .delay rfl lo hi rest⟩,
    fun _ _ _ rest hlen => ⟨decode_f3p .shiftOut rfl hlen rest, decode_f3p .shiftIo rfl hlen rest⟩,
    fun _ rest hb => decode_of_lookupOpcode_eq_none (lookupOpcode_eq_none_of_not_mem hb) rest⟩

end Sys2Proof

/-! The events of the bus signal driver (rules R124, R125): the rise and the fall of the pin, and which of the
two is `latch` and which is `setup`. -/

namespace Sys2Proof.Machine

theorem sckRise_iff (p : Params) (r : Regs) : sckRise p r = true ↔ r.sckR = false ∧ sckOf p r = true := by
  simp [sckRise]

theorem sckFall_iff (p : Params) (r : Regs) : sckFall p r = true ↔ r.sckR = true ∧ sckOf p r = false := by
  simp [sckFall]

/-- Rule R125: the pin does not rise and fall in one tick. -/
theorem not_sckFall_and_sckRise (p : Params) (r : Regs) : ¬(sckFall p r = true ∧ sckRise p r = true) := by
  rw [sckFall_iff, sckRise_iff]
  rintro ⟨⟨hhigh, -⟩, hlow, -⟩
  exact Bool.false_ne_true (hlow.symm.trans hhigh)

theorem sckRise_of_unchanged {p : Params} {r : Regs} (h : sckOf p r = r.sckR) : sckRise p r = false := by
  simp [sckRise, h]

theorem sckFall_of_unchanged {p : Params} {r : Regs} (h : sckOf p r = r.sckR) : sckFall p r = false := by
  simp [sckFall, h]

/-- The table of rule R124, its row `rising`. -/
theorem events_of_rising {p : Params} (he : p.sckEdge = .rising) (r : Regs) :
    latchEvent p r = sckRise p r ∧ setupEvent p r = sckFall p r := by
  simp [latchEvent, setupEvent, he]

/-- The table of rule R124, its row `falling`. -/
theorem events_of_falling {p : Params} (he : p.sckEdge = .falling) (r : Regs) :
    latchEvent p r = sckFall p r ∧ setupEvent p r = sckRise p r := by
  simp [latchEvent, setupEvent, he]

/-- Rule R125: `setup` and `latch` never come together. -/
theorem not_setupEvent_and_latchEvent (p : Params) (r : Regs) :
    ¬(setupEvent p r = true ∧ latchEvent p r = true) := by
  cases he : p.sckEdge with
  | rising =>
    obtain ⟨hlatch, hsetup⟩ := events_of_rising he r
    rw [hlatch, hsetup]
    exact not_sckFall_and_sckRise p r
  | falling =>
    obtain ⟨hlatch, hsetup⟩ := events_of_falling he r
    rw [hlatch, hsetup, and_comm]
    exact not_sckFall_and_sckRise p r

/-- Rule R125: there is no event in a tick in which the pin keeps its level. -/
theorem no_event_of_sck_unchanged {p : Params} {r : Regs} (h : sckOf p r = r.sckR) :
    setupEvent p r = false ∧ latchEvent p r = false := by
  cases he : p.sckEdge with
  | rising =>
    obtain ⟨hlatch, hsetup⟩ := events_of_rising he r
    exact ⟨hsetup.trans (sckFall_of_unchanged h), hlatch.trans (sckRise_of_unchanged h)⟩
  | falling =>
    obtain ⟨hlatch, hsetup⟩ := events_of_falling he r
    exact ⟨hsetup.trans (sckRise_of_unchanged h), hlatch.trans (sckFall_of_unchanged h)⟩

/-- Settles O24: each row of the table names one edge per event, and a pin that rises does not fall. -/
theorem setupAndLatchAreExclusive : Obligations.SetupAndLatchAreExclusive := by
  intro p r
  refine ⟨fun he => ?_, fun he => ?_, not_setupEvent_and_latchEvent p r, no_event_of_sck_unchanged⟩
  · obtain ⟨hlatch, hsetup⟩ := events_of_rising he r
    rw [hlatch, hsetup]
    exact ⟨sckRise_iff p r, sckFall_iff p r⟩
  · obtain ⟨hlatch, hsetup⟩ := events_of_falling he r
    rw [hlatch, hsetup]
    exact ⟨sckFall_iff p r, sckRise_iff p r⟩

end Sys2Proof.Machine

/-! The Command Interpreter (rules R164 to R172): what the core sees of the command stream, the answer of each
state's rule case by case, and from these one tick in each state. -/

namespace Sys2Proof.Machine

/-! ### The core's inputs and the command stream (rules R62, R63) -/

@[simp] theorem coreIn_rspReady (s : State) : s.coreIn.rspReady = s.input.rspReady := rfl
@[simp] theorem coreIn_dinS (s : State) : s.coreIn.dinS = s.sync2 := rfl

theorem coreIn_cmdValid_of_cmdq_nil {s : State} (h : s.cmdq = []) : s.coreIn.cmdValid = false := by
  simp [State.coreIn, State.cmdValid, h]

theorem coreIn_cmdValid_of_cmdq_ne_nil {s : State} (h : s.cmdq ≠ []) : s.coreIn.cmdValid = true := by
  simp [State.coreIn, State.cmdValid, h]

theorem coreIn_of_cmdq_cons {s : State} {b : Byte} {rest : List Byte} (h : s.cmdq = b :: rest) :
    s.coreIn.cmdValid = true ∧ s.coreIn.cmdData = b := by
  simp [State.coreIn, State.cmdValid, State.cmdData, h]

@[simp] theorem nextCmdq_without_pop (q : List Byte) (arrive : Option Byte) :
    nextCmdq q false arrive = q ++ arrive.toList := rfl

@[simp] theorem nextCmdq_pop_cons (b : Byte) (rest : List Byte) (arrive : Option Byte) :
    nextCmdq (b :: rest) true arrive = rest ++ arrive.toList := rfl

/-! ### `SYNC` (rule R164) -/

theorem onSync_of_ready {x : CoreIn} (h : x.rspReady = true) (b : Regs) :
    onSync x b = { regs := { b with state := .receiveCommand }, push := some 0x00 } := by
  simp [onSync, h]

theorem onSync_of_not_ready {x : CoreIn} (h : x.rspReady = false) (b : Regs) : onSync x b = { regs := b } := by
  simp [onSync, h]

/-- Settles O16: room in the response stream is the only thing the rule looks at. -/
theorem syncStateWaitsThenPushesZero : Obligations.SyncStateWaitsThenPushesZero := by
  intro s hv hi hf hr hs
  have htick : tick s = s.advance (onSync s.coreIn s.core) := by
    rw [tick_atRest' hv hi hf hr (by simp [hs]) (by simp [hs]), stateRule_sync hs]
  rw [htick, advance_responses]
  cases hrdy : s.input.rspReady with
  | true => simp [onSync_of_ready (x := s.coreIn) hrdy]
  | false => simp [onSync_of_not_ready (x := s.coreIn) hrdy]

/-! ### `RECEIVE_COUNT_1` and `RECEIVE_COUNT_2` (rules R165, R166) -/

theorem countLo_setCountLo (n : Count) (b : Byte) : countLo (setCountLo n b) = b := extract_low_append _ b

theorem countHi_setCountLo (n : Count) (b : Byte) : countHi (setCountLo n b) = countHi n :=
  extract_high_append _ b

theorem countHi_setCountHi (n : Count) (b : Byte) : countHi (setCountHi n b) = b := extract_high_append b _

theorem countLo_setCountHi (n : Count) (b : Byte) : countLo (setCountHi n b) = countLo n :=
  extract_low_append b _

theorem onReceiveCount1_of_valid {x : CoreIn} (h : x.cmdValid = true) (r b : Regs) :
    onReceiveCount1 x r b =
      { regs := { b with count := setCountLo r.count x.cmdData, state := .receiveCount2 }, pop := true } := by
  simp [onReceiveCount1, h]

theorem onReceiveCount2_of_valid {x : CoreIn} (h : x.cmdValid = true) (r b : Regs) :
    onReceiveCount2 x r b =
      { regs := { b with count := setCountHi r.count x.cmdData,
                         state := if selectorOf r.cmd = 0x2 then .delay else .countCheck },
        pop := true } := by
  simp [onReceiveCount2, h]

/-- A running core of a well-formed machine that waits for a byte keeps every register. -/
theorem tick_core_of_waitsForByte {s : State} (hv : s.params.Valid) (hi : s.Inv) (hf : s.fault = none)
    (hr : s.input.rst = none) (h : s.waitsForByte = true) :
    (tick s).core = s.core := by
  have hs : s.core.state ≠ .transfer ∧ s.core.state ≠ .sendData := by
    obtain ⟨-, hs | hs | ⟨hs, -⟩⟩ := (waitsForByte_iff s).mp h <;> simp [hs]
  rw [tick_atRest' hv hi hf hr hs.1 hs.2, stateRule_of_waitsForByte h, advance_core]

/-- Settles O17: a byte that waits goes into its half of `count`, and the two halves are apart. -/
theorem countBytesAreReadInTwoTicks : Obligations.CountBytesAreReadInTwoTicks := by
  intro s hv hi hf hr
  refine ⟨fun hs => ⟨fun hq => ?_, fun b rest hq => ?_⟩, fun hs => ⟨fun hq => ?_, fun b rest hq => ?_⟩⟩
  · exact tick_core_of_waitsForByte hv hi hf hr ((waitsForByte_iff s).mpr ⟨hq, .inl hs⟩)
  · obtain ⟨hvalid, hdata⟩ := coreIn_of_cmdq_cons hq
    refine ⟨_, countLo_setCountLo s.core.count b, countHi_setCountLo s.core.count b, ?_⟩
    rw [tick_atRest' hv hi hf hr (by simp [hs]) (by simp [hs]), stateRule_receiveCount1 hs,
      onReceiveCount1_of_valid hvalid, hdata, advance_core, advance_cmdq, hq]
    exact ⟨rfl, rfl⟩
  · exact tick_core_of_waitsForByte hv hi hf hr ((waitsForByte_iff s).mpr ⟨hq, .inr (.inl hs)⟩)
  · obtain ⟨hvalid, hdata⟩ := coreIn_of_cmdq_cons hq
    refine ⟨_, countHi_setCountHi s.core.count b, countLo_setCountHi s.core.count b, ?_⟩
    rw [tick_atRest' hv hi hf hr (by simp [hs]) (by simp [hs]), stateRule_receiveCount2 hs,
      onReceiveCount2_of_valid hvalid, hdata, advance_core, advance_cmdq, hq]
    exact ⟨rfl, rfl⟩

/-! ### `COUNT_CHECK` (rule R168) -/

/-- Settles O18: the rule writes `state` by the value of `count` and answers nothing else. -/
theorem countCheckTakesOneTick : Obligations.CountCheckTakesOneTick := by
  intro s hv hi hf hr hs
  have htick : tick s = s.advance (onCountCheck s.core s.core) := by
    rw [tick_atRest' hv hi hf hr (by simp [hs]) (by simp [hs]), stateRule_countCheck hs]
  rw [htick, advance_responses]
  refine ⟨fun hc => ?_, fun hc => ?_, ?_⟩
  · simp only [advance_core, onCountCheck, if_pos hc]
  · simp only [advance_core, onCountCheck, if_neg hc]
  · simp [onCountCheck]

/-! ### `RECEIVE_DATA` (rule R169) -/

theorem onReceiveData_of_dataOut {p : Params} {x : CoreIn} {r : Regs} (ho : dataOut r.cmd = true)
    (hx : x.cmdValid = true) (b : Regs) :
    onReceiveData p x r b = { regs := startByte x.cmdData r b, pop := true } := by
  simp [onReceiveData, ho, hx]

theorem onReceiveData_without_dataOut {p : Params} {x : CoreIn} {r : Regs} (ho : dataOut r.cmd = false)
    (hx : dataIn r.cmd = true ∨ x.cmdValid = true) (b : Regs) :
    onReceiveData p x r b = { regs := startByte 0x00 r b } := by
  simp [onReceiveData, ho, hx]

/-- Settles O19: the payload byte with DATA-OUT, zero without it, and the wait of a core that has neither
DATA-IN nor a byte. -/
theorem receiveDataLoadsOrWaits : Obligations.ReceiveDataLoadsOrWaits := by
  intro s hv hi hf hr hs
  have htick : tick s = s.advance (onReceiveData s.params s.coreIn s.core s.core) := by
    rw [tick_atRest' hv hi hf hr (by simp [hs]) (by simp [hs]), stateRule_receiveData hs]
  refine ⟨fun b rest ho hq => ?_, fun ho hgo => ?_, fun hn hq => ?_⟩
  · obtain ⟨hvalid, hdata⟩ := coreIn_of_cmdq_cons hq
    rw [htick, onReceiveData_of_dataOut ho hvalid, hdata]
    simp [startByte, hq]
  · rw [htick, onReceiveData_without_dataOut ho (hgo.imp_right coreIn_cmdValid_of_cmdq_ne_nil)]
    simp [startByte]
  · have hwait : s.waitsForByte = true := (waitsForByte_iff s).mpr ⟨hq, .inr (.inr ⟨hs, hn⟩)⟩
    obtain ⟨-, -, -, hcmdq, -⟩ := tick_of_idleRule hr hf (stateRule_of_waitsForByte hwait)
    exact ⟨tick_core_of_waitsForByte hv hi hf hr hwait, by rw [hcmdq, hq, List.nil_append]⟩

/-! ### `TRANSFER` (rule R172) -/

/-- `TRANSFER` neither pops nor pushes. -/
theorem onTransfer_streams (r b : Regs) : (onTransfer r b).pop = false ∧ (onTransfer r b).push = none := by
  unfold onTransfer
  split_ifs <;> exact ⟨rfl, rfl⟩

theorem onTransfer_of_lead {r : Regs} (h : stbLead r = true) (b : Regs) :
    onTransfer r b = { regs := { b with bitno := r.bitno - 1 } } := by
  simp [onTransfer, h]

theorem onTransfer_of_last_trail {r : Regs} (hl : stbLead r = false) (ht : stbTrail r = true)
    (hz : r.bitno = 0) (b : Regs) : onTransfer r b = { regs := { b with state := .sendData } } := by
  simp [onTransfer, hl, ht, hz]

theorem onTransfer_between {r : Regs} (hl : stbLead r = false) (h : stbTrail r = false ∨ r.bitno ≠ 0)
    (b : Regs) : onTransfer r b = { regs := b } := by
  have hstay : ¬(stbTrail r = true ∧ r.bitno = 0) := fun ⟨ht, hz⟩ =>
    h.elim (fun hf => Bool.false_ne_true (hf.symm.trans ht)) (· hz)
  rw [onTransfer, hl, if_neg Bool.false_ne_true, if_neg hstay]

/-- Settles O21: lead strobe, last trail strobe and any other tick are the three answers of the rule, on top of
what every tick does, which writes neither `bitno` nor `state`. -/
theorem transferCountsLeadStrobes : Obligations.TransferCountsLeadStrobes := by
  intro s hf hr hs
  obtain ⟨hpop, hpush⟩ := onTransfer_streams s.core (busUpdate s.params s.sync2 s.core)
  rw [tick_of_running hr hf, advance_responses]
  simp only [advance_core, advance_cmdq, advance_popped, coreStep_regs, coreStep_pop, coreStep_push,
    stateRule_transfer hs, coreIn_dinS, hpop, hpush]
  refine ⟨by simp [clkEn, hs], fun hl => ?_, fun hl ht hz => ?_, fun hl h => ?_, by simp⟩
  · simp [onTransfer_of_lead hl, hs]
  · simp [onTransfer_of_last_trail hl ht hz]
  · simp [onTransfer_between hl h, hs]

end Sys2Proof.Machine

/-! The shift registers (rules R177 to R179): an event shifts one of them, no state rule writes `shreg_i`, and
none but that of `RECEIVE_DATA` writes `shreg_o`. -/

namespace Sys2Proof.Machine

theorem shiftRegs_of_setup {p : Params} {r : Regs} (h : setupEvent p r = true) (d : Bool) :
    shiftRegs p d r = { r with shregO := shiftOutLeft r.shregO } := by
  simp [shiftRegs, h]

theorem shiftRegs_of_latch {p : Params} {r : Regs} (h : latchEvent p r = true) (d : Bool) :
    shiftRegs p d r = { r with shregI := shiftInLeft r.shregI d } := by
  have hset : setupEvent p r = false :=
    Bool.eq_false_iff.mpr fun hset => not_setupEvent_and_latchEvent p r ⟨hset, h⟩
  simp [shiftRegs, hset, h]

theorem shiftRegs_of_no_event {p : Params} {r : Regs} (hset : setupEvent p r = false)
    (hlat : latchEvent p r = false) (d : Bool) : shiftRegs p d r = r := by
  simp [shiftRegs, hset, hlat]

theorem acceptOpcode_shiftRegisters (byte : Byte) (b : Regs) :
    (acceptOpcode byte b).regs.shregI = b.shregI ∧ (acceptOpcode byte b).regs.shregO = b.shregO := by
  rcases acceptOpcode_cases byte b with ⟨-, h⟩ | ⟨-, h⟩ | ⟨-, h⟩ | ⟨-, h⟩ | ⟨-, h⟩ <;> rw [h] <;>
    exact ⟨rfl, rfl⟩

/-- A state rule leaves both shift registers to `busUpdate`, but for the load of `RECEIVE_DATA`. -/
theorem stateRule_shiftRegisters (p : Params) (x : CoreIn) (r b : Regs) :
    (stateRule p x r b).regs.shregI = b.shregI ∧
      (r.state ≠ .receiveData → (stateRule p x r b).regs.shregO = b.shregO) := by
  cases hs : r.state with
  | receiveCommand =>
    rw [stateRule_receiveCommand hs, onReceiveCommand]
    split_ifs
    · exact (acceptOpcode_shiftRegisters x.cmdData b).imp_right fun h _ => h
    · simp
  | sync => rw [stateRule_sync hs, onSync]; split_ifs <;> simp
  | receiveCount1 => rw [stateRule_receiveCount1 hs, onReceiveCount1]; split_ifs <;> simp
  | receiveCount2 => rw [stateRule_receiveCount2 hs, onReceiveCount2]; split_ifs <;> simp
  | delay => rw [stateRule_delay hs, onDelay]; split_ifs <;> simp
  | countCheck => rw [stateRule_countCheck hs, onCountCheck]; simp
  | receiveData =>
    rw [stateRule_receiveData hs, onReceiveData]
    refine ⟨?_, fun h => absurd rfl h⟩
    cases p.underrun <;> split_ifs <;> rfl
  | transfer => rw [stateRule_transfer hs, onTransfer]; split_ifs <;> simp
  | sendData => rw [stateRule_sendData hs, onSendData]; split_ifs <;> simp

/-- What a running tick does to the shift registers. -/
theorem tick_shiftRegisters {s : State} (hf : s.fault = none) (hr : s.input.rst = none) :
    (tick s).core.shregI = (shiftRegs s.params s.sync2 s.core).shregI ∧
      (s.core.state ≠ .receiveData →
        (tick s).core.shregO = (shiftRegs s.params s.sync2 s.core).shregO) := by
  rw [tick_of_running hr hf]
  exact stateRule_shiftRegisters s.params s.coreIn s.core (busUpdate s.params s.sync2 s.core)

/-! ### One shift, bit by bit -/

theorem shiftOutLeft_bit_zero (v : Byte) : (shiftOutLeft v).getLsbD 0 = false := by
  simp [shiftOutLeft]

theorem shiftOutLeft_bit_succ (v : Byte) {j : Nat} (hj : j < 7) :
    (shiftOutLeft v).getLsbD (j + 1) = v.getLsbD j := by
  have hbit : j + 1 < 8 := by omega
  rw [shiftOutLeft, BitVec.getLsbD_shiftLeft]
  simp [hbit]

theorem shiftInLeft_bit_zero (v : Byte) (bit : Bool) : (shiftInLeft v bit).getLsbD 0 = bit := by
  cases bit <;> simp [shiftInLeft]

theorem shiftInLeft_bit_succ (v : Byte) (bit : Bool) {j : Nat} (hj : j < 7) :
    (shiftInLeft v bit).getLsbD (j + 1) = v.getLsbD j := by
  have hbit : j + 1 < 8 := by omega
  rw [shiftInLeft, BitVec.getLsbD_or, BitVec.getLsbD_shiftLeft]
  cases bit <;> simp [hbit]

/-- No event comes in `RECEIVE_DATA` of a well-formed machine: the bus is at rest there. -/
theorem state_ne_receiveData_of_event {s : State}
    (h : s.core.state ≠ .receiveData ∨ s.params.Valid ∧ s.Inv)
    (hevent : setupEvent s.params s.core = true ∨ latchEvent s.params s.core = true) :
    s.core.state ≠ .receiveData := by
  refine h.elim id fun ⟨hv, hi⟩ hs => ?_
  have hrest : s.core.BusAtRest s.params := (hi hv).rest (by simp [hs])
  simp [hrest.setup, hrest.latch] at hevent

/-- Settles O25: outside `RECEIVE_DATA` the tick shifts what the event names, and in `RECEIVE_DATA` the bus is
at rest. -/
theorem shiftRegistersFollowTheEvents : Obligations.ShiftRegistersFollowTheEvents := by
  intro s hf hr hstate
  obtain ⟨hI, hO⟩ := tick_shiftRegisters hf hr
  refine ⟨fun hset => ?_, fun hlat => ?_, fun hset hlat => ?_⟩
  · rw [hI, hO (state_ne_receiveData_of_event hstate (.inl hset)), shiftRegs_of_setup hset]
    exact ⟨shiftOutLeft_bit_zero _, fun _ hj => shiftOutLeft_bit_succ _ hj, rfl⟩
  · rw [hI, hO (state_ne_receiveData_of_event hstate (.inr hlat)), shiftRegs_of_latch hlat]
    exact ⟨shiftInLeft_bit_zero _ _, fun _ hj => shiftInLeft_bit_succ _ _ hj, rfl⟩
  · rw [shiftRegs_of_no_event hset hlat] at hI hO
    exact ⟨hI, hO⟩

end Sys2Proof.Machine

/-! A command of a single byte (rules R163, R200, R201): at a frame boundary the core's answer is that of the
opcode, and a command whose opcode leaves the core there is over after one tick. -/

namespace Sys2Proof.Machine

theorem State.Ready.deliver {s : State} (h : s.Ready) (bs : List Byte) : (s.deliver bs).Ready := h

@[simp] theorem outputs_csN (s : State) : (outputs s).csN = !s.core.cs := rfl
@[simp] theorem outputs_csOe (s : State) : (outputs s).csOe = s.core.oe := rfl

theorem acceptOpcode_select (level : Bool) (b : Regs) :
    acceptOpcode (0x00 ||| operandBit level) b =
      { regs := { b with cs := level, cmd := 0x00 ||| operandBit level }, pop := true,
        events := [.cs level] } := by
  simp only [acceptOpcode, lookupOpcode_select, operandOf_select]

/-- Rule R163: a core that can take a command and sees a byte answers as the byte's opcode says, on top of the
registers as they are. -/
theorem coreStep_of_ready {s : State} (h : s.Ready) {b : Byte} {rest : List Byte} (hq : s.cmdq = b :: rest) :
    coreStep s.params s.coreIn s.core = acceptOpcode b s.core := by
  obtain ⟨-, -, hs, hinv⟩ := h
  obtain ⟨hvalid, hdata⟩ := coreIn_of_cmdq_cons hq
  have hctr : s.core.ctr = 0 := hinv.ctr_zero (by simp [hs]) (by simp [hs])
  rw [coreStep_atRest (hinv.rest (by simp [hs])) (by simp [hs]), ← hctr, stateRule_receiveCommand hs,
    onReceiveCommand, if_pos hvalid, hdata]

/-- A command of one byte whose opcode records no fault and leaves the core at a frame boundary is complete
after one tick, and has done what the opcode's answer says. -/
theorem exec_completes_in_one_tick {i : Instr} {op : Byte} {s : State} {o : CoreOut} (henc : encode i = [op])
    (h : s.Ready) (hn : s.NoReset 1) (ho : acceptOpcode op s.core = o) (hpop : o.pop = true)
    (hfault : o.fault = none) (hstate : o.regs.state = .receiveCommand) :
    ∃ t, exec i s = .next t ∧ t.core = o.regs ∧
      CommandDone s t 1 1 o.push.toList (o.events.map fun e => (s.tickNo, e)) := by
  obtain ⟨hv, hf, -⟩ := id h
  have hstep := (coreStep_of_ready (h.deliver [op]) rfl).trans ho
  obtain ⟨hran, hcore⟩ := Ran.one (s := s.deliver [op]) (hn 0 one_pos) hf hstep hfault
    (if_pos hpop).symm (fun _ => List.cons_ne_nil op s.cmdq) rfl rfl
  have hend : (ticks 1 (s.deliver [op])).atBoundary = true := by
    simp [ticks_succ, State.atBoundary, hcore, hstate]
  have hbudget : 1 ≤ ticksNeeded s.params i + s.inputs.length :=
    Nat.le_add_right_of_le (ticksNeeded_pos s.params i)
  refine ⟨_, ?_, hcore, hran.commandDone⟩
  rw [exec_eq_runCommand, henc]
  exact runCommand_eq_ticks hv hf one_pos hbudget (fun j h0 h1 => by omega) hend

/-- Settles O40: the opcode's answer writes `cs` and `cmd`, and the pin shows the inverted register. -/
theorem selectSetsChipSelect : Obligations.SelectSetsChipSelect := by
  intro level s h hn
  obtain ⟨-, -, hs, -⟩ := id h
  obtain ⟨t, hexec, hcore, hdone⟩ :=
    exec_completes_in_one_tick (i := .select level) rfl h hn (acceptOpcode_select level s.core) rfl rfl hs
  refine ⟨rfl, t, hexec, hcore, hdone, ?_, ?_⟩
  · simp [hcore]
  · simp [hcore, pinLevel]

end Sys2Proof.Machine

/-! The SHIFT of no bytes (rules R165, R166, R168, R215): the three ticks in which a frame's opcode and count are
read, and the tick of `COUNT_CHECK` that ends a command without a byte to move. -/

namespace Sys2Proof.Machine

/-! ### A command that has run to its end -/

/-- A run of the delivered frame that pops the frame and first comes back to a boundary at its end, within the
ticks the command may need, is the whole command. -/
theorem exec_of_ran {i : Instr} {s t : State} {k : Nat} {rsp : List Byte} {events : List (Nat × BusEvent)}
    (h : s.Ready) (hk : 0 < k) (hb : k ≤ ticksNeeded s.params i)
    (hran : Ran (s.deliver (encode i)) t k (encode i).length rsp events)
    (hmid : ∀ j, 0 < j → j < k → (ticks j (s.deliver (encode i))).atBoundary = false)
    (hend : t.core.state = .receiveCommand) :
    exec i s = .next t ∧ CommandDone s t k (encode i).length rsp events := by
  obtain ⟨hv, hf, -⟩ := h
  have hboundary : (ticks k (s.deliver (encode i))).atBoundary = true := by
    rw [← hran.isTicks, State.atBoundary, hend]; rfl
  refine ⟨?_, hran.commandDone⟩
  rw [exec_eq_runCommand, hran.isTicks]
  exact runCommand_eq_ticks hv hf hk (Nat.le_add_right_of_le hb) hmid hboundary

/-! ### Ticks with the clock still -/

/-- The clock is still: the bus at rest (rule R41) and the half-period counter at 0. -/
def State.Still (s : State) : Prop := s.core.BusAtRest s.params ∧ s.core.ctr = 0

theorem State.Ready.still {s : State} (h : s.Ready) : s.Still := by
  obtain ⟨-, -, hs, hinv⟩ := h
  exact ⟨hinv.rest (by simp [hs]), hinv.ctr_zero (by simp [hs]) (by simp [hs])⟩

/-- With the clock still the step of the core is the rule of its state, on the registers as they are. -/
theorem coreStep_of_still {s : State} (h : s.Still) (hs : s.core.state ≠ .transfer) :
    coreStep s.params s.coreIn s.core = stateRule s.params s.coreIn s.core s.core := by
  obtain ⟨hrest, hctr⟩ := h
  rw [coreStep_atRest hrest hs, ← hctr]

/-- The clock stays still through a tick that writes none of the bus registers. -/
theorem State.Still.of_core {s t : State} (h : s.Still) (hp : t.params = s.params) {st : Fsm} {cmd : Byte}
    {n : Count} (hc : t.core = { s.core with state := st, cmd := cmd, count := n }) : t.Still := by
  rw [State.Still, hp, hc]
  exact h

/-- One tick in which the core takes the byte that waits and does nothing else around it. -/
theorem ran_one_of_pop {s : State} {b : Byte} {rest : List Byte} {r : Regs} (hr : (s.inputAt 0).rst = none)
    (hf : s.fault = none) (hq : s.cmdq = b :: rest)
    (ho : coreStep s.params s.coreIn s.core = { regs := r, pop := true }) :
    Ran s (tick s) 1 1 [] [] ∧ (tick s).core = r ∧ (tick s).cmdq = rest ++ s.arrivals 1 := by
  obtain ⟨hran, hcore⟩ := Ran.one (pops := 1) hr hf ho rfl rfl (fun _ => by simp [hq]) rfl rfl
  exact ⟨hran, hcore, by rw [hran.cmdq, hq, List.drop_one, List.tail_cons]⟩

/-! ### The header of a frame with a count: `op`, `count_lo`, `count_hi` -/

/-- Rule R163: the five opcodes that a count follows. -/
theorem acceptOpcode_of_count {op : Byte} (hop : op ∈ ([0x10, 0x11, 0x12, 0x13, 0x20] : List Byte)) (b : Regs) :
    acceptOpcode op b = { regs := { b with cmd := op, state := .receiveCount1 }, pop := true } := by
  simp only [List.mem_cons, List.not_mem_nil, or_false] at hop
  rcases hop with rfl | rfl | rfl | rfl | rfl <;> rfl

/-- Rule R165, with the byte waiting. -/
theorem coreStep_of_receiveCount1 {s : State} {b : Byte} {rest : List Byte} (h : s.Still)
    (hs : s.core.state = .receiveCount1) (hq : s.cmdq = b :: rest) :
    coreStep s.params s.coreIn s.core =
      { regs := { s.core with count := setCountLo s.core.count b, state := .receiveCount2 }, pop := true } := by
  obtain ⟨hvalid, hdata⟩ := coreIn_of_cmdq_cons hq
  rw [coreStep_of_still h (by simp [hs]), stateRule_receiveCount1 hs, onReceiveCount1_of_valid hvalid, hdata]

/-- Rule R166, with the byte waiting. -/
theorem coreStep_of_receiveCount2 {s : State} {b : Byte} {rest : List Byte} (h : s.Still)
    (hs : s.core.state = .receiveCount2) (hq : s.cmdq = b :: rest) :
    coreStep s.params s.coreIn s.core =
      { regs := { s.core with count := setCountHi s.core.count b,
                              state := if selectorOf s.core.cmd = 0x2 then .delay else .countCheck },
        pop := true } := by
  obtain ⟨hvalid, hdata⟩ := coreIn_of_cmdq_cons hq
  rw [coreStep_of_still h (by simp [hs]), stateRule_receiveCount2 hs, onReceiveCount2_of_valid hvalid, hdata]

/-- Rules R163, R165, R166: with the three header bytes waiting, three ticks read them, and the core is then in
`DELAY` or `COUNT_CHECK` with the count assembled and every other register as it was. -/
theorem ran_header {s : State} {op lo hi : Byte} {rest : List Byte} (h : s.Ready) (hn : s.NoReset 3)
    (hop : op ∈ ([0x10, 0x11, 0x12, 0x13, 0x20] : List Byte)) (hq : s.cmdq = op :: lo :: hi :: rest) :
    ∃ t, Ran s t 3 3 [] [] ∧
      t.core = { s.core with cmd := op, count := countOf lo hi,
                             state := if selectorOf op = 0x2 then .delay else .countCheck } ∧
      ∀ j, 0 < j → j ≤ 3 → (ticks j s).atBoundary = false := by
  obtain ⟨-, hf, -⟩ := id h
  obtain ⟨hran₁, hcore₁, hq₁⟩ := ran_one_of_pop (hn 0 (by omega)) hf hq
    ((coreStep_of_ready h hq).trans (acceptOpcode_of_count hop s.core))
  have hstill₁ : (tick s).Still := h.still.of_core hran₁.params hcore₁
  obtain ⟨hran₂, hcore₂, hq₂⟩ := ran_one_of_pop (tick_inputAt s 0 ▸ hn 1 (by omega)) hran₁.fault hq₁
    (coreStep_of_receiveCount1 hstill₁ (by rw [hcore₁]) hq₁)
  have hstill₂ : (tick (tick s)).Still := hstill₁.of_core hran₂.params hcore₂
  obtain ⟨hran₃, hcore₃, -⟩ := ran_one_of_pop (ticks_inputAt 2 s 0 ▸ hn 2 (by omega)) hran₂.fault hq₂
    (coreStep_of_receiveCount2 hstill₂ (by rw [hcore₂]) hq₂)
  have hlen : 3 ≤ s.cmdq.length := by simp [hq]
  refine ⟨_, (hran₁.trans hran₂ (by omega)).trans hran₃ hlen, ?_, fun j h0 h3 => ?_⟩
  · rw [hcore₃, hcore₂, hcore₁, setCount_both]
  · interval_cases j
    · simp [ticks_succ, State.atBoundary, hcore₁]
    · simp [ticks_succ, State.atBoundary, hcore₂]
    · simp only [ticks_succ, ticks_zero, State.atBoundary, hcore₃]
      split_ifs <;> rfl

/-! ### `COUNT_CHECK` with nothing to move -/

/-- Rule R168: with `count = 0` the core is back at a frame boundary after one tick, and nothing else happens. -/
theorem ran_countCheck_of_zero {s : State} (hr : (s.inputAt 0).rst = none) (hf : s.fault = none) (h : s.Still)
    (hs : s.core.state = .countCheck) (hc : s.core.count = 0) :
    Ran s (tick s) 1 0 [] [] ∧ (tick s).core = { s.core with state := .receiveCommand } := by
  have hstep : coreStep s.params s.coreIn s.core = { regs := { s.core with state := .receiveCommand } } := by
    rw [coreStep_of_still h (by simp [hs]), stateRule_countCheck hs, onCountCheck, if_pos hc]
  exact Ran.one hr hf hstep rfl rfl nofun rfl rfl

/-- A command whose frame is a SHIFT opcode and the count 0 is over after its header and `COUNT_CHECK`. -/
theorem exec_of_empty_shift {i : Instr} {op : Byte} {s : State} (henc : encode i = [op, 0, 0])
    (hop : op ∈ ([0x10, 0x11, 0x12, 0x13] : List Byte)) (hb : 4 ≤ ticksNeeded s.params i) (h : s.Ready)
    (hn : s.NoReset 4) :
    ∃ t, exec i s = .next t ∧ t.core = { s.core with cmd := op, count := 0 } ∧ CommandDone s t 4 3 [] [] := by
  obtain ⟨-, -, hs, -⟩ := id h
  have hcount : op ∈ ([0x10, 0x11, 0x12, 0x13, 0x20] : List Byte) := List.mem_append_left [0x20] hop
  have hshift : selectorOf op ≠ 0x2 :=
    (by decide : ∀ op ∈ ([0x10, 0x11, 0x12, 0x13] : List Byte), selectorOf op ≠ 0x2) op hop
  obtain ⟨t, hran, hcore, hmid⟩ := ran_header (h.deliver (encode i)) (fun j hj => hn j (by omega)) hcount
    (congrArg (· ++ s.cmdq) henc)
  rw [if_neg hshift] at hcore
  obtain ⟨hran', hcore'⟩ := ran_countCheck_of_zero (s := t)
    (by rw [hran.isTicks, ticks_inputAt]; exact hn 3 (by omega)) hran.fault
    ((h.deliver (encode i)).still.of_core hran.params hcore) (by rw [hcore]) (by rw [hcore]; rfl)
  have hlen : (encode i).length = 3 := congrArg List.length henc
  have hwhole : Ran (s.deliver (encode i)) (tick t) 4 (encode i).length [] [] := by
    rw [hlen]
    exact hran.trans_quiet hran'
  obtain ⟨hexec, hdone⟩ := exec_of_ran h four_pos hb hwhole (fun j h0 h4 => hmid j h0 (by omega)) (by rw [hcore'])
  refine ⟨tick t, hexec, ?_, hlen ▸ hdone⟩
  rw [hcore', hcore, ← hs]
  rfl

/-- Settles O44: each of the four frames is its opcode and the count 0, and the command has four ticks at
least. -/
theorem shiftOfNothingIsANoOp : Obligations.ShiftOfNothingIsANoOp := by
  intro s i op h hn hmem
  simp only [List.mem_cons, List.not_mem_nil, or_false, Prod.mk.injEq] at hmem
  have hb (p : Params) : 4 ≤ shiftTicks p 0 := Nat.le_add_right 4 _
  rcases hmem with ⟨rfl, rfl⟩ | ⟨rfl, rfl⟩ | ⟨rfl, rfl⟩ | ⟨rfl, rfl⟩ <;>
    exact exec_of_empty_shift rfl (by decide) (hb s.params) h hn

end Sys2Proof.Machine

/-! SYNC (rules R163, R164, R250): the tick that reads the opcode, the ticks that wait for room in the response
stream, and the tick that pushes the zero byte. -/

namespace Sys2Proof.Machine

theorem acceptOpcode_sync (b : Regs) :
    acceptOpcode 0x30 b = { regs := { b with cmd := 0x30, state := .sync }, pop := true } := rfl

/-- With the clock still the step of the core in `SYNC` is the rule R164, on the registers as they are. -/
theorem coreStep_of_sync {s : State} (h : s.Still) (hs : s.core.state = .sync) :
    coreStep s.params s.coreIn s.core = onSync s.coreIn s.core := by
  rw [coreStep_of_still h (by simp [hs]), stateRule_sync hs]

/-- Rule R164: for as long as the response stream has no room, `SYNC` keeps every register and nothing else
happens. -/
theorem ran_sync_of_not_ready {s : State} (hf : s.fault = none) (h : s.Still) (hs : s.core.state = .sync)
    {j : Nat} (hn : s.NoReset j) (hstall : ∀ i, i < j → (s.inputAt i).rspReady = false) :
    Ran s (ticks j s) j 0 [] [] ∧ (ticks j s).core = s.core := by
  induction j with
  | zero => exact ⟨Ran.refl hf, rfl⟩
  | succ j ih =>
    obtain ⟨hran, hcore⟩ := ih (fun i hi => hn i (by omega)) (fun i hi => hstall i (by omega))
    have hstill : (ticks j s).Still := h.of_core hran.params hcore
    have hwait : (ticks j s).coreIn.rspReady = false := by
      rw [coreIn_rspReady, ticks_input]
      exact hstall j (by omega)
    obtain ⟨hran', hcore'⟩ := Ran.one (pops := 0) (ticks_inputAt j s 0 ▸ hn j (by omega)) hran.fault
      ((coreStep_of_sync hstill (by rw [hcore, hs])).trans (onSync_of_not_ready hwait _)) rfl rfl nofun rfl rfl
    rw [ticks_succ']
    exact ⟨hran.trans_quiet hran', hcore'.trans hcore⟩

/-- Rule R164: with room in the response stream, one tick pushes a zero byte and ends `SYNC`. -/
theorem ran_sync_of_ready {s : State} (hr : (s.inputAt 0).rst = none) (hf : s.fault = none) (h : s.Still)
    (hs : s.core.state = .sync) (hready : (s.inputAt 0).rspReady = true) :
    Ran s (tick s) 1 0 [0x00] [] ∧ (tick s).core = { s.core with state := .receiveCommand } := by
  have hroom : s.coreIn.rspReady = true := by rwa [coreIn_rspReady, ← inputAt_zero]
  exact Ran.one hr hf ((coreStep_of_sync h hs).trans (onSync_of_ready hroom _)) rfl rfl nofun rfl rfl

/-- The whole SYNC, its opcode waiting: opcode, `j` ticks without room, and the push. The core is away from a
boundary in between. -/
theorem ran_whole_sync {s : State} {j : Nat} {rest : List Byte} (h : s.Ready) (hn : s.NoReset (j + 2))
    (hq : s.cmdq = 0x30 :: rest) (hstall : ∀ i, i < j → (s.inputAt (i + 1)).rspReady = false)
    (hready : (s.inputAt (j + 1)).rspReady = true) :
    Ran s (ticks (j + 2) s) (j + 2) 1 [0x00] [] ∧ (ticks (j + 2) s).core = { s.core with cmd := 0x30 } ∧
      ∀ i, 0 < i → i < j + 2 → (ticks i s).atBoundary = false := by
  obtain ⟨-, hf, hs, -⟩ := id h
  obtain ⟨hran₁, hcore₁, -⟩ := ran_one_of_pop (hn 0 (by omega)) hf hq
    ((coreStep_of_ready h hq).trans (acceptOpcode_sync s.core))
  have hstill₁ : (tick s).Still := h.still.of_core hran₁.params hcore₁
  have hwaiting (i : Nat) (hi : i ≤ j) :
      Ran (tick s) (ticks i (tick s)) i 0 [] [] ∧ (ticks i (tick s)).core = (tick s).core :=
    ran_sync_of_not_ready hran₁.fault hstill₁ (by rw [hcore₁])
      (fun m hm => by rw [tick_inputAt]; exact hn (m + 1) (by omega))
      (fun m hm => by rw [tick_inputAt]; exact hstall m (by omega))
  obtain ⟨hran₂, hcore₂⟩ := hwaiting j le_rfl
  have hlast : (ticks j (tick s)).inputAt 0 = s.inputAt (j + 1) := by rw [ticks_inputAt, tick_inputAt]
  obtain ⟨hran₃, hcore₃⟩ := ran_sync_of_ready (hlast ▸ hn (j + 1) (by omega)) hran₂.fault
    (hstill₁.of_core hran₂.params hcore₂) (by rw [hcore₂, hcore₁]) (hlast ▸ hready)
  rw [ticks_succ', ticks_succ]
  refine ⟨?_, ?_, fun i h0 hi => ?_⟩
  · have hlen : 1 + j + 1 = j + 2 := by omega
    exact hlen ▸ (hran₁.trans_quiet hran₂).trans_quiet hran₃
  · rw [hcore₃, hcore₂, hcore₁, ← hs]
  · obtain ⟨i, rfl⟩ := Nat.exists_eq_succ_of_ne_zero h0.ne'
    rw [ticks_succ, State.atBoundary, (hwaiting i (by omega)).2, hcore₁]
    rfl

/-- Settles O42: the ticks that the script lists as stalls are within the budget of the command. -/
theorem syncPushesOneZeroByte : Obligations.SyncPushesOneZeroByte := by
  intro s j h hn hj hstall hready
  obtain ⟨hv, hf, hs, -⟩ := id h
  obtain ⟨hran, hcore, hmid⟩ := ran_whole_sync (h.deliver (encode .sync)) hn rfl hstall hready
  have hend : (ticks (j + 2) (s.deliver (encode .sync))).atBoundary = true := by
    rw [State.atBoundary, hcore, deliver_core, hs]; rfl
  have hbudget : j + 2 ≤ ticksNeeded s.params .sync + s.inputs.length := by
    rw [ticksNeeded, syncTicks]; omega
  refine ⟨rfl, _, ?_, hcore, hran.commandDone⟩
  rw [exec_eq_runCommand]
  exact runCommand_eq_ticks hv hf (by omega) hbudget hmid hend

end Sys2Proof.Machine

/-! OE (rule R260): the command of one byte that writes the drive enable of the chip-select pin. -/

namespace Sys2Proof.Machine

/-- Rule R122: the two drive enables do not look at `oe`. -/
theorem outputs_clock_and_data_driven (s : State) : (outputs s).sckOe = true ∧ (outputs s).doutOe = true :=
  ⟨rfl, rfl⟩

theorem acceptOpcode_oe (enable : Bool) (b : Regs) :
    acceptOpcode (0x40 ||| operandBit enable) b =
      { regs := { b with oe := enable, cmd := 0x40 ||| operandBit enable }, pop := true,
        events := [.oe enable] } := by
  simp only [acceptOpcode, lookupOpcode_oe, operandOf_oe]

/-- Settles O41: the opcode's answer writes `oe` and `cmd`, and of the three pins only chip-select looks at
`oe`. -/
theorem oeSetsTheDriverEnable : Obligations.OeSetsTheDriverEnable := by
  intro enable s h hn
  obtain ⟨-, -, hs, -⟩ := id h
  obtain ⟨t, hexec, hcore, hdone⟩ :=
    exec_completes_in_one_tick (i := .oe enable) rfl h hn (acceptOpcode_oe enable s.core) rfl rfl hs
  obtain ⟨hsck, hdout⟩ := outputs_clock_and_data_driven t
  refine ⟨rfl, t, hexec, hcore, hdone, ?_, hsck, hdout, ?_⟩
  · simp [hcore]
  · simp [hcore, pinLevel]

end Sys2Proof.Machine

/-! Reading commands back (rules R91, R93, R101, R104): the decoder on the bytes of one command, what it takes
for a frame, and a program frame by frame. -/

namespace Sys2Proof.Machine

/-! ### From the command to its bytes and back -/

theorem decode_f3_halves (op : Opcode) {b mask value : Byte} (h : lookupOpcode b = some ⟨op, mask, value, .f3⟩)
    (n : Count) (rest : List Byte) :
    decode (b :: countLo n :: countHi n :: rest) = .frame (instrOf op b n []) rest := by
  rw [decode_f3 op h, countOf_halves]

theorem decode_f3p_halves (op : Opcode) {b mask value : Byte}
    (h : lookupOpcode b = some ⟨op, mask, value, .f3p⟩) {n : Count} {payload : List Byte}
    (hlen : payload.length = n.toNat) (rest : List Byte) :
    decode (b :: countLo n :: countHi n :: (payload ++ rest)) = .frame (instrOf op b n payload) rest := by
  rw [decode_f3p op h (by rwa [countOf_halves]), countOf_halves]

theorem shiftOut_wf_iff (n : Count) (payload : List Byte) :
    (Instr.shiftOut n payload).WF ↔ payload.length = n.toNat := by
  simp [Instr.WF, Instr.wellFormed]

theorem shiftIo_wf_iff (n : Count) (payload : List Byte) :
    (Instr.shiftIo n payload).WF ↔ payload.length = n.toNat := by
  simp [Instr.WF, Instr.wellFormed]

/-- Settles O4: each command's bytes are an opcode of the table, its count in two halves, and a payload as long
as the count says. -/
theorem decodeOfEncodeIsTheCommand : Obligations.DecodeOfEncodeIsTheCommand := by
  intro i rest hwf
  cases i with
  | select level => cases level <;> exact decode_f1 .select rfl rest
  | shiftNone n => exact decode_f3_halves .shiftNone rfl n rest
  | shiftOut n payload => exact decode_f3p_halves .shiftOut rfl ((shiftOut_wf_iff n payload).mp hwf) rest
  | shiftIn n => exact decode_f3_halves .shiftIn rfl n rest
  | shiftIo n payload => exact decode_f3p_halves .shiftIo rfl ((shiftIo_wf_iff n payload).mp hwf) rest
  | delay n => exact decode_f3_halves .delay rfl n rest
  | sync => exact decode_f1 .sync rfl rest
  | oe enable => cases enable <;> exact decode_f1 .oe rfl rest

/-! ### What the decoder takes for a frame -/

/-- An F1 frame is its opcode byte. -/
theorem frame_of_decode_f1 {op : Opcode} {b mask value : Byte} (h : lookupOpcode b = some ⟨op, mask, value, .f1⟩)
    {bs rest : List Byte} {i : Instr} (hd : decode (b :: bs) = .frame i rest) :
    i = instrOf op b 0 [] ∧ bs = rest := by
  rw [decode_f1 op h, Decoded.frame.injEq] at hd
  exact ⟨hd.1.symm, hd.2⟩

/-- An F3 frame is its opcode byte and two count bytes. -/
theorem frame_of_decode_f3 {op : Opcode} {b mask value : Byte} (h : lookupOpcode b = some ⟨op, mask, value, .f3⟩)
    {bs rest : List Byte} {i : Instr} (hd : decode (b :: bs) = .frame i rest) :
    ∃ n : Count, i = instrOf op b n [] ∧ bs = countLo n :: countHi n :: rest := by
  match bs with
  | [] => simp [decode, h] at hd
  | [lo] => simp [decode, h] at hd
  | lo :: hi :: bs =>
    rw [decode_f3 op h, Decoded.frame.injEq] at hd
    obtain ⟨rfl, rfl⟩ := hd
    exact ⟨countOf lo hi, rfl, by rw [countLo_countOf, countHi_countOf]⟩

/-- A payload that is taken has the length asked for and stands at the head. -/
theorem takePayload_eq_some {n : Nat} {bs payload rest : List Byte} (h : takePayload n bs = some (payload, rest)) :
    payload.length = n ∧ bs = payload ++ rest := by
  induction n generalizing bs payload with
  | zero =>
    obtain ⟨rfl, rfl⟩ := Prod.mk.inj (Option.some.inj h)
    exact ⟨rfl, rfl⟩
  | succ n ih =>
    match bs with
    | [] => simp [takePayload] at h
    | b :: bs =>
      obtain ⟨⟨tail, behind⟩, htail, heq⟩ := Option.map_eq_some_iff.mp h
      obtain ⟨rfl, rfl⟩ := Prod.mk.inj heq
      obtain ⟨hlen, hbs⟩ := ih htail
      exact ⟨congrArg Nat.succ hlen, congrArg (b :: ·) hbs⟩

/-- An F3P frame is its opcode byte, two count bytes and as many payload bytes as they say. -/
theorem frame_of_decode_f3p {op : Opcode} {b mask value : Byte}
    (h : lookupOpcode b = some ⟨op, mask, value, .f3p⟩) {bs rest : List Byte} {i : Instr}
    (hd : decode (b :: bs) = .frame i rest) :
    ∃ (n : Count) (payload : List Byte), payload.length = n.toNat ∧ i = instrOf op b n payload ∧
      bs = countLo n :: countHi n :: (payload ++ rest) := by
  match bs with
  | [] => simp [decode, h] at hd
  | [lo] => simp [decode, h] at hd
  | lo :: hi :: bs =>
    simp only [decode, h] at hd
    cases hp : takePayload (countOf lo hi).toNat bs with
    | none => simp [hp] at hd
    | some taken =>
      simp only [hp, Decoded.frame.injEq] at hd
      obtain ⟨rfl, rfl⟩ := hd
      obtain ⟨hlen, rfl⟩ := takePayload_eq_some hp
      exact ⟨countOf lo hi, taken.1, hlen, rfl, by rw [countLo_countOf, countHi_countOf]⟩

theorem encode_length {i : Instr} (h : i.WF) : (encode i).length = frameLength i := by
  cases i with
  | select level => exact (Laws.FrameLength.select level h).1
  | shiftNone n => exact (Laws.FrameLength.shiftNone n h).1
  | shiftOut n payload => exact (Laws.FrameLength.shiftOut n payload h).1
  | shiftIn n => exact (Laws.FrameLength.shiftIn n h).1
  | shiftIo n payload => exact (Laws.FrameLength.shiftIo n payload h).1
  | delay n => exact (Laws.FrameLength.delay n h).1
  | sync => exact (Laws.FrameLength.sync h).1
  | oe enable => exact (Laws.FrameLength.oe enable h).1

/-- What decodes is a well-formed command with its own bytes at the head of the stream. -/
theorem wf_and_encode_of_decode {bs rest : List Byte} {i : Instr} (hd : decode bs = .frame i rest) :
    i.WF ∧ bs = encode i ++ rest := by
  match bs with
  | [] => simp [decode] at hd
  | b :: bs =>
    by_cases hb : b ∈ ([0x00, 0x01, 0x10, 0x11, 0x12, 0x13, 0x20, 0x30, 0x40, 0x41] : List Byte)
    · simp only [List.mem_cons, List.not_mem_nil, or_false] at hb
      obtain rfl | rfl | rfl | rfl | rfl | rfl | rfl | rfl | rfl | rfl := hb
      · obtain ⟨rfl, rfl⟩ := frame_of_decode_f1 (op := .select) rfl hd
        exact ⟨rfl, rfl⟩
      · obtain ⟨rfl, rfl⟩ := frame_of_decode_f1 (op := .select) rfl hd
        exact ⟨rfl, rfl⟩
      · obtain ⟨n, rfl, rfl⟩ := frame_of_decode_f3 (op := .shiftNone) rfl hd
        exact ⟨rfl, rfl⟩
      · obtain ⟨n, payload, hlen, rfl, rfl⟩ := frame_of_decode_f3p (op := .shiftOut) rfl hd
        exact ⟨(shiftOut_wf_iff n payload).mpr hlen, rfl⟩
      · obtain ⟨n, rfl, rfl⟩ := frame_of_decode_f3 (op := .shiftIn) rfl hd
        exact ⟨rfl, rfl⟩
      · obtain ⟨n, payload, hlen, rfl, rfl⟩ := frame_of_decode_f3p (op := .shiftIo) rfl hd
        exact ⟨(shiftIo_wf_iff n payload).mpr hlen, rfl⟩
      · obtain ⟨n, rfl, rfl⟩ := frame_of_decode_f3 (op := .delay) rfl hd
        exact ⟨rfl, rfl⟩
      · obtain ⟨rfl, rfl⟩ := frame_of_decode_f1 (op := .sync) rfl hd
        exact ⟨rfl, rfl⟩
      · obtain ⟨rfl, rfl⟩ := frame_of_decode_f1 (op := .oe) rfl hd
        exact ⟨rfl, rfl⟩
      · obtain ⟨rfl, rfl⟩ := frame_of_decode_f1 (op := .oe) rfl hd
        exact ⟨rfl, rfl⟩
    · rw [decode_of_lookupOpcode_eq_none (lookupOpcode_eq_none_of_not_mem hb)] at hd
      cases hd

/-- Settles O5: the format of each of the ten opcodes says where its frame ends. -/
theorem encodeOfDecodeIsTheBytes : Obligations.EncodeOfDecodeIsTheBytes := by
  intro bytes i rest hd
  obtain ⟨hwf, hbytes⟩ := wf_and_encode_of_decode hd
  exact ⟨hwf, hbytes, encode_length hwf⟩

/-! ### A program, frame by frame -/

theorem encode_ne_nil (i : Instr) : encode i ≠ [] := by
  cases i <;> simp [encode]

theorem assemble_cons_eq_some {i : Instr} {is : List Instr} {bytes : List Byte}
    (h : assemble (i :: is) = some bytes) :
    i.WF ∧ ∃ behind, assemble is = some behind ∧ bytes = encode i ++ behind := by
  rw [assemble] at h
  split_ifs at h with hwf
  obtain ⟨behind, hbehind, rfl⟩ := Option.map_eq_some_iff.mp h
  exact ⟨hwf, behind, hbehind, rfl⟩

/-- One frame of a well-formed command is read, whatever follows. -/
theorem disassembleWith_encode_append {i : Instr} (hwf : i.WF) (fuel : Nat) (behind : List Byte) :
    disassembleWith (fuel + 1) (encode i ++ behind) = (disassembleWith fuel behind).map (i :: ·) := by
  rw [disassembleWith, decodeOfEncodeIsTheCommand i behind hwf]
  simp [encode_ne_nil]

theorem disassembleWith_of_assemble {program : List Instr} {bytes : List Byte}
    (h : assemble program = some bytes) {fuel : Nat} (hfuel : bytes.length ≤ fuel) :
    disassembleWith fuel bytes = some program := by
  induction program generalizing bytes fuel with
  | nil => cases h; cases fuel <;> rfl
  | cons i is ih =>
    obtain ⟨hwf, behind, hbehind, rfl⟩ := assemble_cons_eq_some h
    have hpos : 0 < (encode i).length := List.length_pos_iff.mpr (encode_ne_nil i)
    rw [List.length_append] at hfuel
    obtain ⟨fuel, rfl⟩ : ∃ m, fuel = m + 1 := ⟨fuel - 1, by omega⟩
    rw [disassembleWith_encode_append hwf, ih hbehind (by omega), Option.map_some]

/-- Settles O6: every frame has a byte at least, so as many frames as bytes are enough. -/
theorem disassembleOfAssembleIsTheProgram : Obligations.DisassembleOfAssembleIsTheProgram :=
  fun _ _ h => disassembleWith_of_assemble h le_rfl

/-! ### Fixed values -/

/-- Settles O2. -/
theorem workedEncodingsDecode : Obligations.WorkedEncodingsDecode := by
  unfold Obligations.WorkedEncodingsDecode
  decide

theorem countOf_toNat (lo hi : Byte) : (countOf lo hi).toNat = 256 * hi.toNat + lo.toNat := by
  have hlo := lo.isLt
  rw [countOf, BitVec.toNat_append, Nat.shiftLeft_eq, Nat.mul_comm, ← Nat.two_pow_add_eq_or_of_lt hlo]

/-- Settles O3: appending a byte below shifts by eight places, and the two half writes make that word. -/
theorem countIsLittleEndian : Obligations.CountIsLittleEndian :=
  fun lo hi c => ⟨countOf_toNat lo hi, setCount_both c lo hi⟩

end Sys2Proof.Machine

/-! The step as a run of ticks (log entry 1): what a command's run and a step can be, each said once. -/

namespace Sys2Proof.Machine

theorem inReset_eq_true_iff (s : State) : s.inReset = true ↔ s.input.rst ≠ none := by
  simp [State.inReset, Option.isSome_iff_ne_none]

theorem inReset_eq_false_iff (s : State) : s.inReset = false ↔ s.input.rst = none := by
  simp [State.inReset]

theorem atBoundary_iff (s : State) : s.atBoundary = true ↔ s.core.state = .receiveCommand := by
  simp [State.atBoundary]

theorem atBoundary_eq_false_iff (s : State) : s.atBoundary = false ↔ s.core.state ≠ .receiveCommand := by
  simp [State.atBoundary]

/-! ### A run to a boundary, with the ticks on the way -/

/-- `t` is `s` after `k` ticks, at least one, with no frame boundary on the way. -/
structure FirstStretch (s t : State) (k : Nat) : Prop where
  pos     : 0 < k
  isTicks : t = ticks k s
  between : ∀ j, 0 < j → j < k → (ticks j s).atBoundary = false

theorem firstStretch_one (s : State) : FirstStretch s (tick s) 1 where
  pos     := one_pos
  isTicks := rfl
  between := fun j h0 h1 => by omega

theorem runToBoundary_is_firstStretch {budget : Nat} (hb : 0 < budget) (s : State) :
    ∃ k, k ≤ budget ∧ FirstStretch s (runToBoundary budget s) k := by
  induction budget generalizing s with
  | zero => omega
  | succ b ih =>
    by_cases hend : (tick s).atBoundary = true ∨ b = 0
    · refine ⟨1, by omega, ?_⟩
      have hrun : runToBoundary (b + 1) s = tick s := by
        rcases hend with h | rfl
        · simp [runToBoundary, h]
        · simp [runToBoundary]
      rw [hrun]
      exact firstStretch_one s
    · obtain ⟨hmid, hpos⟩ := not_or.mp hend
      obtain ⟨k, hk, hrun⟩ := ih (Nat.pos_of_ne_zero hpos) (tick s)
      refine ⟨k + 1, by omega, by omega, ?_, fun j h0 hj => ?_⟩
      · simp only [runToBoundary, hmid]
        exact hrun.isTicks
      · obtain ⟨j, rfl⟩ := Nat.exists_eq_succ_of_ne_zero h0.ne'
        rcases Nat.eq_zero_or_pos j with rfl | hj0
        · exact Bool.eq_false_iff.mpr hmid
        · exact hrun.between j hj0 (by omega)

/-- Everything a command that answers a next state can be. -/
theorem exec_next {i : Instr} {s t : State} (h : exec i s = .next t) :
    s.params.Valid ∧ (s.fault = none ∨ s.inReset = true) ∧
      ∃ k, k ≤ ticksNeeded s.params i + s.inputs.length ∧ FirstStretch (s.deliver (encode i)) t k := by
  rw [exec_eq_runCommand] at h
  obtain ⟨hv, hf, rfl⟩ := guarded_next_iff.mp h
  exact ⟨hv, hf, runToBoundary_is_firstStretch (Nat.add_pos_left (ticksNeeded_pos s.params i) _) _⟩

/-- The ticks of a stretch are counted by `clock`. -/
theorem FirstStretch.clock_sub {s t : State} {k : Nat} (h : FirstStretch s t k) : t.clock - s.clock = k := by
  rw [h.isTicks, ticks_clock]
  omega

/-! ### The step -/

/-- Everything a fetch can answer: the frame's bytes stand at the head of the stream. -/
theorem fetch_eq_some {s s' : State} {i : Instr} (h : fetch s = some (i, s')) :
    s.core.state = .receiveCommand ∧ s.input.rst = none ∧ s.fault = none ∧ s'.deliver (encode i) = s ∧
      s'.params = s.params ∧ s'.inputs = s.inputs := by
  unfold fetch at h
  split_ifs at h with hgo
  simp only [Bool.and_eq_true, Bool.not_eq_true', Option.isNone_iff_eq_none, atBoundary_iff,
    inReset_eq_false_iff] at hgo
  obtain ⟨⟨hs, hr⟩, hf⟩ := hgo
  cases hd : decode s.cmdq with
  | frame j rest =>
    rw [hd] at h
    obtain ⟨rfl, rfl⟩ := Prod.mk.inj (Option.some.inj h)
    obtain ⟨-, hq⟩ := wf_and_encode_of_decode hd
    refine ⟨hs, hr, hf, ?_, rfl, rfl⟩
    simp only [State.deliver, ← hq]
  | short => simp [hd] at h
  | malformed b => simp [hd] at h

/-- A whole frame is fetched at a frame boundary, without reset and without a recorded fault. -/
theorem fetch_of_frame {s : State} {i : Instr} {rest : List Byte} (hs : s.core.state = .receiveCommand)
    (hf : s.fault = none) (hr : s.input.rst = none) (hd : decode s.cmdq = .frame i rest) :
    fetch s = some (i, { s with cmdq := rest }) := by
  simp [fetch, (atBoundary_iff s).mpr hs, (inReset_eq_false_iff s).mpr hr, hf, hd]

theorem fetch_eq_none {s : State} (h : s.core.state ≠ .receiveCommand ∨ s.inReset = true ∨ s.fault ≠ none ∨
    ∀ i rest, decode s.cmdq ≠ .frame i rest) : fetch s = none := by
  refine Option.eq_none_iff_forall_ne_some.mpr fun ⟨i, s'⟩ hfetch => ?_
  obtain ⟨hs, hr, hf, hq, -⟩ := fetch_eq_some hfetch
  rcases h with h | h | h | h
  · exact h hs
  · exact (inReset_eq_true_iff s).mp h hr
  · exact h hf
  · unfold fetch at hfetch
    split_ifs at hfetch
    split at hfetch
    next j rest hd => exact h j rest hd
    · cases hfetch

theorem step_of_fetch_eq_none {s : State} (h : fetch s = none) : step s = s.guarded (tick s) := by
  simp only [step, h, tickStep]

/-- Everything a step that answers a next state can be. -/
theorem step_next {s t : State} (h : step s = .next t) :
    s.params.Valid ∧ (s.fault = none ∨ s.inReset = true) ∧ ∃ k, FirstStretch s t k := by
  cases hfetch : fetch s with
  | none =>
    rw [step_of_fetch_eq_none hfetch] at h
    obtain ⟨hv, hf, rfl⟩ := guarded_next_iff.mp h
    exact ⟨hv, hf, 1, firstStretch_one s⟩
  | some fetched =>
    obtain ⟨i, s'⟩ := fetched
    obtain ⟨-, -, hf, hq, hp, -⟩ := fetch_eq_some hfetch
    simp only [step, hfetch] at h
    obtain ⟨hv, -, k, -, hrun⟩ := exec_next h
    rw [hq] at hrun
    exact ⟨hp ▸ hv, .inl hf, k, hrun⟩

/-- Settles O13: a fetched command's frame, put back, is the stream it was taken from. -/
theorem stepIsARunOfTicks : Obligations.StepIsARunOfTicks := by
  intro s t h
  obtain ⟨-, -, k, hrun⟩ := step_next h
  exact ⟨k, hrun.pos, hrun.isTicks⟩

/-- Settles O11. -/
theorem stepRunsTheDecodedCommand : Obligations.StepRunsTheDecodedCommand := by
  intro s i rest hs hf hr hd
  simp only [step, fetch_of_frame hs hf hr hd]

/-- Settles O12: nothing is fetched in any of the three cases. -/
theorem stepIsOneTickElsewhere : Obligations.StepIsOneTickElsewhere := by
  intro s hv hf h
  rw [step_of_fetch_eq_none (fetch_eq_none (h.imp_right (Or.imp_right .inr))), guarded_of_running hv hf]

end Sys2Proof.Machine

/-! The invariant (rules R41, R175): at reset, through one step of the core state by state, and through every
tick. -/

namespace Sys2Proof.Machine

theorem reset_inv {p : Params} (hv : p.Valid) : (Regs.reset p).Inv p := by
  obtain ⟨-, hdelay⟩ := hv
  exact ⟨Nat.zero_le 8, hdelay, fun _ => rfl, fun _ => ⟨rfl, rfl, rfl, rfl⟩, fun _ _ => rfl, trivial⟩

/-- Settles O49: the reset column rests the bus and clears the counters. -/
theorem resetSatisfiesTheInvariant : Obligations.ResetSatisfiesTheInvariant :=
  ⟨reset_inv, fun _ => reset_inv⟩

/-! ### The opcodes of each state -/

theorem selectorOf_eq_two_iff {cmd : Byte} (h : cmd ∈ ([0x10, 0x11, 0x12, 0x13, 0x20] : List Byte)) :
    selectorOf cmd = 0x2 ↔ cmd = 0x20 := by
  simp only [List.mem_cons, List.not_mem_nil, or_false] at h
  rcases h with rfl | rfl | rfl | rfl | rfl <;> decide

/-- Rule R92: which bytes an opcode of the table is. -/
theorem lookupOpcode_cases (b : Byte) :
    (∃ v, b = 0x00 ||| operandBit v) ∨ (∃ v, b = 0x40 ||| operandBit v) ∨ b = 0x30 ∨
      b ∈ ([0x10, 0x11, 0x12, 0x13, 0x20] : List Byte) ∨ lookupOpcode b = none := by
  by_cases hb : b ∈ ([0x00, 0x01, 0x10, 0x11, 0x12, 0x13, 0x20, 0x30, 0x40, 0x41] : List Byte)
  · simp only [List.mem_cons, List.not_mem_nil, or_false] at hb
    obtain rfl | rfl | rfl | rfl | rfl | rfl | rfl | rfl | rfl | rfl := hb
    · exact .inl ⟨false, rfl⟩
    · exact .inl ⟨true, rfl⟩
    · exact .inr (.inr (.inr (.inl (by decide))))
    · exact .inr (.inr (.inr (.inl (by decide))))
    · exact .inr (.inr (.inr (.inl (by decide))))
    · exact .inr (.inr (.inr (.inl (by decide))))
    · exact .inr (.inr (.inr (.inl (by decide))))
    · exact .inr (.inr (.inl rfl))
    · exact .inr (.inl ⟨false, rfl⟩)
    · exact .inr (.inl ⟨true, rfl⟩)
  · exact .inr (.inr (.inr (.inr (lookupOpcode_eq_none_of_not_mem hb))))

theorem acceptOpcode_malformed {byte : Byte} (h : lookupOpcode byte = none) (b : Regs) :
    acceptOpcode byte b = raiseFault (.malformedOpcode byte) { b with cmd := byte } true := by
  simp only [acceptOpcode, h, Option.map_none]

/-! ### The answers of `RECEIVE_DATA` (rules R169 to R171) and of `SEND_DATA` (rule R173) -/

theorem onReceiveData_of_wait {x : CoreIn} {r : Regs} (hd : dataIn r.cmd = false) (hx : x.cmdValid = false)
    (p : Params) (b : Regs) : onReceiveData p x r b = { regs := b } := by
  simp [onReceiveData, hd, hx]

theorem onReceiveData_of_underrun_draw {p : Params} {x : CoreIn} {r : Regs} (ho : dataOut r.cmd = true)
    (hd : dataIn r.cmd = true) (hx : x.cmdValid = false) (hp : p.underrun = .draw) (b : Regs) :
    onReceiveData p x r b = { regs := startByte x.cmdData r b, pop := true } := by
  simp [onReceiveData, ho, hd, hx, hp]

theorem onReceiveData_of_underrun_fault {p : Params} {x : CoreIn} {r : Regs} (ho : dataOut r.cmd = true)
    (hd : dataIn r.cmd = true) (hx : x.cmdValid = false) (hp : p.underrun = .fault) (b : Regs) :
    onReceiveData p x r b = raiseFault .cmdUnderrun b false := by
  simp [onReceiveData, ho, hd, hx, hp]

/-- Everything `RECEIVE_DATA` can answer. -/
theorem onReceiveData_cases (p : Params) (x : CoreIn) (r b : Regs) :
    (dataIn r.cmd = false ∧ x.cmdValid = false ∧ onReceiveData p x r b = { regs := b }) ∨
    (dataOut r.cmd = false ∧ onReceiveData p x r b = { regs := startByte 0x00 r b }) ∨
    (dataOut r.cmd = true ∧ onReceiveData p x r b = { regs := startByte x.cmdData r b, pop := true }) ∨
    (dataOut r.cmd = true ∧ dataIn r.cmd = true ∧ x.cmdValid = false ∧ p.underrun = .fault ∧
      onReceiveData p x r b = raiseFault .cmdUnderrun b false) := by
  cases hx : x.cmdValid with
  | true =>
    cases ho : dataOut r.cmd with
    | true => exact .inr (.inr (.inl ⟨rfl, onReceiveData_of_dataOut ho hx b⟩))
    | false => exact .inr (.inl ⟨rfl, onReceiveData_without_dataOut ho (.inr hx) b⟩)
  | false =>
    cases hd : dataIn r.cmd with
    | false => exact .inl ⟨rfl, rfl, onReceiveData_of_wait hd hx p b⟩
    | true =>
      cases ho : dataOut r.cmd with
      | false => exact .inr (.inl ⟨rfl, onReceiveData_without_dataOut ho (.inl hd) b⟩)
      | true =>
        cases hp : p.underrun with
        | draw => exact .inr (.inr (.inl ⟨rfl, onReceiveData_of_underrun_draw ho hd hx hp b⟩))
        | fault => exact .inr (.inr (.inr ⟨rfl, rfl, rfl, rfl, onReceiveData_of_underrun_fault ho hd hx hp b⟩))

/-- Where `SEND_DATA` goes: on to the next byte, or back to a frame boundary after the last. -/
def afterSend (r : Regs) : Fsm := if r.count = 0 then .receiveCommand else .receiveData

theorem onSendData_without_dataIn {r : Regs} (hd : dataIn r.cmd = false) (x : CoreIn) (b : Regs) :
    onSendData x r b = { regs := { b with state := afterSend r } } := by
  simp [onSendData, afterSend, hd]

theorem onSendData_of_room {x : CoreIn} {r : Regs} (hd : dataIn r.cmd = true) (hx : x.rspReady = true) (b : Regs) :
    onSendData x r b = { regs := { b with state := afterSend r }, push := some r.shregI } := by
  simp [onSendData, afterSend, hd, hx]

theorem onSendData_of_no_room {x : CoreIn} {r : Regs} (hd : dataIn r.cmd = true) (hx : x.rspReady = false)
    (b : Regs) : onSendData x r b = { regs := b } := by
  simp [onSendData, hd, hx]

/-- Everything `SEND_DATA` can answer. -/
theorem onSendData_cases (x : CoreIn) (r b : Regs) :
    (dataIn r.cmd = false ∧ onSendData x r b = { regs := { b with state := afterSend r } }) ∨
    (dataIn r.cmd = true ∧ x.rspReady = true ∧
      onSendData x r b = { regs := { b with state := afterSend r }, push := some r.shregI }) ∨
    (dataIn r.cmd = true ∧ x.rspReady = false ∧ onSendData x r b = { regs := b }) := by
  cases hd : dataIn r.cmd with
  | false => exact .inl ⟨rfl, onSendData_without_dataIn hd x b⟩
  | true =>
    cases hx : x.rspReady with
    | true => exact .inr (.inl ⟨rfl, rfl, onSendData_of_room hd hx b⟩)
    | false => exact .inr (.inr ⟨rfl, rfl, onSendData_of_no_room hd hx b⟩)

/-! ### The invariant outside `TRANSFER` -/

section
variable {p : Params} {r : Regs}

theorem Regs.Inv.bitno_le (h : r.Inv p) : r.bitno.toNat ≤ 8 := h.1

theorem Regs.Inv.timer_lt (h : r.Inv p) : r.timer < p.delayCyc := h.2.1

theorem Regs.Inv.timer_zero (h : r.Inv p) (hs : r.state ≠ .delay) : r.timer = 0 := h.2.2.1 hs

/-- At a frame boundary the invariant asks for the bus at rest and the counters cleared, of no opcode. -/
theorem Regs.inv_of_receiveCommand (hs : r.state = .receiveCommand) (hb : r.bitno.toNat ≤ 8)
    (hd : 0 < p.delayCyc) (ht : r.timer = 0) (hrest : r.BusAtRest p) (hctr : r.ctr = 0) : r.Inv p := by
  refine ⟨hb, ht ▸ hd, fun _ => ht, fun _ => hrest, fun _ _ => hctr, ?_⟩
  simp only [hs]

theorem Regs.Inv.opcode_of_sendData (h : r.Inv p) (hs : r.state = .sendData) :
    r.cmd ∈ ([0x10, 0x11, 0x12, 0x13] : List Byte) := by
  obtain ⟨-, -, -, -, -, hm⟩ := h
  rw [hs] at hm
  exact hm.1

/-- What a tick outside `TRANSFER` does in every state, the Clock Generator held, keeps the invariant. -/
theorem Regs.Inv.clear_ctr (h : r.Inv p) (hv : p.Valid) (hs : r.state ≠ .transfer) :
    ({ r with ctr := 0 } : Regs).Inv p := by
  by_cases hsend : r.state = .sendData
  · refine ⟨h.bitno_le, h.timer_lt, fun hd => h.timer_zero hd, fun _ => h.rest hs, fun _ _ => rfl, ?_⟩
    simp only [hsend]
    exact ⟨h.opcode_of_sendData hsend, by have := hv.1; omega⟩
  · rwa [← h.ctr_zero hs hsend]

theorem onReceiveCommand_inv (hv : p.Valid) (h : r.Inv p) (hs : r.state = .receiveCommand) (x : CoreIn) :
    (onReceiveCommand x { r with ctr := 0 }).regs.Inv p := by
  have hstay := h.clear_ctr hv (by simp [hs])
  have hrest := h.rest (by simp [hs])
  have ht := h.timer_zero (by simp [hs])
  have hboundary {r' : Regs} (hr : r' = { r with ctr := 0, cmd := r'.cmd, cs := r'.cs, oe := r'.oe }) :
      r'.Inv p := by
    rw [hr]
    exact Regs.inv_of_receiveCommand hs h.bitno_le hv.2 ht hrest rfl
  unfold onReceiveCommand
  split_ifs
  · rcases lookupOpcode_cases x.cmdData with ⟨v, hb⟩ | ⟨v, hb⟩ | hb | hb | hb
    · rw [hb, acceptOpcode_select]
      exact hboundary rfl
    · rw [hb, acceptOpcode_oe]
      exact hboundary rfl
    · rw [hb]
      exact ⟨h.bitno_le, h.timer_lt, fun _ => ht, fun _ => hrest, fun _ _ => rfl, rfl⟩
    · rw [acceptOpcode_of_count hb]
      exact ⟨h.bitno_le, h.timer_lt, fun _ => ht, fun _ => hrest, fun _ _ => rfl, hb⟩
    · rw [acceptOpcode_malformed hb]
      exact hboundary rfl
  · exact hstay

theorem onSync_inv (hv : p.Valid) (h : r.Inv p) (hs : r.state = .sync) (x : CoreIn) :
    (onSync x { r with ctr := 0 }).regs.Inv p := by
  unfold onSync
  split_ifs
  · exact Regs.inv_of_receiveCommand rfl h.bitno_le hv.2 (h.timer_zero (by simp [hs])) (h.rest (by simp [hs])) rfl
  · exact h.clear_ctr hv (by simp [hs])

theorem onReceiveCount1_inv (hv : p.Valid) (h : r.Inv p) (hs : r.state = .receiveCount1) (x : CoreIn) :
    (onReceiveCount1 x r { r with ctr := 0 }).regs.Inv p := by
  obtain ⟨-, -, -, -, -, hcmd⟩ := id h
  rw [hs] at hcmd
  unfold onReceiveCount1
  split_ifs
  · exact ⟨h.bitno_le, h.timer_lt, fun _ => h.timer_zero (by simp [hs]), fun _ => h.rest (by simp [hs]),
      fun _ _ => rfl, hcmd⟩
  · exact h.clear_ctr hv (by simp [hs])

theorem onReceiveCount2_inv (hv : p.Valid) (h : r.Inv p) (hs : r.state = .receiveCount2) (x : CoreIn) :
    (onReceiveCount2 x r { r with ctr := 0 }).regs.Inv p := by
  obtain ⟨-, -, -, -, -, hcmd⟩ := id h
  rw [hs] at hcmd
  have ht := h.timer_zero (by simp [hs])
  have hrest := h.rest (by simp [hs])
  cases hx : x.cmdValid with
  | true =>
    rw [onReceiveCount2_of_valid hx, if_congr (selectorOf_eq_two_iff hcmd) rfl rfl]
    by_cases hd : r.cmd = 0x20
    · rw [if_pos hd]
      exact ⟨h.bitno_le, h.timer_lt, fun _ => ht, fun _ => hrest, fun _ _ => rfl, hd⟩
    · rw [if_neg hd]
      refine ⟨h.bitno_le, h.timer_lt, fun _ => ht, fun _ => hrest, fun _ _ => rfl, ?_⟩
      simp only [List.mem_cons, List.not_mem_nil, or_false] at hcmd ⊢
      tauto
  | false =>
    simp only [onReceiveCount2, hx]
    exact h.clear_ctr hv (by simp [hs])

theorem onDelay_inv (hv : p.Valid) (h : r.Inv p) (hs : r.state = .delay) :
    (onDelay p r { r with ctr := 0 }).regs.Inv p := by
  obtain ⟨-, -, -, -, -, hcmd⟩ := id h
  rw [hs] at hcmd
  have hrest := h.rest (by simp [hs])
  have hlt := h.timer_lt
  have hdelay {r' : Regs} (hr : r' = { r with ctr := 0, count := r'.count, timer := r'.timer })
      (ht : r'.timer < p.delayCyc) : r'.Inv p := by
    have hs' : r'.state = .delay := by rw [hr]; exact hs
    refine ⟨by rw [hr]; exact h.bitno_le, ht, fun hd => absurd hs' hd, fun _ => by rw [hr]; exact hrest,
      fun _ _ => by rw [hr], ?_⟩
    simp only [hs']
    rw [hr]
    exact hcmd
  unfold onDelay
  split_ifs with ht hc
  · exact hdelay rfl (by simp only; omega)
  · exact hdelay rfl (by have := hv.2; simp only; omega)
  · exact Regs.inv_of_receiveCommand rfl h.bitno_le hv.2 (not_not.mp ht) hrest rfl

theorem onCountCheck_inv (hv : p.Valid) (h : r.Inv p) (hs : r.state = .countCheck) :
    (onCountCheck r { r with ctr := 0 }).regs.Inv p := by
  obtain ⟨-, -, -, -, -, hcmd⟩ := id h
  rw [hs] at hcmd
  have ht := h.timer_zero (by simp [hs])
  have hrest := h.rest (by simp [hs])
  unfold onCountCheck
  split_ifs with hc
  · exact Regs.inv_of_receiveCommand rfl h.bitno_le hv.2 ht hrest rfl
  · exact ⟨h.bitno_le, h.timer_lt, fun _ => ht, fun _ => hrest, fun _ _ => rfl, hcmd, hc⟩

/-- A byte transfer starts well formed: the clock at rest, eight periods to start, nothing shifted. -/
theorem startByte_inv (hv : p.Valid) (h : r.Inv p) (hs : r.state = .receiveData) (v : Byte) :
    (startByte v r { r with ctr := 0 }).Inv p := by
  obtain ⟨-, -, -, -, -, hcmd⟩ := id h
  rw [hs] at hcmd
  obtain ⟨hph, hpr, hk, -⟩ := h.rest (by simp [hs])
  have hnone : setupsDone p (startByte v r { r with ctr := 0 }) = 0 := by simp [setupsDone, startByte]
  have htransfer : (startByte v r { r with ctr := 0 }).TransferInv p := by
    refine ⟨Nat.lt_of_lt_of_le Nat.zero_lt_two hv.1, by simp [startByte, hpr, hk], fun _ => by simp [startByte],
      fun ht => ?_, fun hne => ?_, ?_⟩
    · simp [startByte, hpr] at ht
    · simp [startByte, hpr, hph] at hne
    · rw [hnone]
      exact BitVec.shiftLeft_eq_zero le_rfl
  exact ⟨le_rfl, h.timer_lt, fun _ => h.timer_zero (by simp [hs]), fun hn => absurd rfl hn,
    fun hn => absurd rfl hn, hcmd.1, htransfer⟩

theorem onReceiveData_inv (hv : p.Valid) (h : r.Inv p) (hs : r.state = .receiveData) (x : CoreIn) :
    (onReceiveData p x r { r with ctr := 0 }).regs.Inv p := by
  have hstay := h.clear_ctr hv (by simp [hs])
  rcases onReceiveData_cases p x r { r with ctr := 0 } with ⟨-, -, ho⟩ | ⟨-, ho⟩ | ⟨-, ho⟩ | ⟨-, -, -, -, ho⟩ <;>
    rw [ho]
  · exact hstay
  · exact startByte_inv hv h hs _
  · exact startByte_inv hv h hs _
  · exact hstay

theorem onSendData_inv (hv : p.Valid) (h : r.Inv p) (hs : r.state = .sendData) (x : CoreIn) :
    (onSendData x r { r with ctr := 0 }).regs.Inv p := by
  have ht := h.timer_zero (by simp [hs])
  have hrest := h.rest (by simp [hs])
  have hnext : ({ r with ctr := 0, state := afterSend r } : Regs).Inv p := by
    unfold afterSend
    split_ifs with hc
    · exact Regs.inv_of_receiveCommand rfl h.bitno_le hv.2 ht hrest rfl
    · exact ⟨h.bitno_le, h.timer_lt, fun _ => ht, fun _ => hrest, fun _ _ => rfl, h.opcode_of_sendData hs, hc⟩
  rcases onSendData_cases x r { r with ctr := 0 } with ⟨-, ho⟩ | ⟨-, -, ho⟩ | ⟨-, -, ho⟩ <;> rw [ho]
  · exact hnext
  · exact hnext
  · exact h.clear_ctr hv (by simp [hs])

/-! ### The invariant inside `TRANSFER` -/

theorem Regs.Inv.transfer (h : r.Inv p) (hs : r.state = .transfer) :
    r.cmd ∈ ([0x10, 0x11, 0x12, 0x13] : List Byte) ∧ r.TransferInv p := by
  obtain ⟨-, -, -, -, -, hm⟩ := h
  rwa [hs] at hm

/-- The three kinds of tick inside `TRANSFER` (rules R143, R144). -/
theorem Regs.TransferInv.tick_kinds (h : r.TransferInv p) (hv : p.Valid) :
    (r.phaseR = r.phase ∧ r.sckR = sckOf p r) ∨
    (r.phase = true ∧ r.phaseR = false ∧ r.sckR = p.sckIdle ∧ r.ctr ≠ 0) ∨
    (r.phase = false ∧ r.phaseR = true ∧ r.sckR = !p.sckIdle ∧ r.ctr ≠ 0) := by
  obtain ⟨-, hk, -, -, hstrobe, -⟩ := h
  have hH := hv.1
  rcases hph : r.phase <;> rcases hpr : r.phaseR <;> simp only [hph, hpr] at hk hstrobe
  · exact .inl ⟨rfl, by rw [hk, sckOf, hph]⟩
  · exact .inr (.inr ⟨rfl, rfl, by simpa using hk, by have := hstrobe (by decide); omega⟩)
  · exact .inr (.inl ⟨rfl, rfl, by simpa using hk, by have := hstrobe (by decide); omega⟩)
  · exact .inl ⟨rfl, by rw [hk, sckOf, hph]⟩

/-- One more shift of `shreg_o` fills one more bit with zero. -/
theorem shiftOutLeft_fills {v : Byte} {m : Nat} (hm : m < 8) (h : v <<< (8 - m) = 0) :
    shiftOutLeft v <<< (8 - (m + 1)) = 0 := by
  rw [shiftOutLeft, ← BitVec.shiftLeft_add]
  rwa [show 1 + (8 - (m + 1)) = 8 - m by omega]

theorem setupsDone_before_lead (p : Params) {r : Regs} (hpr : r.phaseR = false) :
    setupsDone p r = 8 - r.bitno.toNat := by
  simp [setupsDone, hpr]

theorem setupsDone_after_lead (p : Params) {r : Regs} (hpr : r.phaseR = true) :
    setupsDone p r = if latchOnLead p then 8 - r.bitno.toNat - 1 else 8 - r.bitno.toNat := by
  simp [setupsDone, hpr]

theorem bitno_pred_toNat {n : BitVec 4} (h : 1 ≤ n.toNat) : (n - 1).toNat = n.toNat - 1 := by
  rw [BitVec.toNat_sub_of_le (by simpa [BitVec.le_def] using h)]
  rfl

/-- Between two strobes only `ctr` and, at the end of the half-period, `phase` change. -/
theorem Regs.TransferInv.between (h : r.TransferInv p) (hp : r.phaseR = r.phase) {c : Nat} {ph : Bool}
    (hc : c < p.halfPeriodCyc) (hph : ph ≠ r.phase → c = p.halfPeriodCyc - 1) :
    ({ r with ctr := c, phase := ph } : Regs).TransferInv p := by
  obtain ⟨-, hk, hrest, hrun, -, hfill⟩ := h
  exact ⟨hc, hk, hrest, hrun, fun hne => hph (hp ▸ Ne.symm hne), hfill⟩

/-- A lead edge: one period less to start, and a shift where it carries the `setup`. -/
theorem Regs.TransferInv.lead (h : r.TransferInv p) (hph : r.phase = true) (hpr : r.phaseR = false) (d : Bool) :
    ({ afterLead p d r with bitno := r.bitno - 1, phaseR := true, ctr := r.ctr - 1, sckR := !p.sckIdle } :
      Regs).TransferInv p := by
  obtain ⟨hlt, hk, hrest, -, -, hfill⟩ := h
  obtain ⟨hone, height⟩ := hrest hpr
  have hpred := bitno_pred_toNat hone
  rw [setupsDone_before_lead p hpr] at hfill
  refine ⟨?_, ?_, ?_, fun _ => ?_, ?_, ?_⟩
  · have : r.ctr - 1 < p.halfPeriodCyc := by omega
    exact this
  · simp
  · simp
  · have : (r.bitno - 1).toNat ≤ 7 := by omega
    exact this
  · intro hne
    unfold afterLead at hne
    split_ifs at hne <;> simp [hph] at hne
  · rw [setupsDone_after_lead p rfl]
    simp only [hpred, afterLead]
    split_ifs
    · rwa [show 8 - (r.bitno.toNat - 1) - 1 = 8 - r.bitno.toNat by omega]
    · rw [show 8 - (r.bitno.toNat - 1) = 8 - r.bitno.toNat + 1 by omega]
      exact shiftOutLeft_fills (by omega) hfill

/-- What is left of the output register after a trail edge. -/
theorem Regs.TransferInv.fill_after_trail (h : r.TransferInv p) (hpr : r.phaseR = true) (d : Bool) :
    (afterTrail p d r).shregO <<< (8 - (8 - r.bitno.toNat)) = 0 := by
  obtain ⟨-, -, -, hrun, -, hfill⟩ := h
  have hseven := hrun hpr
  rw [setupsDone_after_lead p hpr] at hfill
  unfold afterTrail
  split_ifs at hfill ⊢
  · have := shiftOutLeft_fills (by omega) hfill
    rwa [show 8 - r.bitno.toNat - 1 + 1 = 8 - r.bitno.toNat by omega] at this
  · exact hfill

/-- The registers of a byte still under way are well formed when they are so as a transfer. -/
theorem Regs.Inv.of_transfer (h : r.Inv p) (hs : r.state = .transfer) {r' : Regs} (hs' : r'.state = .transfer)
    (hb : r'.bitno.toNat ≤ 8) (ht : r'.timer = r.timer) (hcmd : r'.cmd = r.cmd) (hT : r'.TransferInv p) :
    r'.Inv p := by
  refine ⟨hb, ht ▸ h.timer_lt, fun _ => ht ▸ h.timer_zero (by simp [hs]), fun hn => absurd hs' hn,
    fun hn => absurd hs' hn, ?_⟩
  simp only [hs']
  exact ⟨hcmd ▸ (h.transfer hs).1, hT⟩

theorem afterLead_frame (p : Params) (d : Bool) (r : Regs) :
    (afterLead p d r).state = r.state ∧ (afterLead p d r).timer = r.timer ∧ (afterLead p d r).cmd = r.cmd := by
  unfold afterLead
  split_ifs <;> exact ⟨rfl, rfl, rfl⟩

theorem afterTrail_frame (p : Params) (d : Bool) (r : Regs) :
    (afterTrail p d r).state = r.state ∧ (afterTrail p d r).timer = r.timer ∧
      (afterTrail p d r).cmd = r.cmd ∧ (afterTrail p d r).bitno = r.bitno ∧
      (afterTrail p d r).phase = r.phase := by
  unfold afterTrail
  split_ifs <;> exact ⟨rfl, rfl, rfl, rfl, rfl⟩

theorem coreStep_transfer_inv (hv : p.Valid) (h : r.Inv p) (hs : r.state = .transfer) (x : CoreIn) :
    (coreStep p x r).regs.Inv p := by
  obtain ⟨hcmd, hT⟩ := h.transfer hs
  have hlt : r.ctr < p.halfPeriodCyc := hT.1
  rcases hT.tick_kinds hv with ⟨hp, hk⟩ | ⟨hph, hpr, hk, hc⟩ | ⟨hph, hpr, hk, hc⟩
  · by_cases hc : r.ctr = 0
    · rw [coreStep_toggle hs hp hk hc]
      exact h.of_transfer hs hs h.bitno_le rfl rfl (hT.between hp (by omega) fun _ => rfl)
    · rw [coreStep_coast hs hp hk hc]
      exact h.of_transfer hs hs h.bitno_le rfl rfl (hT.between hp (by omega) fun hn => absurd rfl hn)
  · obtain ⟨hstate, htimer, hcmd'⟩ := afterLead_frame p x.dinS r
    obtain ⟨-, -, hrest, -⟩ := hT
    obtain ⟨hone, height⟩ := hrest hpr
    rw [coreStep_lead hs hph hpr hk hc]
    refine h.of_transfer hs (hstate.trans hs) ?_ htimer hcmd' ((h.transfer hs).2.lead hph hpr x.dinS)
    have := bitno_pred_toNat hone
    simp only
    omega
  · obtain ⟨hstate, htimer, hcmd', hbitno, hphase⟩ := afterTrail_frame p x.dinS r
    have hfill := hT.fill_after_trail hpr x.dinS
    obtain ⟨-, -, -, hrun, -⟩ := hT
    have hseven := hrun hpr
    rw [coreStep_trail hs hph hpr hk hc]
    by_cases hz : r.bitno = 0
    · rw [if_pos hz]
      have hempty : (afterTrail p x.dinS r).shregO = 0 := by simpa [hz] using hfill
      refine ⟨by simp only [hbitno]; exact h.bitno_le, by simp only [htimer]; exact h.timer_lt,
        fun _ => htimer.trans (h.timer_zero (by simp [hs])),
        fun _ => ⟨hphase.trans hph, rfl, rfl, hempty⟩, fun _ hn => absurd rfl hn, hcmd'.symm ▸ hcmd, ?_⟩
      have : r.ctr - 1 < p.halfPeriodCyc := by omega
      exact this
    · rw [if_neg hz]
      have hone : 1 ≤ r.bitno.toNat := Nat.one_le_iff_ne_zero.mpr fun h0 => hz (BitVec.eq_of_toNat_eq h0)
      refine h.of_transfer hs rfl (by simp only [hbitno]; exact h.bitno_le) htimer hcmd'
        ⟨?_, ?_, fun _ => ?_, ?_, ?_, ?_⟩
      · have : r.ctr - 1 < p.halfPeriodCyc := by omega
        exact this
      · simp
      · simp only [hbitno]
        exact ⟨hone, h.bitno_le⟩
      · simp
      · intro hne
        exact absurd (hphase.trans hph).symm hne
      · rw [setupsDone_before_lead p rfl]
        simp only [hbitno]
        exact hfill

/-- Rule R175: one step of the core keeps the registers well formed. -/
theorem coreStep_inv (hv : p.Valid) (h : r.Inv p) (x : CoreIn) : (coreStep p x r).regs.Inv p := by
  by_cases hs : r.state = .transfer
  · exact coreStep_transfer_inv hv h hs x
  rw [coreStep_atRest (h.rest hs) hs]
  obtain ⟨st, hst⟩ : ∃ st, r.state = st := ⟨_, rfl⟩
  cases st with
  | receiveCommand => rw [stateRule_receiveCommand hst]; exact onReceiveCommand_inv hv h hst x
  | sync => rw [stateRule_sync hst]; exact onSync_inv hv h hst x
  | receiveCount1 => rw [stateRule_receiveCount1 hst]; exact onReceiveCount1_inv hv h hst x
  | receiveCount2 => rw [stateRule_receiveCount2 hst]; exact onReceiveCount2_inv hv h hst x
  | delay => rw [stateRule_delay hst]; exact onDelay_inv hv h hst
  | countCheck => rw [stateRule_countCheck hst]; exact onCountCheck_inv hv h hst
  | receiveData => rw [stateRule_receiveData hst]; exact onReceiveData_inv hv h hst x
  | transfer => exact absurd hst hs
  | sendData => rw [stateRule_sendData hst]; exact onSendData_inv hv h hst x

end

/-! ### The invariant through ticks and steps -/

theorem tick_inv {s : State} (h : s.Inv) : (tick s).Inv := by
  intro hv
  rcases tick_cases s with ⟨x, -, ht⟩ | ⟨-, -, ht⟩ | ⟨-, -, ht⟩ <;> rw [ht] at hv ⊢
  · exact reset_inv hv
  · exact h hv
  · exact coreStep_inv hv (h hv) s.coreIn

theorem ticks_inv {s : State} (h : s.Inv) (k : Nat) : (ticks k s).Inv := by
  induction k generalizing s with
  | zero => exact h
  | succ k ih => exact ih (tick_inv h)

/-- Settles O50: a step is a run of ticks, and every tick, a reset or not, keeps the invariant. -/
theorem stepKeepsTheInvariant : Obligations.StepKeepsTheInvariant := by
  intro s t h hstep
  obtain ⟨-, -, k, hrun⟩ := step_next hstep
  rw [hrun.isTicks]
  exact ticks_inv h k

end Sys2Proof.Machine

/-! Reset, refusal and fault (rules R161, R282, R300, R310): what comes before the rules of the states. -/

namespace Sys2Proof.Machine

/-! ### The guard of a step -/

theorem guarded_of_invalid {s : State} (h : ¬s.params.Valid) (t : State) :
    s.guarded t = .refused .badConfiguration := by
  rw [State.guarded, if_neg h]

theorem guarded_of_fault {s : State} {f : Fault} (hv : s.params.Valid) (hf : s.fault = some f)
    (hr : s.input.rst = none) (t : State) : s.guarded t = .fault f := by
  rw [State.guarded, if_pos hv, hf, (inReset_eq_false_iff s).mpr hr]

theorem exec_eq_guarded (i : Instr) (s : State) :
    exec i s = s.guarded (runToBoundary (ticksNeeded s.params i + s.inputs.length) (s.deliver (encode i))) :=
  exec_eq_runCommand i s

/-- Settles O10: whether a command is fetched or not, the answer is guarded by the parameters. -/
theorem badConfigurationIsRefused : Obligations.BadConfigurationIsRefused := by
  intro s hv
  have hexec (u : State) (hp : u.params = s.params) (i : Instr) : exec i u = .refused .badConfiguration := by
    rw [exec_eq_guarded]
    exact guarded_of_invalid (by rwa [hp]) _
  refine ⟨?_, hexec s rfl⟩
  cases hfetch : fetch s with
  | none => rw [step_of_fetch_eq_none hfetch, guarded_of_invalid hv]
  | some fetched =>
    obtain ⟨i, s'⟩ := fetched
    obtain ⟨-, -, -, -, hp, -⟩ := fetch_eq_some hfetch
    simp only [step, hfetch]
    exact hexec s' hp i

/-! ### Reset -/

/-- Settles O8. -/
theorem resetLeavesTheBusInert : Obligations.ResetLeavesTheBusInert := by
  refine ⟨rfl, fun p => ?_⟩
  simp [State.resetWith, Regs.reset, outputs, sckOf, doutOf, pinLevel]

/-- The response stream and what has been delivered lose nothing in a reset without reconnection. -/
theorem resetTick_responses (s : State) {x : ResetInput} (h : x.reconnect = false) :
    (s.resetTick x).delivered ++ (s.resetTick x).rspq = s.delivered ++ s.rspq := by
  simp [h, nextRspq]

/-- Settles O9: in a tick with `rst` nothing is fetched and the guard lets it pass. -/
theorem resetWinsOverEverything : Obligations.ResetWinsOverEverything := by
  intro s x hv hx
  have hreset : s.inReset = true := (inReset_eq_true_iff s).mpr (by simp [hx])
  have hstep : step s = .next (s.resetTick x) := by
    rw [step_of_fetch_eq_none (fetch_eq_none (.inr (.inl hreset))), tick_of_reset hx]
    exact guarded_next_iff.mpr ⟨hv, .inr hreset, rfl⟩
  refine ⟨_, hstep, rfl, rfl, rfl, rfl, rfl, rfl, ?_, ?_, fun h => ⟨?_, resetTick_responses s h⟩, fun h => ?_⟩
  · simp [outputs, hreset]
  · simp [outputs, hreset]
  · simp [h]
  · simp [h]

/-! ### Faults -/

theorem step_of_fault {s : State} {f : Fault} (hv : s.params.Valid) (hf : s.fault = some f)
    (hr : s.input.rst = none) : step s = .fault f := by
  rw [step_of_fetch_eq_none (fetch_eq_none (.inr (.inr (.inl (by simp [hf]))))), guarded_of_fault hv hf hr]

/-- Settles O15: the tick of a faulted core answers the registers as they are and nothing else. -/
theorem recordedFaultFreezesTheCore : Obligations.RecordedFaultFreezesTheCore := by
  intro s f hv hf hr
  have hcore : coreOut s = { regs := s.core } := by simp [coreOut, hf]
  have hreset : s.inReset = false := (inReset_eq_false_iff s).mpr hr
  refine ⟨step_of_fault hv hf hr, fun i => by rw [exec_eq_guarded, guarded_of_fault hv hf hr], ?_⟩
  rw [tick_of_fault hr hf, advance_responses]
  simp [hf, outputs, hreset, hcore]

/-- Settles O14: a malformed opcode is no frame, so the step is the tick that pops it. -/
theorem malformedOpcodeIsRecorded : Obligations.MalformedOpcodeIsRecorded := by
  intro s b rest h hn hq hb
  obtain ⟨hv, hf, hs, -⟩ := id h
  have hnone := lookupOpcode_eq_none_of_not_mem hb
  have hr : s.input.rst = none := inputAt_zero s ▸ hn 0 one_pos
  have hnoframe (i : Instr) (rest' : List Byte) : decode s.cmdq ≠ .frame i rest' := by
    rw [hq, decode_of_lookupOpcode_eq_none hnone]
    nofun
  have hstep : step s = .next (tick s) := stepIsOneTickElsewhere s hv hf (.inr (.inr hnoframe))
  have htick : tick s = s.advance (raiseFault (.malformedOpcode b) { s.core with cmd := b } true) := by
    rw [tick_of_running hr hf, coreStep_of_ready h hq, acceptOpcode_malformed hnone]
  have hfault : (tick s).fault = some (.malformedOpcode b) := by simp [htick, hf, raiseFault]
  have hparams : (tick s).params = s.params := tick_params hr
  refine ⟨tick s, hstep, hfault, ?_, hparams, ?_, ?_, ?_, ?_, fun hr' => ?_⟩
  · rw [htick]; rfl
  · simp [htick, raiseFault, hq, State.arrivals, inputAt_zero]
  · simp [htick, raiseFault, State.cmdValid, hq]
  · rw [htick, advance_responses]; simp [raiseFault]
  · simp [htick, raiseFault]
  · exact step_of_fault (hparams ▸ hv) hfault (by rw [← inputAt_zero, tick_inputAt]; exact hr')

end Sys2Proof.Machine

/-! Time (rules R10, R126, log entries 1, 3, 12, 13): the tick number, the inputs and the data-in synchronizer
over runs of ticks. -/

namespace Sys2Proof.Machine

theorem State.NoReset.mono {s : State} {j k : Nat} (h : s.NoReset k) (hjk : j ≤ k) : s.NoReset j :=
  fun i hi => h i (by omega)

theorem State.NoReset.first {s : State} {k : Nat} (h : s.NoReset k) (hk : 0 < k) : s.input.rst = none :=
  inputAt_zero s ▸ h 0 hk

/-- What remains of a stretch without reset after its first ticks. -/
theorem State.NoReset.after {s : State} {j k : Nat} (h : s.NoReset (j + k)) : (ticks j s).NoReset k :=
  fun i hi => by rw [ticks_inputAt]; exact h (j + i) (by omega)

theorem State.NoReset.input_of_lt {s : State} {j k : Nat} (h : s.NoReset k) (hj : j < k) :
    (ticks j s).input.rst = none := by
  rw [ticks_input]
  exact h j hj

theorem ticks_params {s : State} {k : Nat} (h : s.NoReset k) : (ticks k s).params = s.params :=
  ticks_keep (P := fun u => u.params = s.params) (fun _ hr hu => (tick_params hr).trans hu) h rfl

theorem ticks_tickNo {s : State} {k : Nat} (h : s.NoReset k) : (ticks k s).tickNo = s.tickNo + k := by
  induction k with
  | zero => rfl
  | succ k ih =>
    rw [ticks_succ', tick_tickNo (h.input_of_lt (Nat.lt_succ_self k)), ih (h.mono (Nat.le_succ k)), Nat.add_assoc]

theorem ticks_dinAt {s : State} {k : Nat} (h : s.NoReset k) (j : Nat) : (ticks k s).dinAt j = s.dinAt (k + j) := by
  induction k generalizing j with
  | zero => rw [ticks_zero, Nat.zero_add]
  | succ k ih =>
    rw [ticks_succ', tick_dinAt (h.input_of_lt (Nat.lt_succ_self k)), ih (h.mono (Nat.le_succ k))]
    congr 1
    omega

/-- Settles O37: a command's run is a stretch of ticks of the machine with its frame delivered. -/
theorem commandsLetTimePass : Obligations.CommandsLetTimePass := by
  intro i s t h
  obtain ⟨-, -, k, hk, hrun⟩ := exec_next h
  refine ⟨k, hrun.pos, hk, ?_, ?_, fun hn => ?_⟩
  · rw [hrun.isTicks, ticks_clock]; rfl
  · rw [hrun.isTicks, ticks_inputs]; rfl
  · have hn' : (s.deliver (encode i)).NoReset k := hn
    rw [hrun.isTicks]
    refine ⟨ticks_tickNo hn', ?_, ?_⟩
    · exact (ticks_dinAt hn' 0).trans (deliver_dinAt s (encode i) k)
    · exact (ticks_dinAt hn' 1).trans (deliver_dinAt s (encode i) (k + 1))

/-- Settles O29: without reset a level takes two ticks through the stages, and a reset empties both. -/
theorem dataInIsTwoTicksOld : Obligations.DataInIsTwoTicksOld := by
  intro s k
  have hlast (hr : (s.inputAt (k + 1)).rst = none) : (ticks (k + 2) s).sync2 = (ticks (k + 1) s).sync1 := by
    rw [ticks_succ']
    exact tick_sync2 (by rwa [ticks_input])
  refine ⟨fun hr hr' => ?_, fun hr => ?_⟩
  · rw [hlast hr', ticks_succ', tick_sync1 (by rwa [ticks_input]), ticks_input]
  · obtain ⟨x, hx⟩ := Option.ne_none_iff_exists'.mp hr
    have hreset : ticks (k + 1) s = (ticks k s).resetTick x := by
      rw [ticks_succ', tick_of_reset (by rwa [ticks_input])]
    exact ⟨by rw [hreset]; rfl, fun hr' => by rw [hlast hr', hreset]; rfl⟩

end Sys2Proof.Machine

/-! Single ticks of a well-formed machine (rules R163, R170, R173, R67): an opcode, an underrun, the end of a byte,
a stall; and the bus outside `TRANSFER`. -/

namespace Sys2Proof.Machine

/-! ### `RECEIVE_COMMAND` -/

theorem onReceiveCommand_of_invalid {x : CoreIn} (h : x.cmdValid = false) (b : Regs) :
    onReceiveCommand x b = { regs := b } := by
  simp [onReceiveCommand, h]

theorem onReceiveCommand_of_valid {x : CoreIn} (h : x.cmdValid = true) (b : Regs) :
    onReceiveCommand x b = acceptOpcode x.cmdData b := by
  simp [onReceiveCommand, h]

/-- Rule R163: every opcode is popped, whatever it is. -/
theorem acceptOpcode_streams (byte : Byte) (b : Regs) :
    (acceptOpcode byte b).pop = true ∧ (acceptOpcode byte b).push = none := by
  rcases acceptOpcode_cases byte b with ⟨-, h⟩ | ⟨-, h⟩ | ⟨-, h⟩ | ⟨-, h⟩ | ⟨-, h⟩ <;> rw [h] <;>
    exact ⟨rfl, rfl⟩

/-- Settles O51: the tick is the answer to the opcode byte that waits, and each of the ten bytes has its own. -/
theorem receiveCommandTakesAnOpcode : Obligations.ReceiveCommandTakesAnOpcode := by
  intro s hv hi hf hr hs
  have htick : tick s = s.advance (onReceiveCommand s.coreIn s.core) := by
    rw [tick_atRest' hv hi hf hr (by simp [hs]) (by simp [hs]), stateRule_receiveCommand hs]
  have hpush : (onReceiveCommand s.coreIn s.core).push = none := by
    unfold onReceiveCommand
    split_ifs
    · exact (acceptOpcode_streams _ _).2
    · rfl
  refine ⟨by simp [outputs, hs], by rw [htick, advance_responses, hpush]; simp, fun hq => ?_,
    fun b rest hq => ?_⟩
  · rw [htick, onReceiveCommand_of_invalid (coreIn_cmdValid_of_cmdq_nil hq)]
    simp [hf, hq]
  · obtain ⟨hvalid, hdata⟩ := coreIn_of_cmdq_cons hq
    rw [htick, onReceiveCommand_of_valid hvalid, hdata]
    refine ⟨?_, ?_, fun hb => ?_, fun hb => ?_, fun v hb => ?_, fun v hb => ?_⟩
    · simp [(acceptOpcode_streams b s.core).1, hq]
    · simp [(acceptOpcode_streams b s.core).1, State.cmdValid, hq]
    · rw [acceptOpcode_of_count hb]
      simp [hf]
    · rw [hb, acceptOpcode_sync]
      simp [hf]
    · rw [hb, acceptOpcode_select]
      simp [hf]
    · rw [hb, acceptOpcode_oe]
      simp [hf]

/-! ### `RECEIVE_DATA` and `SEND_DATA` -/

theorem coreIn_cmdData_of_cmdq_nil {s : State} (h : s.cmdq = []) :
    s.coreIn.cmdData = Config.freeCmdData s.clock := by
  simp [State.coreIn, State.cmdData, h]

/-- Settles O20: `cmd_pop` removes nothing from an empty stream, and P5 decides between the draw and the fault. -/
theorem underrunLoadsAFreeByte : Obligations.UnderrunLoadsAFreeByte := by
  intro s hv hi hf hr hs ho hd hq
  have hx := coreIn_cmdValid_of_cmdq_nil hq
  have htick : tick s = s.advance (onReceiveData s.params s.coreIn s.core s.core) := by
    rw [tick_atRest' hv hi hf hr (by simp [hs]) (by simp [hs]), stateRule_receiveData hs]
  rw [htick]
  cases hp : s.params.underrun with
  | draw =>
    rw [onReceiveData_of_underrun_draw ho hd hx hp, coreIn_cmdData_of_cmdq_nil hq]
    simp [hq, hf, nextCmdq, State.cmdValid, startByte]
  | fault =>
    rw [onReceiveData_of_underrun_fault ho hd hx hp]
    simp [hq, hf, raiseFault]

/-- Settles O22: the three answers of `SEND_DATA` on registers whose `ctr` the Clock Generator has cleared. -/
theorem sendDataPushesTheSampledByte : Obligations.SendDataPushesTheSampledByte := by
  intro s hv hi hf hr hs
  have htick : tick s = s.advance (onSendData s.coreIn s.core { s.core with ctr := 0 }) := by
    rw [tick_atRest hv hi hf hr (by simp [hs]), stateRule_sendData hs]
  rw [htick, advance_responses]
  refine ⟨fun hd => ?_, fun hd hx => ?_, fun hd hx => ?_, ?_⟩
  · rw [onSendData_without_dataIn hd]
    simp [afterSend]
  · rw [onSendData_of_room (x := s.coreIn) hd hx]
    simp [afterSend]
  · rw [onSendData_of_no_room (x := s.coreIn) hd hx]
    simp
  · rcases onSendData_cases s.coreIn s.core { s.core with ctr := 0 } with ⟨-, ho⟩ | ⟨-, -, ho⟩ | ⟨-, -, ho⟩ <;>
      simp [ho]

/-! ### The bus outside `TRANSFER` -/

@[simp] theorem outputs_sck (s : State) : (outputs s).sck = sckOf s.params s.core := rfl
@[simp] theorem outputs_dout (s : State) : (outputs s).dout = doutOf s.core := rfl

/-- At rest data-out is 0. -/
theorem Regs.BusAtRest.dout {p : Params} {r : Regs} (h : r.BusAtRest p) : doutOf r = false := by
  obtain ⟨-, -, -, ho⟩ := h
  simp [doutOf, ho]

/-- At rest there is no strobe. -/
theorem Regs.BusAtRest.no_strobe {p : Params} {r : Regs} (h : r.BusAtRest p) :
    stbLead r = false ∧ stbTrail r = false := by
  obtain ⟨hph, hpr, -, -⟩ := h
  simp [stbLead, stbTrail, hph, hpr]

/-- Settles O28: outside `TRANSFER` the invariant has the bus at rest. -/
theorem busIsSilentOutsideTransfer : Obligations.BusIsSilentOutsideTransfer := by
  intro s hv hi hs
  have hrest := (hi hv).rest hs
  obtain ⟨hlead, htrail⟩ := hrest.no_strobe
  exact ⟨hrest.setup, hrest.latch, hlead, htrail, hrest.sck, hrest.dout⟩

/-! ### Stalls -/

/-- The states in which the core waits (rules R67, R163, R219): none of them is `TRANSFER`, and the rule answers
nothing but what every tick writes. -/
theorem stateRule_of_stall {s : State}
    (h : s.core.state = .receiveCommand ∧ s.cmdq = [] ∨ s.waitsForByte = true ∨ s.waitsForRoom = true) :
    s.core.state ≠ .transfer ∧ ∀ b, stateRule s.params s.coreIn s.core b = { regs := b } := by
  rcases h with ⟨hs, hq⟩ | h | h
  · refine ⟨by simp [hs], fun b => ?_⟩
    rw [stateRule_receiveCommand hs, onReceiveCommand_of_invalid (coreIn_cmdValid_of_cmdq_nil hq)]
  · refine ⟨?_, stateRule_of_waitsForByte h⟩
    obtain ⟨-, hs | hs | ⟨hs, -⟩⟩ := (waitsForByte_iff s).mp h <;> simp [hs]
  · refine ⟨?_, stateRule_of_waitsForRoom h⟩
    obtain ⟨-, hs | ⟨hs, -⟩⟩ := (waitsForRoom_iff s).mp h <;> simp [hs]

/-- In `TRANSFER` the core looks at neither stream. -/
theorem coreStep_transfer_ignores_streams (p : Params) {x y : CoreIn} {r : Regs} (hs : r.state = .transfer)
    (hd : x.dinS = y.dinS) : coreStep p x r = coreStep p y r := by
  simp only [coreStep, stateRule_transfer hs, hd]

/-- Settles O30: the tick of a stall is what every tick writes, which at rest is `ctr` alone. -/
theorem stallKeepsEveryRegister : Obligations.StallKeepsEveryRegister := by
  refine ⟨fun s hv hi hf hr hstall => ?_, fun p x y r => coreStep_transfer_ignores_streams p,
    fun s hv hi hf hr hp hs hd => ?_⟩
  · obtain ⟨hs, hidle⟩ := stateRule_of_stall hstall
    obtain ⟨-, -, -, hcmdq, hpopped, hrsp⟩ := tick_of_idleRule hr hf hidle
    obtain ⟨-, -, -, -, hsck, hdout⟩ := busIsSilentOutsideTransfer s hv hi hs
    have hcore : (tick s).core = { s.core with ctr := 0 } := by
      rw [tick_atRest hv hi hf hr hs, hidle, advance_core]
    refine ⟨hcore, hcmdq, hpopped, hrsp, fun hs' => ?_, hsck, hdout, ?_, ?_⟩
    · rw [hcore, ← (hi hv).ctr_zero hs hs']
    · simp [hcore]
    · simp [hcore]
  · rw [tick_atRest' hv hi hf hr (by simp [hs]) (by simp [hs]), stateRule_receiveData hs, advance_core]
    rcases onReceiveData_cases s.params s.coreIn s.core s.core with
      ⟨hd', -⟩ | ⟨-, ho⟩ | ⟨-, ho⟩ | ⟨-, -, -, hp', -⟩
    · exact absurd (hd'.symm.trans hd) Bool.false_ne_true
    · rw [ho]; rfl
    · rw [ho]; rfl
    · exact absurd (hp.symm.trans hp') nofun

end Sys2Proof.Machine

/-! The two streams (rules R32, R63, R65): what the core pushes and when, and the head position. -/

namespace Sys2Proof.Machine

/-- Rules R65, R74: a push needs room, comes in `SYNC` or `SEND_DATA` only, and never with a pop. -/
theorem stateRule_push {p : Params} {x : CoreIn} {r b : Regs} {v : Byte} (h : (stateRule p x r b).push = some v) :
    x.rspReady = true ∧ (stateRule p x r b).pop = false ∧
      (r.state = .sync ∧ v = 0 ∨ r.state = .sendData ∧ dataIn r.cmd = true ∧ v = r.shregI) := by
  obtain ⟨st, hs⟩ : ∃ st, r.state = st := ⟨_, rfl⟩
  cases st with
  | receiveCommand =>
    rw [stateRule_receiveCommand hs, onReceiveCommand] at h
    split_ifs at h
    · rw [(acceptOpcode_streams _ _).2] at h
      cases h
  | sync =>
    rw [stateRule_sync hs] at h ⊢
    cases hx : x.rspReady with
    | true =>
      rw [onSync_of_ready hx] at h ⊢
      exact ⟨rfl, rfl, .inl ⟨hs, (Option.some.inj h).symm⟩⟩
    | false =>
      rw [onSync_of_not_ready hx] at h
      cases h
  | receiveCount1 =>
    rw [stateRule_receiveCount1 hs, onReceiveCount1] at h
    split_ifs at h
  | receiveCount2 =>
    rw [stateRule_receiveCount2 hs, onReceiveCount2] at h
    split_ifs at h
  | delay =>
    rw [stateRule_delay hs, onDelay] at h
    split_ifs at h
  | countCheck =>
    rw [stateRule_countCheck hs] at h
    cases h
  | receiveData =>
    rw [stateRule_receiveData hs] at h
    rcases onReceiveData_cases p x r b with ⟨-, -, ho⟩ | ⟨-, ho⟩ | ⟨-, ho⟩ | ⟨-, -, -, -, ho⟩ <;> rw [ho] at h <;>
      cases h
  | transfer =>
    rw [stateRule_transfer hs, (onTransfer_streams r b).2] at h
    cases h
  | sendData =>
    rw [stateRule_sendData hs] at h ⊢
    rcases onSendData_cases x r b with ⟨-, ho⟩ | ⟨hd, hx, ho⟩ | ⟨-, -, ho⟩ <;> rw [ho] at h ⊢
    · cases h
    · exact ⟨hx, rfl, .inr ⟨hs, hd, (Option.some.inj h).symm⟩⟩
    · cases h

/-- Settles O33: a tick without reset hands the core's answer to the response stream, and a faulted core answers
nothing. -/
theorem responsesComeFromSyncAndDataIn : Obligations.ResponsesComeFromSyncAndDataIn := by
  intro s hr
  refine ⟨by rw [tick_of_noReset hr, advance_responses], fun v hv => ?_⟩
  cases hf : s.fault with
  | some f => simp [coreOut, hf] at hv
  | none =>
    have hcore : coreOut s = coreStep s.params s.coreIn s.core := by simp [coreOut, hf]
    rw [hcore] at hv ⊢
    exact stateRule_push hv

/-- Rules R32, R63: in a tick without reset at most one byte leaves the head, and the head position counts it. -/
theorem tick_pops {s : State} (hr : s.input.rst = none) :
    ∃ d, d ≤ 1 ∧ d ≤ s.cmdq.length ∧ (tick s).popped = s.popped + d ∧
      (tick s).cmdq = s.cmdq.drop d ++ s.input.arrive.toList := by
  rw [tick_of_noReset hr, advance_popped, advance_cmdq, nextCmdq]
  cases hpop : (coreOut s).pop with
  | false => exact ⟨0, by simp⟩
  | true =>
    cases hq : s.cmdq with
    | nil => exact ⟨0, by simp [State.cmdValid, hq]⟩
    | cons b rest => exact ⟨1, by simp [State.cmdValid, hq]⟩

/-- Settles O34: induction on the ticks, the last tick first. -/
theorem headPositionCountsThePops : Obligations.HeadPositionCountsThePops := by
  intro s k hn
  induction k with
  | zero => simp [State.arrivals]
  | succ k ih =>
    obtain ⟨hle, hub, hlen, hq⟩ := ih (hn.mono (Nat.le_succ k))
    obtain ⟨d, hd, hdlen, hpopped, hcmdq⟩ := tick_pops (hn.input_of_lt (Nat.lt_succ_self k))
    have hsub : (tick (ticks k s)).popped - s.popped = (ticks k s).popped - s.popped + d := by omega
    rw [hq, List.length_drop] at hdlen
    rw [ticks_input] at hcmdq
    have harrived : s.cmdq ++ s.arrivals (k + 1) = s.cmdq ++ s.arrivals k ++ (s.inputAt k).arrive.toList :=
      (List.append_assoc _ _ _).symm
    rw [ticks_succ', hsub, hcmdq, hq, List.drop_drop, harrived]
    refine ⟨by omega, by omega, ?_, ?_⟩
    · rw [List.length_append]
      omega
    · exact (List.drop_append_of_le_length (by omega)).symm

end Sys2Proof.Machine

/-! The counters (rules R185 to R187): `count` and `bitno` go down by one from a value above 0, `timer` and `ctr`
keep their range. -/

namespace Sys2Proof.Machine

theorem acceptOpcode_counters (byte : Byte) (b : Regs) :
    (acceptOpcode byte b).regs.count = b.count ∧ (acceptOpcode byte b).regs.bitno = b.bitno := by
  rcases acceptOpcode_cases byte b with ⟨-, h⟩ | ⟨-, h⟩ | ⟨-, h⟩ | ⟨-, h⟩ | ⟨-, h⟩ <;> rw [h] <;>
    exact ⟨rfl, rfl⟩

theorem toNat_pred_of_ne_zero {w : Nat} {n : BitVec (w + 1)} (h : n ≠ 0) : (n - 1).toNat + 1 = n.toNat := by
  have hpos : 0 < n.toNat := Nat.pos_of_ne_zero fun h0 => h (BitVec.eq_of_toNat_eq h0)
  have hone : (1 : BitVec (w + 1)).toNat = 1 := by simp
  rw [BitVec.toNat_sub_of_le (by rw [BitVec.le_def, hone]; exact hpos), hone]
  omega

section
variable {p : Params} {r b : Regs}

/-- Rule R185: outside the two count states `count` keeps its value or goes down by one, never below 0. -/
theorem stateRule_count (h1 : r.state ≠ .receiveCount1) (h2 : r.state ≠ .receiveCount2)
    (hb : b.count = r.count) (hdata : r.state = .receiveData → r.count ≠ 0) (x : CoreIn) :
    (stateRule p x r b).regs.count = r.count ∨ (stateRule p x r b).regs.count.toNat + 1 = r.count.toNat := by
  obtain ⟨st, hs⟩ : ∃ st, r.state = st := ⟨_, rfl⟩
  cases st with
  | receiveCommand =>
    rw [stateRule_receiveCommand hs, onReceiveCommand]
    split_ifs
    · exact .inl ((acceptOpcode_counters _ _).1.trans hb)
    · exact .inl hb
  | sync => rw [stateRule_sync hs, onSync]; split_ifs <;> exact .inl hb
  | receiveCount1 => exact absurd hs h1
  | receiveCount2 => exact absurd hs h2
  | delay =>
    rw [stateRule_delay hs, onDelay]
    split_ifs with ht hc
    · exact .inl hb
    · exact .inr (toNat_pred_of_ne_zero hc)
    · exact .inl hb
  | countCheck => rw [stateRule_countCheck hs]; exact .inl hb
  | receiveData =>
    rw [stateRule_receiveData hs]
    rcases onReceiveData_cases p x r b with ⟨-, -, ho⟩ | ⟨-, ho⟩ | ⟨-, ho⟩ | ⟨-, -, -, -, ho⟩ <;> rw [ho]
    · exact .inl hb
    · exact .inr (toNat_pred_of_ne_zero (hdata hs))
    · exact .inr (toNat_pred_of_ne_zero (hdata hs))
    · exact .inl hb
  | transfer => rw [stateRule_transfer hs, onTransfer]; split_ifs <;> exact .inl hb
  | sendData =>
    rw [stateRule_sendData hs]
    rcases onSendData_cases x r b with ⟨-, ho⟩ | ⟨-, -, ho⟩ | ⟨-, -, ho⟩ <;> rw [ho] <;> exact .inl hb

/-- Rule R186: `bitno` is loaded with 8 in `RECEIVE_DATA` and goes down by one on a lead strobe only. -/
theorem stateRule_bitno (hb : b.bitno = r.bitno)
    (hlead : r.state = .transfer → stbLead r = true → r.bitno ≠ 0) (x : CoreIn) :
    (stateRule p x r b).regs.bitno = r.bitno ∨ (stateRule p x r b).regs.bitno.toNat + 1 = r.bitno.toNat ∨
      (r.state = .receiveData ∧ (stateRule p x r b).regs.bitno = 8) := by
  obtain ⟨st, hs⟩ : ∃ st, r.state = st := ⟨_, rfl⟩
  cases st with
  | receiveCommand =>
    rw [stateRule_receiveCommand hs, onReceiveCommand]
    split_ifs
    · exact .inl ((acceptOpcode_counters _ _).2.trans hb)
    · exact .inl hb
  | sync => rw [stateRule_sync hs, onSync]; split_ifs <;> exact .inl hb
  | receiveCount1 => rw [stateRule_receiveCount1 hs, onReceiveCount1]; split_ifs <;> exact .inl hb
  | receiveCount2 => rw [stateRule_receiveCount2 hs, onReceiveCount2]; split_ifs <;> exact .inl hb
  | delay => rw [stateRule_delay hs, onDelay]; split_ifs <;> exact .inl hb
  | countCheck => rw [stateRule_countCheck hs]; exact .inl hb
  | receiveData =>
    rw [stateRule_receiveData hs]
    rcases onReceiveData_cases p x r b with ⟨-, -, ho⟩ | ⟨-, ho⟩ | ⟨-, ho⟩ | ⟨-, -, -, -, ho⟩ <;> rw [ho]
    · exact .inl hb
    · exact .inr (.inr ⟨hs, rfl⟩)
    · exact .inr (.inr ⟨hs, rfl⟩)
    · exact .inl hb
  | transfer =>
    rw [stateRule_transfer hs]
    cases hl : stbLead r with
    | true =>
      rw [onTransfer_of_lead hl]
      exact .inr (.inl (toNat_pred_of_ne_zero (hlead hs hl)))
    | false =>
      rw [onTransfer, hl, if_neg Bool.false_ne_true]
      split_ifs <;> exact .inl hb
  | sendData =>
    rw [stateRule_sendData hs]
    rcases onSendData_cases x r b with ⟨-, ho⟩ | ⟨-, -, ho⟩ | ⟨-, -, ho⟩ <;> rw [ho] <;> exact .inl hb

/-- A lead strobe of a well-formed transfer finds a period to start. -/
theorem Regs.TransferInv.bitno_ne_zero_of_lead (h : r.TransferInv p) (hl : stbLead r = true) : r.bitno ≠ 0 := by
  obtain ⟨-, -, hrest, -⟩ := h
  have hpr : r.phaseR = false := by
    simp only [stbLead, Bool.and_eq_true, Bool.not_eq_true'] at hl
    exact hl.1
  have hone := (hrest hpr).1
  intro h0
  simp [h0] at hone

/-- The half-period counter is in range in every state. -/
theorem Regs.Inv.ctr_lt (h : r.Inv p) (hv : p.Valid) : r.ctr < p.halfPeriodCyc := by
  by_cases hs : r.state = .transfer
  · exact (h.transfer hs).2.1
  by_cases hs' : r.state = .sendData
  · obtain ⟨-, -, -, -, -, hm⟩ := h
    rw [hs'] at hm
    exact hm.2
  · rw [h.ctr_zero hs hs']
    exact Nat.lt_of_lt_of_le Nat.zero_lt_two hv.1

theorem Regs.Inv.count_ne_zero (h : r.Inv p) (hs : r.state = .receiveData) : r.count ≠ 0 := by
  obtain ⟨-, -, -, -, -, hm⟩ := h
  rw [hs] at hm
  exact hm.2

end

/-- Settles O35: the rules of the states for `count` and `bitno`, the invariant after the tick for the ranges. -/
theorem countersNeverWrap : Obligations.CountersNeverWrap := by
  intro s hv hi hf hr
  have hcore : (tick s).core = (coreStep s.params s.coreIn s.core).regs := by
    rw [tick_of_running hr hf, advance_core]
  have hparams : (tick s).params = s.params := tick_params hr
  have hinv : (tick s).core.Inv s.params := hparams ▸ tick_inv hi (hparams ▸ hv)
  refine ⟨fun h1 h2 => ?_, ?_, hinv.timer_lt, hinv.ctr_lt hv⟩
  · rw [hcore]
    exact stateRule_count h1 h2 (busUpdate_count _ _ _) (hi hv).count_ne_zero s.coreIn
  · rw [hcore]
    exact stateRule_bitno (busUpdate_bitno _ _ _)
      (fun hs hl => ((hi hv).transfer hs).2.bitno_ne_zero_of_lead hl) s.coreIn

end Sys2Proof.Machine

/-! Stalls that last and the end of a run (rules R17, R67, R219, R301). -/

namespace Sys2Proof.Machine

/-- What a core that waits for a byte keeps over the ticks in which none arrives. -/
theorem ticks_of_waitsForByte {s : State} {k : Nat} (hf : s.fault = none) (hn : s.NoReset k)
    (hw : s.waitsForByte = true) (ha : ∀ j, j < k → (s.inputAt j).arrive = none) :
    (ticks k s).waitsForByte = true ∧ (ticks k s).core.state = s.core.state ∧ (ticks k s).fault = none ∧
      (ticks k s).popped = s.popped := by
  induction k with
  | zero => exact ⟨hw, rfl, hf, rfl⟩
  | succ k ih =>
    obtain ⟨hw', hs, hf', hp⟩ := ih (hn.mono (Nat.le_succ k)) fun j hj => ha j (by omega)
    obtain ⟨hstate, hcmd, hfault, hcmdq, hpopped, -⟩ :=
      tick_of_idleRule (hn.input_of_lt (Nat.lt_succ_self k)) hf' (stateRule_of_waitsForByte hw')
    obtain ⟨hq, hwhere⟩ := (waitsForByte_iff _).mp hw'
    rw [ticks_input, ha k (Nat.lt_succ_self k), hq] at hcmdq
    rw [ticks_succ']
    exact ⟨(waitsForByte_iff _).mpr ⟨hcmdq, by rwa [hstate, hcmd]⟩, hstate.trans hs, hfault, hpopped.trans hp⟩

/-- What a core that waits for room keeps over the ticks in which there is none. -/
theorem ticks_of_waitsForRoom {s : State} {k : Nat} (hf : s.fault = none) (hn : s.NoReset k)
    (hw : s.waitsForRoom = true) (hx : ∀ j, j ≤ k → (s.inputAt j).rspReady = false) :
    (ticks k s).waitsForRoom = true ∧ (ticks k s).core.state = s.core.state ∧ (ticks k s).fault = none ∧
      (ticks k s).delivered ++ (ticks k s).rspq = s.delivered ++ s.rspq := by
  induction k with
  | zero => exact ⟨hw, rfl, hf, rfl⟩
  | succ k ih =>
    obtain ⟨hw', hs, hf', hrsp⟩ := ih (hn.mono (Nat.le_succ k)) fun j hj => hx j (by omega)
    obtain ⟨hstate, hcmd, hfault, -, -, hrsp'⟩ :=
      tick_of_idleRule (hn.input_of_lt (Nat.lt_succ_self k)) hf' (stateRule_of_waitsForRoom hw')
    obtain ⟨-, hwhere⟩ := (waitsForRoom_iff _).mp hw'
    have hroom : (tick (ticks k s)).input.rspReady = false := by
      rw [← ticks_succ', ticks_input]
      exact hx (k + 1) le_rfl
    rw [ticks_succ']
    exact ⟨(waitsForRoom_iff _).mpr ⟨hroom, by rwa [hstate, hcmd]⟩, hstate.trans hs, hfault, hrsp'.trans hrsp⟩

/-- Settles O52: the two waits, over every number of ticks up to the one given. -/
theorem stallsLastUntilTheirCauseEnds : Obligations.StallsLastUntilTheirCauseEnds := by
  intro s k hf hn
  refine ⟨fun hw ha j hj => ?_, fun hw hx j hj => ?_⟩
  · exact ticks_of_waitsForByte hf (hn.mono hj) hw fun i hi => ha i (by omega)
  · exact ticks_of_waitsForRoom hf (hn.mono hj) hw fun i hi => hx i (by omega)

/-- Tick `k` shows an end of the run: a fault, or a quiescent core with the whole sequence appended. -/
def State.DecidedAt (s : State) (seq : List Byte) (k : Nat) : Prop :=
  (ticks k s).fault ≠ none ∨ s.AppendedBy seq k ∧ (ticks k s).Quiescent

section
variable {s : State} {seq : List Byte} {j k : Nat}

/-- An undecided run has no deciding tick behind it. -/
theorem State.Undecided.le_of_decidedAt (hu : s.Undecided seq k) (hd : s.DecidedAt seq j) : k ≤ j := by
  by_contra hlt
  obtain ⟨hf, hq⟩ := hu.2 j (by omega)
  exact hd.elim (fun h => h hf) hq

theorem State.EndsAt.undecided {e : RunEnd} (h : s.EndsAt seq k e) : s.Undecided seq k := by
  cases e <;> exact h.1

theorem decidedAt_of_quiescent (h : s.EndsAt seq k .quiescent) : s.DecidedAt seq k := .inr h.2.2

theorem decidedAt_of_faulted {f : Fault} (h : s.EndsAt seq k (.faulted f)) : s.DecidedAt seq k :=
  .inl (by simp [h.2])

/-- A run that waits for input that never comes waits in every later tick, without a fault. -/
theorem waits_from_waitingInput (h : s.EndsAt seq k .waitingInput) (hjk : k ≤ j) :
    (ticks j s).waitsForByte = true ∧ (ticks j s).fault = none := by
  obtain ⟨-, hf, -, hw, hnever⟩ := h
  obtain ⟨d, rfl⟩ := Nat.exists_eq_add_of_le hjk
  rw [ticks_add]
  obtain ⟨hw', -, hf', -⟩ := ticks_of_waitsForByte (k := d) hf
    (fun i _ => by rw [ticks_inputAt]; exact (hnever (k + i) (by omega)).1) hw
    (fun i _ => by rw [ticks_inputAt]; exact (hnever (k + i) (by omega)).2)
  exact ⟨hw', hf'⟩

/-- A run that waits for room that never comes waits in every later tick, without a fault. -/
theorem waits_from_waitingRoom (h : s.EndsAt seq k .waitingRoom) (hjk : k ≤ j) :
    (ticks j s).waitsForRoom = true ∧ (ticks j s).fault = none := by
  obtain ⟨-, hf, hw, hnever⟩ := h
  obtain ⟨d, rfl⟩ := Nat.exists_eq_add_of_le hjk
  rw [ticks_add]
  obtain ⟨hw', -, hf', -⟩ := ticks_of_waitsForRoom (k := d) hf
    (fun i _ => by rw [ticks_inputAt]; exact (hnever (k + i) (by omega)).1) hw
    (fun i _ => by rw [ticks_inputAt]; exact (hnever (k + i) (by omega)).2)
  exact ⟨hw', hf'⟩

theorem not_quiescent_of_waitsForByte {t : State} (h : t.waitsForByte = true) : ¬t.Quiescent := fun hq => by
  obtain ⟨-, hs | hs | ⟨hs, -⟩⟩ := (waitsForByte_iff t).mp h <;> simp [hq.1] at hs

theorem not_quiescent_of_waitsForRoom {t : State} (h : t.waitsForRoom = true) : ¬t.Quiescent := fun hq => by
  obtain ⟨-, hs | ⟨hs, -⟩⟩ := (waitsForRoom_iff t).mp h <;> simp [hq.1] at hs

theorem not_waitsForRoom_of_waitsForByte {t : State} (h : t.waitsForByte = true) : ¬t.waitsForRoom = true := by
  intro h'
  obtain ⟨-, hs | hs | ⟨hs, -⟩⟩ := (waitsForByte_iff t).mp h <;>
    obtain ⟨-, hs' | ⟨hs', -⟩⟩ := (waitsForRoom_iff t).mp h' <;> simp [hs] at hs'

/-- A run that waits for ever, in either way, is decided at no tick. -/
theorem not_decidedAt_of_waiting (h : s.EndsAt seq k .waitingInput ∨ s.EndsAt seq k .waitingRoom) (j : Nat) :
    ¬s.DecidedAt seq j := by
  intro hd
  rcases h with h | h
  · obtain ⟨hw, hf⟩ := waits_from_waitingInput h (h.undecided.le_of_decidedAt hd)
    exact hd.elim (fun hne => hne hf) fun hq => not_quiescent_of_waitsForByte hw hq.2
  · obtain ⟨hw, hf⟩ := waits_from_waitingRoom h (h.undecided.le_of_decidedAt hd)
    exact hd.elim (fun hne => hne hf) fun hq => not_quiescent_of_waitsForRoom hw hq.2

/-- No run waits for ever both for input and for room. -/
theorem not_waitingRoom_of_waitingInput (h : s.EndsAt seq j .waitingInput) : ¬s.EndsAt seq k .waitingRoom := by
  intro h'
  exact not_waitsForRoom_of_waitsForByte (waits_from_waitingInput h (Nat.le_max_left j k)).1
    (waits_from_waitingRoom h' (Nat.le_max_right j k)).1

/-- Two ends that ticks decide are at one tick. -/
theorem eq_of_decidedAt {e e' : RunEnd} (h : s.EndsAt seq j e) (h' : s.EndsAt seq k e') (hd : s.DecidedAt seq j)
    (hd' : s.DecidedAt seq k) : j = k :=
  le_antisymm (h.undecided.le_of_decidedAt hd') (h'.undecided.le_of_decidedAt hd)

end

/-- Settles O53: a tick decides for one end, a run that waits for ever is decided at none. -/
theorem runEndsAreExclusive : Obligations.RunEndsAreExclusive := by
  intro s seq j k e e' h h'
  cases e with
  | quiescent =>
    have hd := decidedAt_of_quiescent h
    cases e' with
    | quiescent => exact ⟨rfl, fun _ _ => eq_of_decidedAt h h' hd (decidedAt_of_quiescent h')⟩
    | faulted f =>
      obtain rfl := eq_of_decidedAt h h' hd (decidedAt_of_faulted h')
      exact absurd (h.2.1.symm.trans h'.2) nofun
    | waitingInput => exact absurd hd (not_decidedAt_of_waiting (.inl h') j)
    | waitingRoom => exact absurd hd (not_decidedAt_of_waiting (.inr h') j)
  | faulted f =>
    have hd := decidedAt_of_faulted h
    cases e' with
    | quiescent =>
      obtain rfl := eq_of_decidedAt h h' hd (decidedAt_of_quiescent h')
      exact absurd (h'.2.1.symm.trans h.2) nofun
    | faulted f' =>
      obtain rfl := eq_of_decidedAt h h' hd (decidedAt_of_faulted h')
      exact ⟨congrArg RunEnd.faulted (Option.some.inj (h.2.symm.trans h'.2)), fun _ _ => rfl⟩
    | waitingInput => exact absurd hd (not_decidedAt_of_waiting (.inl h') j)
    | waitingRoom => exact absurd hd (not_decidedAt_of_waiting (.inr h') j)
  | waitingInput =>
    cases e' with
    | quiescent => exact absurd (decidedAt_of_quiescent h') (not_decidedAt_of_waiting (.inl h) k)
    | faulted f => exact absurd (decidedAt_of_faulted h') (not_decidedAt_of_waiting (.inl h) k)
    | waitingInput => exact ⟨rfl, fun hne => absurd rfl hne⟩
    | waitingRoom => exact absurd h' (not_waitingRoom_of_waitingInput h)
  | waitingRoom =>
    cases e' with
    | quiescent => exact absurd (decidedAt_of_quiescent h') (not_decidedAt_of_waiting (.inr h) k)
    | faulted f => exact absurd (decidedAt_of_faulted h') (not_decidedAt_of_waiting (.inr h) k)
    | waitingInput => exact absurd h (not_waitingRoom_of_waitingInput h')
    | waitingRoom => exact ⟨rfl, fun _ hne => absurd rfl hne⟩

section
variable {s : State} {seq : List Byte} {m : Nat} {e : RunEnd}

/-- What a tick that an undecided run has come to shows is the end of the run there, if it is one. -/
theorem endNow_eq_some_iff (hu : s.Undecided seq m) :
    endNow seq (s.cmdq ++ s.arrivals m) (ticks m s) = some e ↔
      e ≠ .waitingInput ∧ e ≠ .waitingRoom ∧ s.EndsAt seq m e := by
  rcases endNow_cases seq (s.cmdq ++ s.arrivals m) (ticks m s) with
    ⟨f, hf, he⟩ | ⟨hf, hall, hq, he⟩ | ⟨hf, hno, he⟩ <;> rw [he]
  · constructor
    · rintro ⟨⟩
      exact ⟨nofun, nofun, hu, hf⟩
    · rintro ⟨hi, hr, h⟩
      cases e with
      | quiescent => exact absurd (h.2.1.symm.trans hf) nofun
      | faulted f' => rw [Option.some.inj (hf.symm.trans h.2)]
      | waitingInput => exact absurd rfl hi
      | waitingRoom => exact absurd rfl hr
  · constructor
    · rintro ⟨⟩
      exact ⟨nofun, nofun, hu, hf, hall, hq⟩
    · rintro ⟨hi, hr, h⟩
      cases e with
      | quiescent => rfl
      | faulted f => exact absurd (hf.symm.trans h.2) nofun
      | waitingInput => exact absurd rfl hi
      | waitingRoom => exact absurd rfl hr
  · constructor
    · nofun
    · rintro ⟨hi, hr, h⟩
      cases e with
      | quiescent => exact absurd h.2.2 hno
      | faulted f => exact absurd (hf.symm.trans h.2) nofun
      | waitingInput => exact absurd rfl hi
      | waitingRoom => exact absurd rfl hr

/-- A tick that shows no end, and no reset, leaves the run undecided. -/
theorem State.Undecided.succ (hu : s.Undecided seq m)
    (hnone : endNow seq (s.cmdq ++ s.arrivals m) (ticks m s) = none) (hr : (s.inputAt m).rst = none) :
    s.Undecided seq (m + 1) := by
  have hlast : (ticks m s).fault = none ∧ ¬(s.AppendedBy seq m ∧ (ticks m s).Quiescent) := by
    rcases endNow_cases seq (s.cmdq ++ s.arrivals m) (ticks m s) with
      ⟨f, -, he⟩ | ⟨-, -, -, he⟩ | ⟨hf, hno, -⟩
    · exact absurd (he.symm.trans hnone) nofun
    · exact absurd (he.symm.trans hnone) nofun
    · exact ⟨hf, hno⟩
  refine ⟨fun j hj => ?_, fun j hj => ?_⟩ <;> obtain hlt | rfl := Nat.lt_succ_iff_lt_or_eq.mp hj
  · exact hu.1 j hlt
  · exact hr
  · exact hu.2 j hlt
  · exact hlast

/-- `State.runEnd` from the tick an undecided run has come to. -/
theorem runEndFrom_eq_some_iff (hu : s.Undecided seq m) (fuel : Nat) :
    runEndFrom seq fuel (s.cmdq ++ s.arrivals m) (ticks m s) = some e ↔
      e ≠ .waitingInput ∧ e ≠ .waitingRoom ∧ ∃ k, m ≤ k ∧ k ≤ m + fuel ∧ s.EndsAt seq k e := by
  induction fuel generalizing m with
  | zero =>
    rw [runEndFrom, endNow_eq_some_iff hu]
    refine and_congr_right fun _ => and_congr_right fun _ => ⟨fun h => ⟨m, le_rfl, le_rfl, h⟩, ?_⟩
    rintro ⟨k, hmk, hkm, h⟩
    rwa [le_antisymm hmk hkm]
  | succ fuel ih =>
    rw [runEndFrom]
    cases hnow : endNow seq (s.cmdq ++ s.arrivals m) (ticks m s) with
    | some now =>
      obtain ⟨hi, hr, hm⟩ := (endNow_eq_some_iff hu).mp hnow
      constructor
      · rintro ⟨⟩
        exact ⟨hi, hr, m, le_rfl, by omega, hm⟩
      · rintro ⟨-, -, k, -, -, h⟩
        rw [(runEndsAreExclusive s seq m k now e hm h).1]
    | none =>
      have hlater {k : Nat} (hmk : m ≤ k) (hi : e ≠ .waitingInput) (hr : e ≠ .waitingRoom)
          (h : s.EndsAt seq k e) : m < k := by
        refine Nat.lt_of_le_of_ne hmk ?_
        rintro rfl
        exact absurd (hnow.symm.trans ((endNow_eq_some_iff hu).mpr ⟨hi, hr, h⟩)) nofun
      cases hreset : (ticks m s).inReset with
      | true =>
        refine ⟨nofun, ?_⟩
        rintro ⟨hi, hr, k, hmk, -, h⟩
        have hnoreset := h.undecided.1 m (hlater hmk hi hr h)
        rw [← ticks_input] at hnoreset
        exact absurd hnoreset ((inReset_eq_true_iff _).mp hreset)
      | false =>
        have hinput : (s.inputAt m).rst = none := by
          rw [← ticks_input]
          exact (inReset_eq_false_iff _).mp hreset
        have hnext := ih (hu.succ hnow hinput)
        rw [ticks_succ', State.arrivals, ← List.append_assoc] at hnext
        simp only [Bool.false_eq_true, if_false, ticks_input]
        rw [hnext]
        refine and_congr_right fun hi => and_congr_right fun hr => exists_congr fun k => ?_
        constructor
        · rintro ⟨hmk, hk, h⟩
          exact ⟨by omega, by omega, h⟩
        · rintro ⟨hmk, hk, h⟩
          exact ⟨hlater hmk hi hr h, by omega, h⟩

end

/-- Settles O54: the recursion on the fuel follows the ticks of an undecided run, starting at tick 0. -/
theorem runEndUnderFuelIsTheEnd : Obligations.RunEndUnderFuelIsTheEnd := by
  intro s seq fuel e
  have h := runEndFrom_eq_some_iff (e := e) (undecided_zero s seq) fuel
  simpa [State.runEnd, State.arrivals] using h

end Sys2Proof.Machine

/-! The host's operations (rules R108 to R118): the frames an operation is cut into, the responses its frames
produce, and what it reads. -/

namespace Sys2Proof.Machine

/-! ### The chunk counts (rule R118) -/

theorem sum_chunkCounts (units : Nat) : (chunkCounts units).sum = units := by
  have hdiv := Nat.div_add_mod units chunkSize
  unfold chunkCounts
  split_ifs with h
  · simp only [List.append_nil, List.sum_replicate, smul_eq_mul]
    rw [Nat.mul_comm]
    omega
  · simp only [List.sum_append, List.sum_replicate, smul_eq_mul, List.sum_singleton]
    rw [Nat.mul_comm]
    omega

theorem chunkCounts_range {units n : Nat} (h : n ∈ chunkCounts units) : 1 ≤ n ∧ n ≤ 65535 := by
  unfold chunkCounts at h
  rcases List.mem_append.mp h with h | h
  · obtain rfl := List.eq_of_mem_replicate h
    decide
  · have hlt : units % chunkSize < chunkSize := Nat.mod_lt units (by decide)
    split_ifs at h with h0
    · cases h
    · rw [List.mem_singleton] at h
      unfold chunkSize at h h0 hlt
      omega

theorem ofNat_toNat_of_chunk {units n : Nat} (h : n ∈ chunkCounts units) : (BitVec.ofNat 16 n).toNat = n :=
  Nat.mod_eq_of_lt (Nat.lt_succ_of_le (chunkCounts_range h).2)

/-! ### Frames without payload -/

theorem map_countFrames {β : Type} {g : Instr → β} {f : Count → Instr} {h : Nat → β} (hg : ∀ n, g (f n) = h n.toNat)
    (units : Nat) : (countFrames f units).map g = (chunkCounts units).map h := by
  rw [countFrames, List.map_map]
  refine List.map_congr_left fun n hn => ?_
  rw [Function.comp_apply, hg, ofNat_toNat_of_chunk hn]

/-! ### Frames with payload -/

/-- Counts that add up to the length of the bytes cut them whole, each piece as long as its count. -/
theorem chunkPayload_spec {ns : List Nat} {bs : List Byte} (h : ns.sum = bs.length) :
    (chunkPayload ns bs).flatten = bs ∧ (chunkPayload ns bs).map List.length = ns := by
  induction ns generalizing bs with
  | nil =>
    obtain rfl := List.length_eq_zero_iff.mp h.symm
    exact ⟨rfl, rfl⟩
  | cons n ns ih =>
    rw [List.sum_cons] at h
    obtain ⟨hflat, hlen⟩ := ih (bs := bs.drop n) (by rw [List.length_drop]; omega)
    constructor
    · rw [chunkPayload, List.flatten_cons, hflat, List.take_append_drop]
    · rw [chunkPayload, List.map_cons, hlen, List.length_take, Nat.min_eq_left (by omega)]

theorem length_mem_chunkCounts {bytes c : List Byte} (h : c ∈ chunkPayload (chunkCounts bytes.length) bytes) :
    c.length ∈ chunkCounts bytes.length := by
  rw [← (chunkPayload_spec (sum_chunkCounts bytes.length)).2]
  exact List.mem_map_of_mem h

theorem payload_length_of_chunk {bytes c : List Byte} (h : c ∈ chunkPayload (chunkCounts bytes.length) bytes) :
    c.length = (BitVec.ofNat 16 c.length).toNat :=
  (ofNat_toNat_of_chunk (length_mem_chunkCounts h)).symm

theorem map_payloadFrames {β : Type} {g : Instr → β} {f : Count → List Byte → Instr} {h : Nat → β}
    (hg : ∀ n payload, g (f n payload) = h n.toNat) (bytes : List Byte) :
    (payloadFrames f bytes).map g = (chunkCounts bytes.length).map h := by
  conv_rhs => rw [← (chunkPayload_spec (sum_chunkCounts bytes.length)).2, List.map_map]
  rw [payloadFrames, List.map_map]
  refine List.map_congr_left fun c hc => ?_
  rw [Function.comp_apply, Function.comp_apply, hg, ← payload_length_of_chunk hc]

theorem payloads_of_payloadFrames {f : Count → List Byte → Instr} (hf : ∀ n payload, payloadOf (f n payload) = payload)
    (bytes : List Byte) : ((payloadFrames f bytes).map payloadOf).flatten = bytes := by
  conv_rhs => rw [← (chunkPayload_spec (sum_chunkCounts bytes.length)).1]
  rw [payloadFrames, List.map_map]
  congr 1
  exact List.map_id'' (fun c => hf _ c) _

theorem mem_payloadFrames {f : Count → List Byte → Instr} {bytes : List Byte} {i : Instr}
    (h : i ∈ payloadFrames f bytes) : ∃ n payload, payload.length = n.toNat ∧ i = f n payload := by
  obtain ⟨c, hc, rfl⟩ := List.mem_map.mp h
  exact ⟨_, c, payload_length_of_chunk hc, rfl⟩

/-- Settles O7: the chunk counts cut the bytes whole, and each fits the count bytes of its frame. -/
theorem chunkingKeepsTheBytes : Obligations.ChunkingKeepsTheBytes := by
  refine ⟨fun bytes => ⟨fun i hi => ?_, ?_, ?_, fun i hi => ?_, ?_, ?_⟩,
    fun units => ⟨sum_chunkCounts units, fun n hn => chunkCounts_range hn, ?_⟩⟩
  · obtain ⟨n, payload, hlen, rfl⟩ := mem_payloadFrames hi
    exact ⟨(shiftOut_wf_iff n payload).mpr hlen, n, payload, rfl⟩
  · exact payloads_of_payloadFrames (fun _ _ => rfl) bytes
  · exact map_payloadFrames (fun _ _ => rfl) bytes
  · obtain ⟨n, payload, hlen, rfl⟩ := mem_payloadFrames hi
    exact ⟨(shiftIo_wf_iff n payload).mpr hlen, n, payload, rfl⟩
  · exact payloads_of_payloadFrames (fun _ _ => rfl) bytes
  · exact map_payloadFrames (fun _ _ => rfl) bytes
  · simp only [List.forall_mem_cons]
    exact ⟨map_countFrames (fun _ => rfl) units, map_countFrames (fun _ => rfl) units,
      map_countFrames (fun _ => rfl) units, List.forall_mem_nil _⟩

/-! ### The responses of an operation's frames (rule R74) -/

theorem responses_of_silent_countFrames {f : Count → Instr} (hf : ∀ n, responseCount (f n) = 0) (units : Nat) :
    ((countFrames f units).map responseCount).sum = 0 := by
  rw [map_countFrames (h := fun _ => 0) hf, List.map_const', List.sum_replicate, smul_zero]

theorem responses_of_silent_payloadFrames {f : Count → List Byte → Instr}
    (hf : ∀ n payload, responseCount (f n payload) = 0) (bytes : List Byte) :
    ((payloadFrames f bytes).map responseCount).sum = 0 := by
  rw [map_payloadFrames (h := fun _ => 0) hf, List.map_const', List.sum_replicate, smul_zero]

theorem responses_of_answering_countFrames {f : Count → Instr} (hf : ∀ n, responseCount (f n) = n.toNat)
    (units : Nat) : ((countFrames f units).map responseCount).sum = units := by
  rw [map_countFrames (h := id) hf, List.map_id, sum_chunkCounts]

theorem responses_of_answering_payloadFrames {f : Count → List Byte → Instr}
    (hf : ∀ n payload, responseCount (f n payload) = n.toNat) (bytes : List Byte) :
    ((payloadFrames f bytes).map responseCount).sum = bytes.length := by
  rw [map_payloadFrames (h := id) hf, List.map_id, sum_chunkCounts]

theorem refused_lane_mode {mode : LaneMode} (h : mode ≠ .single) :
    (∀ count, readOp count mode = .error .unsupportedMode) ∧
      ∀ bytes, writeOp bytes mode = .error .unsupportedMode := by
  simp [readOp, hostRead, writeOp, hostWrite, h, Except.map]

/-- Settles O56: `exchange` and `read` send frames that answer each unit, `synchronize` one that answers once,
the others frames that answer nothing. -/
theorem hostOperationsReadTheirResponses : Obligations.HostOperationsReadTheirResponses := by
  refine ⟨fun bytes => ⟨_, exchangeOp_eq bytes, rfl, rfl, ?_⟩, fun count => ⟨_, readOp_single count, rfl, rfl, ?_⟩,
    ⟨_, synchronizeOp_eq, rfl, rfl, rfl, rfl⟩, fun op hop => ?_, fun mode => refused_lane_mode⟩
  · exact responses_of_answering_payloadFrames (fun _ _ => rfl) bytes
  · exact responses_of_answering_countFrames (fun _ => rfl) count
  · rcases hop with ⟨bytes, hop⟩ | ⟨count, hop⟩ | ⟨duration, hop | hop⟩ | ⟨enabled, hop⟩
    · rw [writeOp_single] at hop
      cases hop
      exact ⟨rfl, rfl, responses_of_silent_payloadFrames (fun _ _ => rfl) bytes⟩
    · obtain ⟨-, rfl⟩ := dummyOp_eq_ok_iff.mp hop
      exact ⟨rfl, rfl, responses_of_silent_countFrames (fun _ => rfl) _⟩
    · cases hop
      exact ⟨rfl, rfl, responses_of_silent_countFrames (fun _ => rfl) _⟩
    · cases hop
      exact ⟨rfl, rfl, responses_of_silent_countFrames (fun _ => rfl) _⟩
    · cases hop
      exact ⟨rfl, rfl, rfl⟩

/-! ### Reading -/

theorem finish_eq_none_iff {op : HostOp} {s : State} : op.finish s = none ↔ s.delivered.length < op.reads := by
  rw [HostOp.finish, Option.map_eq_none_iff, readResponses_eq_none_iff]

/-- Settles O57: an operation that ends splits what has been delivered at the length it reads. -/
theorem hostReadsTheOldestBytes : Obligations.HostReadsTheOldestBytes := by
  refine fun op s => ⟨finish_eq_none_iff.symm, fun result t h => ?_⟩
  obtain ⟨hlen, rfl, rfl⟩ := finish_eq_some_iff.mp h
  refine ⟨s.delivered.take op.reads, by rw [List.length_take, Nat.min_eq_left hlen],
    (List.take_append_drop _ _).symm, rfl, fun hr => ?_, fun hr => ?_⟩
  · simp [HostOp.result, hr]
  · simp [HostOp.result, hr]

end Sys2Proof.Machine

/-! The chip-select registers (rules R28, R29, R42): who writes `cs` and `oe`, and that the commands which do not
write them do not look at them either. -/

namespace Sys2Proof.Machine

/-- What holds some ticks after the start of a stretch, and every tick away from a boundary keeps, holds at its
end. -/
theorem FirstStretch.keeps {P : State → Prop} {s t : State} {k m : Nat} (h : FirstStretch s t k)
    (hn : s.NoReset k) (hm : 0 < m) (hmk : m ≤ k) (hstart : P (ticks m s))
    (hP : ∀ u, u.input.rst = none → u.atBoundary = false → P u → P (tick u)) : P t := by
  rw [h.isTicks]
  induction k, hmk using Nat.le_induction generalizing t with
  | base => exact hstart
  | succ k hmk ih =>
    have hshorter : FirstStretch s (ticks k s) k := ⟨by omega, rfl, fun j h0 hj => h.between j h0 (by omega)⟩
    rw [ticks_succ']
    exact hP _ (hn.input_of_lt (Nat.lt_succ_self k)) (h.between k (by omega) (Nat.lt_succ_self k))
      (ih hshorter (hn.mono (Nat.le_succ k)))

/-! ### One tick -/

/-- The core's answer in a tick: as in every tick of a running core, or nothing once a fault is recorded. -/
theorem coreOut_cases (s : State) :
    ((∃ f, s.fault = some f) ∧ coreOut s = { regs := s.core }) ∨
    (s.fault = none ∧ coreOut s = coreStep s.params s.coreIn s.core) := by
  cases hf : s.fault with
  | some f => exact .inl ⟨⟨f, rfl⟩, by simp [coreOut, hf]⟩
  | none => exact .inr ⟨rfl, by simp [coreOut, hf]⟩

/-- Away from a frame boundary no tick without reset writes `cs`, `oe` or `cmd`. -/
theorem tick_keeps_pins {s : State} (hr : s.input.rst = none) (hs : s.atBoundary = false) :
    (tick s).core.cs = s.core.cs ∧ (tick s).core.oe = s.core.oe ∧ (tick s).core.cmd = s.core.cmd := by
  rw [tick_of_noReset hr, advance_core]
  rcases coreOut_cases s with ⟨-, ho⟩ | ⟨-, ho⟩ <;> rw [ho]
  · exact ⟨rfl, rfl, rfl⟩
  · exact coreStep_keeps ((atBoundary_eq_false_iff s).mp hs)

theorem cmdq_cons_of_cmdValid {s : State} (h : s.cmdValid = true) : ∃ rest, s.cmdq = s.cmdData :: rest := by
  cases hq : s.cmdq with
  | nil => simp [State.cmdValid, hq] at h
  | cons b rest => exact ⟨rest, by simp [State.cmdData, hq]⟩

/-- Rule R163: what a tick without reset at a frame boundary does to `cs` and `oe`. -/
theorem tick_pins_at_boundary {s : State} (hr : s.input.rst = none) (hs : s.core.state = .receiveCommand) :
    ((tick s).core.cs = s.core.cs ∧ (tick s).core.oe = s.core.oe) ∨
    (∃ v rest, s.cmdq = (0x00 ||| operandBit v) :: rest ∧ (tick s).core.cs = v ∧ (tick s).core.oe = s.core.oe) ∨
    (∃ v rest, s.cmdq = (0x40 ||| operandBit v) :: rest ∧ (tick s).core.cs = s.core.cs ∧ (tick s).core.oe = v) := by
  rw [tick_of_noReset hr, advance_core]
  rcases coreOut_cases s with ⟨-, ho⟩ | ⟨-, ho⟩ <;> rw [ho]
  · exact .inl ⟨rfl, rfl⟩
  rw [coreStep_regs, stateRule_receiveCommand hs]
  cases hvalid : s.coreIn.cmdValid with
  | false =>
    rw [onReceiveCommand_of_invalid hvalid]
    exact .inl ⟨busUpdate_cs _ _ _, busUpdate_oe _ _ _⟩
  | true =>
    rw [onReceiveCommand_of_valid hvalid]
    obtain ⟨rest, hq⟩ := cmdq_cons_of_cmdValid hvalid
    rw [← show s.coreIn.cmdData = s.cmdData from rfl] at hq
    rcases lookupOpcode_cases s.coreIn.cmdData with ⟨v, hb⟩ | ⟨v, hb⟩ | hb | hb | hb
    · rw [hb, acceptOpcode_select]
      exact .inr (.inl ⟨v, rest, hb ▸ hq, rfl, busUpdate_oe _ _ _⟩)
    · rw [hb, acceptOpcode_oe]
      exact .inr (.inr ⟨v, rest, hb ▸ hq, busUpdate_cs _ _ _, rfl⟩)
    · rw [hb, acceptOpcode_sync]
      exact .inl ⟨busUpdate_cs _ _ _, busUpdate_oe _ _ _⟩
    · rw [acceptOpcode_of_count hb]
      exact .inl ⟨busUpdate_cs _ _ _, busUpdate_oe _ _ _⟩
    · rw [acceptOpcode_malformed hb]
      exact .inl ⟨busUpdate_cs _ _ _, busUpdate_oe _ _ _⟩

/-! ### A stretch of ticks -/

/-- Only the first tick of a stretch can write `cs` and `oe`. -/
theorem FirstStretch.pins {s t : State} {k : Nat} (h : FirstStretch s t k) (hn : s.NoReset k) :
    t.core.cs = (tick s).core.cs ∧ t.core.oe = (tick s).core.oe := by
  refine h.keeps (P := fun u => u.core.cs = (tick s).core.cs ∧ u.core.oe = (tick s).core.oe) hn one_pos h.pos
    ⟨rfl, rfl⟩ fun u hr hu hP => ?_
  obtain ⟨hcs, hoe, -⟩ := tick_keeps_pins hr hu
  exact ⟨hcs.trans hP.1, hoe.trans hP.2⟩

/-- Everything a stretch can do to `cs` and `oe`: the operand of the opcode it starts with, or nothing. -/
theorem FirstStretch.pins_cases {s t : State} {k : Nat} (h : FirstStretch s t k) (hn : s.NoReset k) :
    (t.core.cs = s.core.cs ∧ t.core.oe = s.core.oe) ∨
    (s.core.state = .receiveCommand ∧ ∃ v rest, s.cmdq = (0x00 ||| operandBit v) :: rest ∧
      t.core.cs = v ∧ t.core.oe = s.core.oe) ∨
    (s.core.state = .receiveCommand ∧ ∃ v rest, s.cmdq = (0x40 ||| operandBit v) :: rest ∧
      t.core.cs = s.core.cs ∧ t.core.oe = v) := by
  obtain ⟨hcs, hoe⟩ := h.pins hn
  rw [hcs, hoe]
  have hr := hn.first h.pos
  by_cases hs : s.core.state = .receiveCommand
  · exact (tick_pins_at_boundary hr hs).imp_right (Or.imp (⟨hs, ·⟩) (⟨hs, ·⟩))
  · obtain ⟨hcs', hoe', -⟩ := tick_keeps_pins hr ((atBoundary_eq_false_iff s).mpr hs)
    exact .inl ⟨hcs', hoe'⟩

/-- Settles O31: of what a stretch can do, only a SELECT at its start changes `cs`. -/
theorem onlySelectChangesChipSelect : Obligations.OnlySelectChangesChipSelect := by
  intro s t hstep hn hne
  obtain ⟨-, -, k, hrun⟩ := step_next hstep
  rw [hrun.clock_sub] at hn
  rcases hrun.pins_cases hn with ⟨hcs, -⟩ | ⟨hs, v, rest, hq, rfl, -⟩ | ⟨-, v, rest, -, hcs, -⟩
  · exact absurd hcs hne
  · exact ⟨hs, rest, hq⟩
  · exact absurd hcs hne

/-- Settles O32: of what a stretch can do, only an OE at its start changes `oe`. -/
theorem onlyOeChangesTheDriverEnable : Obligations.OnlyOeChangesTheDriverEnable := by
  intro s t hstep hn hne
  obtain ⟨-, -, k, hrun⟩ := step_next hstep
  rw [hrun.clock_sub] at hn
  rcases hrun.pins_cases hn with ⟨-, hoe⟩ | ⟨-, v, rest, -, -, hoe⟩ | ⟨hs, v, rest, hq, -, rfl⟩
  · exact absurd hoe hne
  · exact absurd hoe hne
  · exact ⟨hs, rest, hq⟩

/-! ### The commands that do not write `cs` and `oe` -/

/-- The first byte of a command other than SELECT and OE. -/
theorem encode_eq_cons {i : Instr} (hselect : ∀ l, i ≠ .select l) (hoe : ∀ l, i ≠ .oe l) :
    ∃ op bytes, encode i = op :: bytes ∧ (op = 0x30 ∨ op ∈ ([0x10, 0x11, 0x12, 0x13, 0x20] : List Byte)) := by
  cases i with
  | select l => exact absurd rfl (hselect l)
  | shiftNone n => exact ⟨_, _, rfl, .inr (by decide)⟩
  | shiftOut n payload => exact ⟨_, _, rfl, .inr (by decide)⟩
  | shiftIn n => exact ⟨_, _, rfl, .inr (by decide)⟩
  | shiftIo n payload => exact ⟨_, _, rfl, .inr (by decide)⟩
  | delay n => exact ⟨_, _, rfl, .inr (by decide)⟩
  | sync => exact ⟨_, _, rfl, .inl rfl⟩
  | oe l => exact absurd rfl (hoe l)

theorem ne_pin_opcode {op : Byte} (h : op = 0x30 ∨ op ∈ ([0x10, 0x11, 0x12, 0x13, 0x20] : List Byte)) (v : Bool) :
    op ≠ 0x00 ||| operandBit v ∧ op ≠ 0x40 ||| operandBit v := by
  simp only [List.mem_cons, List.not_mem_nil, or_false] at h
  rcases h with rfl | rfl | rfl | rfl | rfl | rfl <;> cases v <;> decide

/-- What a command that answers a next state without a reset in its ticks is: a stretch of a running machine. -/
theorem exec_next_of_noReset {i : Instr} {s t : State} (h : exec i s = .next t) (hn : s.NoReset (t.clock - s.clock)) :
    s.params.Valid ∧ s.fault = none ∧
      ∃ k, FirstStretch (s.deliver (encode i)) t k ∧ (s.deliver (encode i)).NoReset k := by
  obtain ⟨hv, hf, k, -, hrun⟩ := exec_next h
  have hn' : s.NoReset k := hrun.clock_sub ▸ hn
  have hr := hn'.first hrun.pos
  exact ⟨hv, hf.resolve_right fun hreset => (inReset_eq_true_iff s).mp hreset hr, k, hrun, hn'⟩

/-- A command other than SELECT and OE leaves `cs` and `oe` as they were. -/
theorem exec_keeps_pins {i : Instr} {s t : State} (hselect : ∀ l, i ≠ .select l) (hoe : ∀ l, i ≠ .oe l)
    (h : exec i s = .next t) (hn : s.NoReset (t.clock - s.clock)) :
    t.core.cs = s.core.cs ∧ t.core.oe = s.core.oe := by
  obtain ⟨-, -, k, hrun, hn'⟩ := exec_next_of_noReset h hn
  obtain ⟨op, bytes, henc, hop⟩ := encode_eq_cons hselect hoe
  rcases hrun.pins_cases hn' with hkeep | ⟨-, v, rest, hq, -⟩ | ⟨-, v, rest, hq, -⟩
  · exact hkeep
  · rw [deliver_cmdq, henc] at hq
    exact absurd (List.cons.inj hq).1 (ne_pin_opcode hop v).1
  · rw [deliver_cmdq, henc] at hq
    exact absurd (List.cons.inj hq).1 (ne_pin_opcode hop v).2

/-! ### The answers of `DELAY` (rule R167) -/

theorem onDelay_of_counting {r : Regs} (ht : r.timer ≠ 0) (p : Params) (b : Regs) :
    onDelay p r b = { regs := { b with timer := r.timer - 1 } } := by
  simp [onDelay, ht]

theorem onDelay_of_reload {r : Regs} (ht : r.timer = 0) (hc : r.count ≠ 0) (p : Params) (b : Regs) :
    onDelay p r b = { regs := { b with count := r.count - 1, timer := p.delayCyc - 1 } } := by
  rw [onDelay, if_neg (not_not.mpr ht), if_pos hc]

theorem onDelay_of_done {r : Regs} (ht : r.timer = 0) (hc : r.count = 0) (p : Params) (b : Regs) :
    onDelay p r b = { regs := { b with state := .receiveCommand } } := by
  simp [onDelay, ht, hc]

/-! ### The machine with other values in `cs` and `oe` -/

/-- The registers with `cs` and `oe` put to the values given. -/
def Regs.withPins (c e : Bool) (r : Regs) : Regs := { r with cs := c, oe := e }

/-- The core's answer with `cs` and `oe` put to the values given. -/
def CoreOut.withPins (c e : Bool) (o : CoreOut) : CoreOut := { o with regs := o.regs.withPins c e }

/-- The machine with `cs` and `oe` put to the values given. -/
def State.withPins (c e : Bool) (s : State) : State := { s with core := s.core.withPins c e }

@[simp] theorem withPins_state (c e : Bool) (r : Regs) : (r.withPins c e).state = r.state := rfl
@[simp] theorem withPins_cmd (c e : Bool) (r : Regs) : (r.withPins c e).cmd = r.cmd := rfl
@[simp] theorem withPins_count (c e : Bool) (r : Regs) : (r.withPins c e).count = r.count := rfl
@[simp] theorem withPins_timer (c e : Bool) (r : Regs) : (r.withPins c e).timer = r.timer := rfl

theorem shiftRegs_withPins (p : Params) (d c e : Bool) (r : Regs) :
    shiftRegs p d (r.withPins c e) = (shiftRegs p d r).withPins c e := by
  change (if setupEvent p r then _ else if latchEvent p r then _ else _) = _
  unfold shiftRegs
  split_ifs <;> rfl

theorem clockGen_withPins (p : Params) (c e : Bool) (r : Regs) :
    clockGen p (r.withPins c e) = (clockGen p r).withPins c e := by
  change (if clkEn r then if r.ctr = 0 then _ else _ else _) = _
  unfold clockGen
  split_ifs <;> rfl

theorem busUpdate_withPins (p : Params) (d c e : Bool) (r : Regs) :
    busUpdate p d (r.withPins c e) = (busUpdate p d r).withPins c e := by
  unfold busUpdate
  rw [shiftRegs_withPins, clockGen_withPins]
  rfl

/-- The rule of a state other than `RECEIVE_COMMAND` neither reads nor writes `cs` and `oe`, and no more does that
of `RECEIVE_COMMAND` with an opcode other than SELECT and OE. -/
theorem stateRule_withPins (p : Params) {x : CoreIn} {r : Regs} (c e : Bool)
    (hop : r.state = .receiveCommand → x.cmdValid = true ∧
      (x.cmdData = 0x30 ∨ x.cmdData ∈ ([0x10, 0x11, 0x12, 0x13, 0x20] : List Byte))) (b : Regs) :
    stateRule p x (r.withPins c e) (b.withPins c e) = (stateRule p x r b).withPins c e := by
  obtain ⟨st, hs⟩ : ∃ st, r.state = st := ⟨_, rfl⟩
  have hs' : (r.withPins c e).state = st := hs
  cases st with
  | receiveCommand =>
    obtain ⟨hvalid, hbyte⟩ := hop hs
    rw [stateRule_receiveCommand hs, stateRule_receiveCommand hs', onReceiveCommand_of_valid hvalid,
      onReceiveCommand_of_valid hvalid]
    rcases hbyte with hb | hb
    · rw [hb, acceptOpcode_sync, acceptOpcode_sync]
      rfl
    · rw [acceptOpcode_of_count hb, acceptOpcode_of_count hb]
      rfl
  | sync =>
    rw [stateRule_sync hs, stateRule_sync hs', onSync, onSync]
    split_ifs <;> rfl
  | receiveCount1 =>
    rw [stateRule_receiveCount1 hs, stateRule_receiveCount1 hs', onReceiveCount1, onReceiveCount1]
    split_ifs <;> rfl
  | receiveCount2 =>
    rw [stateRule_receiveCount2 hs, stateRule_receiveCount2 hs', onReceiveCount2, onReceiveCount2,
      withPins_cmd]
    split_ifs <;> rfl
  | delay =>
    rw [stateRule_delay hs, stateRule_delay hs']
    by_cases ht : r.timer = 0
    · by_cases hc : r.count = 0
      · rw [onDelay_of_done ht hc, onDelay_of_done (r := r.withPins c e) ht hc]
        rfl
      · rw [onDelay_of_reload ht hc, onDelay_of_reload (r := r.withPins c e) ht hc]
        rfl
    · rw [onDelay_of_counting ht, onDelay_of_counting (r := r.withPins c e) ht]
      rfl
  | countCheck =>
    rw [stateRule_countCheck hs, stateRule_countCheck hs']
    rfl
  | receiveData =>
    rw [stateRule_receiveData hs, stateRule_receiveData hs', onReceiveData, onReceiveData, withPins_cmd]
    cases p.underrun <;> split_ifs <;> rfl
  | transfer =>
    rw [stateRule_transfer hs, stateRule_transfer hs', onTransfer, onTransfer]
    change (if stbLead r then _ else if stbTrail r ∧ r.bitno = 0 then _ else _) = _
    split_ifs <;> rfl
  | sendData =>
    rw [stateRule_sendData hs, stateRule_sendData hs']
    rcases onSendData_cases x r b with ⟨hd, ho⟩ | ⟨hd, hx, ho⟩ | ⟨hd, hx, ho⟩ <;> rw [ho]
    · rw [onSendData_without_dataIn (r := r.withPins c e) hd]
      rfl
    · rw [onSendData_of_room (r := r.withPins c e) hd hx]
      rfl
    · rw [onSendData_of_no_room (r := r.withPins c e) hd hx]
      rfl

theorem coreStep_withPins (p : Params) {x : CoreIn} {r : Regs} (c e : Bool)
    (hop : r.state = .receiveCommand → x.cmdValid = true ∧
      (x.cmdData = 0x30 ∨ x.cmdData ∈ ([0x10, 0x11, 0x12, 0x13, 0x20] : List Byte))) :
    coreStep p x (r.withPins c e) = (coreStep p x r).withPins c e := by
  unfold coreStep
  rw [busUpdate_withPins, stateRule_withPins p c e hop]
  rfl

/-- The next byte the core takes as an opcode, if it takes one, is there and is none of SELECT and OE. -/
def State.NoPinOpcode (s : State) : Prop :=
  s.core.state = .receiveCommand →
    ∃ op rest, s.cmdq = op :: rest ∧ (op = 0x30 ∨ op ∈ ([0x10, 0x11, 0x12, 0x13, 0x20] : List Byte))

theorem coreOut_withPins {s : State} (c e : Bool) (hop : s.NoPinOpcode) :
    coreOut (s.withPins c e) = (coreOut s).withPins c e := by
  rcases hf : s.fault with _ | f
  · have hbyte : s.core.state = .receiveCommand → s.coreIn.cmdValid = true ∧
        (s.coreIn.cmdData = 0x30 ∨ s.coreIn.cmdData ∈ ([0x10, 0x11, 0x12, 0x13, 0x20] : List Byte)) := by
      intro hs
      obtain ⟨op, rest, hq, hbyte⟩ := hop hs
      obtain ⟨hvalid, hdata⟩ := coreIn_of_cmdq_cons hq
      exact ⟨hvalid, hdata ▸ hbyte⟩
    have hf' : (s.withPins c e).fault = none := hf
    simp only [coreOut, hf, hf']
    exact coreStep_withPins s.params c e hbyte
  · have hf' : (s.withPins c e).fault = some f := hf
    simp only [coreOut, hf, hf']
    rfl

theorem tick_withPins {s : State} (c e : Bool) (hr : s.input.rst = none) (hop : s.NoPinOpcode) :
    tick (s.withPins c e) = (tick s).withPins c e := by
  rw [tick_of_noReset hr, tick_of_noReset (s := s.withPins c e) hr, coreOut_withPins c e hop]
  rfl

/-- A run to a boundary goes the same way whatever `cs` and `oe` are. -/
theorem runToBoundary_withPins (c e : Bool) {budget : Nat} {s : State} (hop : s.NoPinOpcode)
    (hn : s.NoReset ((runToBoundary budget s).clock - s.clock)) :
    runToBoundary budget (s.withPins c e) = (runToBoundary budget s).withPins c e := by
  induction budget generalizing s with
  | zero => rfl
  | succ budget ih =>
    obtain ⟨k, -, hrun⟩ := runToBoundary_is_firstStretch (Nat.succ_pos budget) s
    rw [hrun.clock_sub] at hn
    have htick := tick_withPins c e (hn.first hrun.pos) hop
    have hboundary : (tick (s.withPins c e)).atBoundary = (tick s).atBoundary := by rw [htick]; rfl
    simp only [runToBoundary, hboundary]
    cases hend : (tick s).atBoundary with
    | true => simpa using htick
    | false =>
      have hmid : (tick s).core.state ≠ .receiveCommand := (atBoundary_eq_false_iff _).mp hend
      have hrest : runToBoundary (budget + 1) s = runToBoundary budget (tick s) := by
        simp [runToBoundary, hend]
      have hk : (runToBoundary budget (tick s)).clock = s.clock + k := by
        rw [← hrest, hrun.isTicks, ticks_clock]
      simp only [Bool.false_eq_true, if_false, htick]
      refine ih (fun hs => absurd hs hmid) ?_
      rw [hk, tick_clock]
      have hpos := hrun.pos
      exact State.NoReset.after (j := 1) (k := s.clock + k - (s.clock + 1))
        (by rwa [show 1 + (s.clock + k - (s.clock + 1)) = k by omega])

/-- Settles O36: the run of the delivered frame commutes with putting other values into `cs` and `oe`. -/
theorem transfersIgnoreChipSelect : Obligations.TransfersIgnoreChipSelect := by
  intro i s t c e hselect hoe h hn
  obtain ⟨hcs, hoe'⟩ := exec_keeps_pins hselect hoe h hn
  refine ⟨hcs, hoe', ?_⟩
  obtain ⟨op, bytes, henc, hop⟩ := encode_eq_cons hselect hoe
  have hnopin : (s.deliver (encode i)).NoPinOpcode := fun _ =>
    ⟨op, bytes ++ s.cmdq, by rw [deliver_cmdq, henc]; rfl, hop⟩
  rw [exec_eq_guarded] at h
  obtain ⟨hv, hf, rfl⟩ := guarded_next_iff.mp h
  rw [exec_eq_guarded]
  exact guarded_next_iff.mpr ⟨hv, hf, runToBoundary_withPins c e hnopin hn⟩

end Sys2Proof.Machine

/-! The frames of DELAY, SYNC and SHIFT however they are stalled (rules R42, R74, R240, R250): what holds from the
opcode's tick on, kept by every tick away from a boundary. -/

namespace Sys2Proof.Machine

/-- A tick in which the core answers no fault and no event. -/
theorem tick_of_silent_answer {s : State} {r : Regs} {pop : Bool} {push : Option Byte} (hr : s.input.rst = none)
    (hf : s.fault = none) (ho : coreStep s.params s.coreIn s.core = { regs := r, pop := pop, push := push }) :
    (tick s).core = r ∧ (tick s).params = s.params ∧ (tick s).fault = none ∧ (tick s).trace = s.trace ∧
      (tick s).delivered ++ (tick s).rspq = s.delivered ++ s.rspq ++ push.toList := by
  rw [tick_of_running hr hf, ho, advance_responses]
  simp [hf]

/-! ### DELAY -/

/-- A DELAY that began in `s` has come as far as `u`. -/
structure DelayUnderway (s u : State) : Prop where
  params    : u.params = s.params
  fault     : u.fault = none
  trace     : u.trace = s.trace
  responses : u.delivered ++ u.rspq = s.delivered ++ s.rspq
  core      : u.core = { s.core with cmd := 0x20, count := u.core.count, timer := u.core.timer, state := u.core.state }
  state     : u.core.state ∈ ([.receiveCount1, .receiveCount2, .delay, .receiveCommand] : List Fsm)

theorem DelayUnderway.still {s u : State} (h : DelayUnderway s u) (hs : s.Still) : u.Still := by
  rw [State.Still, h.params, h.core]
  exact hs

/-- A tick whose answer writes no more than the counters and the state. -/
theorem DelayUnderway.answered {s u : State} {r : Regs} {pop : Bool} (h : DelayUnderway s u)
    (hr : u.input.rst = none) (ho : coreStep u.params u.coreIn u.core = { regs := r, pop := pop })
    (hreg : r = { u.core with count := r.count, timer := r.timer, state := r.state })
    (hst : r.state ∈ ([.receiveCount1, .receiveCount2, .delay, .receiveCommand] : List Fsm)) :
    DelayUnderway s (tick u) := by
  obtain ⟨hcore, hparams, hfault, htrace, hrsp⟩ := tick_of_silent_answer hr h.fault ho
  refine ⟨hparams.trans h.params, hfault, htrace.trans h.trace, ?_, ?_, hcore ▸ hst⟩
  · rw [hrsp, h.responses]
    exact List.append_nil _
  · rw [hcore]
    exact hreg.trans (congrArg (fun x : Regs => { x with count := r.count, timer := r.timer, state := r.state }) h.core)

theorem DelayUnderway.tick {s u : State} (hs : s.Still) (hr : u.input.rst = none) (hb : u.atBoundary = false)
    (h : DelayUnderway s u) : DelayUnderway s (tick u) := by
  have hstill := h.still hs
  have hstate := h.state
  simp only [List.mem_cons, List.not_mem_nil, or_false] at hstate
  rcases hstate with hst | hst | hst | hst
  · have hstep := (coreStep_of_still hstill (by simp [hst])).trans (stateRule_receiveCount1 hst)
    cases hx : u.coreIn.cmdValid with
    | true => exact h.answered hr (hstep.trans (onReceiveCount1_of_valid hx _ _)) rfl (by simp)
    | false => exact h.answered hr (hstep.trans (by simp only [onReceiveCount1, hx]; rfl)) rfl (by simp [hst])
  · have hstep := (coreStep_of_still hstill (by simp [hst])).trans (stateRule_receiveCount2 hst)
    have hcmd : selectorOf u.core.cmd = 0x2 := by
      rw [h.core]
      exact (by decide : selectorOf 0x20 = 0x2)
    cases hx : u.coreIn.cmdValid with
    | true => exact h.answered hr (hstep.trans (onReceiveCount2_of_valid hx _ _)) rfl (by simp [hcmd])
    | false => exact h.answered hr (hstep.trans (by simp only [onReceiveCount2, hx]; rfl)) rfl (by simp [hst])
  · have hstep := (coreStep_of_still hstill (by simp [hst])).trans (stateRule_delay hst)
    by_cases ht : u.core.timer = 0
    · by_cases hc : u.core.count = 0
      · exact h.answered hr (hstep.trans (onDelay_of_done ht hc _ _)) rfl (by simp)
      · exact h.answered hr (hstep.trans (onDelay_of_reload ht hc _ _)) rfl (by simp [hst])
    · exact h.answered hr (hstep.trans (onDelay_of_counting ht _ _)) rfl (by simp [hst])
  · exact absurd hst ((atBoundary_eq_false_iff u).mp hb)

theorem delayUnderway_after_opcode {s : State} {rest : List Byte} (h : s.Ready) (hr : s.input.rst = none)
    (hq : s.cmdq = 0x20 :: rest) : DelayUnderway s (tick s) := by
  obtain ⟨-, hf, -⟩ := id h
  obtain ⟨hcore, hparams, hfault, htrace, hrsp⟩ := tick_of_silent_answer hr hf
    ((coreStep_of_ready h hq).trans (acceptOpcode_of_count (by decide) s.core))
  exact ⟨hparams, hfault, htrace, by simpa using hrsp, by rw [hcore], by simp [hcore]⟩

/-! ### SYNC -/

/-- A SYNC that began in `s` has come as far as `u`: it waits for room, or has pushed its byte. -/
structure SyncUnderway (s u : State) : Prop where
  params   : u.params = s.params
  fault    : u.fault = none
  trace    : u.trace = s.trace
  core     : u.core = { s.core with cmd := 0x30, state := u.core.state }
  progress : (u.core.state = .sync ∧ u.delivered ++ u.rspq = s.delivered ++ s.rspq) ∨
    (u.core.state = .receiveCommand ∧ u.delivered ++ u.rspq = s.delivered ++ s.rspq ++ [0x00])

theorem SyncUnderway.tick {s u : State} (hs : s.Still) (hr : u.input.rst = none) (hb : u.atBoundary = false)
    (h : SyncUnderway s u) : SyncUnderway s (tick u) := by
  obtain ⟨hst, hresponses⟩ := h.progress.resolve_right fun hend => (atBoundary_eq_false_iff u).mp hb hend.1
  have hstill : u.Still := by
    rw [State.Still, h.params, h.core]
    exact hs
  have hstep := coreStep_of_sync hstill hst
  cases hx : u.coreIn.rspReady with
  | true =>
    obtain ⟨hcore, hparams, hfault, htrace, hrsp⟩ :=
      tick_of_silent_answer hr h.fault (hstep.trans (onSync_of_ready hx _))
    refine ⟨hparams.trans h.params, hfault, htrace.trans h.trace, ?_, .inr ⟨by rw [hcore], ?_⟩⟩
    · rw [hcore]
      exact congrArg (fun x : Regs => { x with state := .receiveCommand }) h.core
    · rw [hrsp, hresponses]
      rfl
  | false =>
    obtain ⟨hcore, hparams, hfault, htrace, hrsp⟩ :=
      tick_of_silent_answer hr h.fault (hstep.trans (onSync_of_not_ready hx _))
    refine ⟨hparams.trans h.params, hfault, htrace.trans h.trace, ?_, .inl ⟨by rw [hcore, hst], ?_⟩⟩
    · rw [hcore]
      exact h.core
    · rw [hrsp, hresponses]
      exact List.append_nil _

theorem syncUnderway_after_opcode {s : State} {rest : List Byte} (h : s.Ready) (hr : s.input.rst = none)
    (hq : s.cmdq = 0x30 :: rest) : SyncUnderway s (tick s) := by
  obtain ⟨-, hf, -⟩ := id h
  obtain ⟨hcore, hparams, hfault, htrace, hrsp⟩ := tick_of_silent_answer hr hf
    ((coreStep_of_ready h hq).trans (acceptOpcode_sync s.core))
  exact ⟨hparams, hfault, htrace, by rw [hcore], .inl ⟨by rw [hcore], by simpa using hrsp⟩⟩

/-- Settles O39: the tick of the opcode begins what every later tick of the command keeps. -/
theorem frameOfDelayAndSync : Obligations.FrameOfDelayAndSync := by
  intro n s t h hn
  refine ⟨fun hexec => ?_, fun hexec => ?_⟩
  · obtain ⟨-, -, k, hrun, hn'⟩ := exec_next_of_noReset hexec hn
    have hready := h.deliver (encode (.delay n))
    have hend : DelayUnderway (s.deliver (encode (.delay n))) t :=
      hrun.keeps hn' one_pos hrun.pos (delayUnderway_after_opcode hready (hn'.first hrun.pos) rfl)
        fun u hr hb hu => hu.tick hready.still hr hb
    refine ⟨?_, hend.params, hend.fault, hend.trace, hend.responses⟩
    have hcmd : t.core.cmd = 0x20 := by rw [hend.core]
    rw [hcmd]
    exact hend.core
  · obtain ⟨-, -, k, hrun, hn'⟩ := exec_next_of_noReset hexec hn
    have hready := h.deliver (encode .sync)
    have hend : SyncUnderway (s.deliver (encode .sync)) t :=
      hrun.keeps hn' one_pos hrun.pos (syncUnderway_after_opcode hready (hn'.first hrun.pos) rfl)
        fun u hr hb hu => hu.tick hready.still hr hb
    have hcmd : t.core.cmd = 0x30 := by rw [hend.core]
    refine ⟨?_, hend.params, hend.fault, hend.trace, hend.progress.imp (·.2) (·.2)⟩
    rw [hcmd]
    exact hend.core

/-! ### SHIFT -/

/-- The SHIFT under way in `u` has at most `m` bytes still to move: those its count announces while the count is
being read, then those of `count`, and the byte in the shift registers. -/
def State.Owes (u : State) (m : Nat) : Prop :=
  match u.core.state with
  | .receiveCount1  => ∃ lo hi rest, u.cmdq = lo :: hi :: rest ∧ (countOf lo hi).toNat ≤ m
  | .receiveCount2  => ∃ hi rest, u.cmdq = hi :: rest ∧ (setCountHi u.core.count hi).toNat ≤ m
  | .countCheck     => u.core.count.toNat ≤ m
  | .receiveData    => u.core.count.toNat ≤ m
  | .transfer       => u.core.count.toNat + 1 ≤ m
  | .sendData       => u.core.count.toNat + 1 ≤ m
  | .receiveCommand => True
  | .delay          => False
  | .sync           => False

section
variable {u : State} {m : Nat}

theorem State.Owes.receiveCount1 (h : u.Owes m) (hs : u.core.state = .receiveCount1) :
    ∃ lo hi rest, u.cmdq = lo :: hi :: rest ∧ (countOf lo hi).toNat ≤ m := by
  rwa [State.Owes, hs] at h

theorem State.Owes.receiveCount2 (h : u.Owes m) (hs : u.core.state = .receiveCount2) :
    ∃ hi rest, u.cmdq = hi :: rest ∧ (setCountHi u.core.count hi).toNat ≤ m := by
  rwa [State.Owes, hs] at h

theorem State.Owes.count_le (h : u.Owes m) (hs : u.core.state = .countCheck ∨ u.core.state = .receiveData) :
    u.core.count.toNat ≤ m := by
  rcases hs with hs | hs <;> rwa [State.Owes, hs] at h

theorem State.Owes.count_lt (h : u.Owes m) (hs : u.core.state = .transfer ∨ u.core.state = .sendData) :
    u.core.count.toNat + 1 ≤ m := by
  rcases hs with hs | hs <;> rwa [State.Owes, hs] at h

theorem State.Owes.ne_delay (h : u.Owes m) : u.core.state ≠ .delay := fun hs => by
  rwa [State.Owes, hs] at h

theorem State.Owes.ne_sync (h : u.Owes m) : u.core.state ≠ .sync := fun hs => by
  rwa [State.Owes, hs] at h

theorem owes_of_receiveCommand (hs : u.core.state = .receiveCommand) : u.Owes m := by
  rw [State.Owes, hs]
  trivial

theorem owes_of_count_le (hs : u.core.state = .countCheck ∨ u.core.state = .receiveData)
    (h : u.core.count.toNat ≤ m) : u.Owes m := by
  rcases hs with hs | hs <;> rwa [State.Owes, hs]

theorem owes_of_count_lt (hs : u.core.state = .transfer ∨ u.core.state = .sendData)
    (h : u.core.count.toNat + 1 ≤ m) : u.Owes m := by
  rcases hs with hs | hs <;> rwa [State.Owes, hs]

/-- Bytes that arrive behind the header change nothing of what is owed. -/
theorem State.Owes.of_arrival (h : u.Owes m) {v : State} {arrived : List Byte} (hc : v.core = u.core)
    (hq : v.cmdq = u.cmdq ++ arrived) : v.Owes m := by
  obtain ⟨st, hs⟩ : ∃ st, u.core.state = st := ⟨_, rfl⟩
  have hs' : v.core.state = st := hc ▸ hs
  cases st with
  | receiveCount1 =>
    obtain ⟨lo, hi, rest, hu, hle⟩ := h.receiveCount1 hs
    rw [State.Owes, hs']
    exact ⟨lo, hi, rest ++ arrived, by rw [hq, hu]; rfl, hle⟩
  | receiveCount2 =>
    obtain ⟨hi, rest, hu, hle⟩ := h.receiveCount2 hs
    rw [State.Owes, hs']
    exact ⟨hi, rest ++ arrived, by rw [hq, hu]; rfl, hc ▸ hle⟩
  | countCheck => exact owes_of_count_le (.inl hs') (hc ▸ h.count_le (.inl hs))
  | receiveData => exact owes_of_count_le (.inr hs') (hc ▸ h.count_le (.inr hs))
  | transfer => exact owes_of_count_lt (.inl hs') (hc ▸ h.count_lt (.inl hs))
  | sendData => exact owes_of_count_lt (.inr hs') (hc ▸ h.count_lt (.inr hs))
  | receiveCommand => exact owes_of_receiveCommand hs'
  | delay => exact absurd hs h.ne_delay
  | sync => exact absurd hs h.ne_sync

/-- The tick of a TRANSFER goes on or ends the state, and leaves `count` alone. -/
theorem coreStep_transfer_count {p : Params} {r : Regs} (hs : r.state = .transfer) (x : CoreIn) :
    ((coreStep p x r).regs.state = .transfer ∨ (coreStep p x r).regs.state = .sendData) ∧
      (coreStep p x r).regs.count = r.count ∧ (coreStep p x r).push = none := by
  rw [coreStep_regs, coreStep_push, stateRule_transfer hs, onTransfer]
  split_ifs <;> simp [hs]

/-- One tick of a running SHIFT: what it still owes goes down by what it pushes. -/
theorem owes_after_coreStep {v : State} (hi : u.core.Inv u.params)
    (hb : u.atBoundary = false) (hsel : selectorOf u.core.cmd ≠ 0x2) (h : u.Owes m)
    (hcore : v.core = (coreStep u.params u.coreIn u.core).regs)
    (hq : v.cmdq = nextCmdq u.cmdq (coreStep u.params u.coreIn u.core).pop u.input.arrive) :
    ∃ m', v.Owes m' ∧ (coreStep u.params u.coreIn u.core).push.toList.length + m' ≤ m := by
  by_cases hst : u.core.state = .transfer
  · obtain ⟨hnext, hcount, hpush⟩ := coreStep_transfer_count (p := u.params) hst u.coreIn
    rw [← hcore] at hnext hcount
    exact ⟨m, owes_of_count_lt hnext (hcount ▸ h.count_lt (.inl hst)), by rw [hpush]; simp⟩
  rw [coreStep_atRest (hi.rest hst) hst] at hcore hq ⊢
  obtain ⟨st, hs⟩ : ∃ st, u.core.state = st := ⟨_, rfl⟩
  cases st with
  | receiveCommand => exact absurd hs ((atBoundary_eq_false_iff u).mp hb)
  | sync => exact absurd hs h.ne_sync
  | delay => exact absurd hs h.ne_delay
  | transfer => exact absurd hs hst
  | receiveCount1 =>
    obtain ⟨lo, hi', rest, hu, hle⟩ := h.receiveCount1 hs
    obtain ⟨hvalid, hdata⟩ := coreIn_of_cmdq_cons hu
    rw [stateRule_receiveCount1 hs, onReceiveCount1_of_valid hvalid, hdata] at hcore hq ⊢
    refine ⟨m, ?_, by simp⟩
    have hs' : v.core.state = .receiveCount2 := by rw [hcore]
    rw [State.Owes, hs']
    refine ⟨hi', rest ++ u.input.arrive.toList, by rw [hq, hu]; rfl, ?_⟩
    rw [hcore]
    simp only [setCount_both]
    exact hle
  | receiveCount2 =>
    obtain ⟨hi', rest, hu, hle⟩ := h.receiveCount2 hs
    obtain ⟨hvalid, hdata⟩ := coreIn_of_cmdq_cons hu
    rw [stateRule_receiveCount2 hs, onReceiveCount2_of_valid hvalid, hdata, if_neg hsel] at hcore hq ⊢
    refine ⟨m, owes_of_count_le (.inl (by rw [hcore])) ?_, by simp⟩
    rw [hcore]
    exact hle
  | countCheck =>
    have hle := h.count_le (.inl hs)
    rw [stateRule_countCheck hs, onCountCheck] at hcore hq ⊢
    refine ⟨m, ?_, by simp⟩
    split_ifs at hcore
    · exact owes_of_receiveCommand (by rw [hcore])
    · exact owes_of_count_le (.inr (by rw [hcore])) (by rw [hcore]; exact hle)
  | receiveData =>
    have hle := h.count_le (.inr hs)
    have hstart {b : Byte} (hc : v.core = startByte b u.core { u.core with ctr := 0 }) : v.Owes m := by
      refine owes_of_count_lt (.inl (by rw [hc]; rfl)) ?_
      rw [hc]
      exact (toNat_pred_of_ne_zero (hi.count_ne_zero hs)).trans_le hle
    have hstay (hc : v.core = { u.core with ctr := 0 }) : v.Owes m :=
      owes_of_count_le (.inr (by rw [hc]; exact hs)) (by rw [hc]; exact hle)
    rw [stateRule_receiveData hs] at hcore hq ⊢
    rcases onReceiveData_cases u.params u.coreIn u.core { u.core with ctr := 0 } with
      ⟨-, -, ho⟩ | ⟨-, ho⟩ | ⟨-, ho⟩ | ⟨-, -, -, -, ho⟩ <;> rw [ho] at hcore ⊢
    · exact ⟨m, hstay hcore, by simp⟩
    · exact ⟨m, hstart hcore, by simp⟩
    · exact ⟨m, hstart hcore, by simp⟩
    · exact ⟨m, hstay hcore, by simp [raiseFault]⟩
  | sendData =>
    have hlt := h.count_lt (.inr hs)
    have hgone (hc : v.core = { u.core with ctr := 0, state := afterSend u.core }) : v.Owes (m - 1) := by
      have hst' : v.core.state = afterSend u.core := by rw [hc]
      unfold afterSend at hst'
      split_ifs at hst'
      · exact owes_of_receiveCommand hst'
      · refine owes_of_count_le (.inr hst') ?_
        rw [hc]
        simp only
        omega
    rw [stateRule_sendData hs] at hcore hq ⊢
    rcases onSendData_cases u.coreIn u.core { u.core with ctr := 0 } with ⟨-, ho⟩ | ⟨-, -, ho⟩ | ⟨-, -, ho⟩ <;>
      rw [ho] at hcore ⊢
    · exact ⟨m - 1, hgone hcore, by simp⟩
    · exact ⟨m - 1, hgone hcore, by simp only [Option.toList_some, List.length_singleton]; omega⟩
    · exact ⟨m, owes_of_count_lt (.inr (by rw [hcore]; exact hs)) (by rw [hcore]; exact hlt), by simp⟩

end

/-- A SHIFT with opcode `op` of at most `n` bytes that began in `s` has come as far as `u`. -/
structure ShiftUnderway (s : State) (op : Byte) (n : Nat) (u : State) : Prop where
  params    : u.params = s.params
  inv       : u.Inv
  cmd       : u.core.cmd = op
  responses : ∃ rsp m, u.delivered ++ u.rspq = s.delivered ++ s.rspq ++ rsp ∧ u.Owes m ∧ rsp.length + m ≤ n ∧
    (dataIn op = false → rsp = [])

theorem ShiftUnderway.tick {s u : State} {op : Byte} {n : Nat} (hv : s.params.Valid) (hsel : selectorOf op ≠ 0x2)
    (hr : u.input.rst = none) (hb : u.atBoundary = false) (h : ShiftUnderway s op n u) :
    ShiftUnderway s op n (tick u) := by
  obtain ⟨rsp, m, hrsp, howes, hle, hsilent⟩ := h.responses
  obtain ⟨hgain, hpush⟩ := responsesComeFromSyncAndDataIn u hr
  have hu : u.params.Valid := h.params ▸ hv
  have howes' : ∃ m', (Machine.tick u).Owes m' ∧ (coreOut u).push.toList.length + m' ≤ m := by
    rcases coreOut_cases u with ⟨⟨f, hf⟩, ho⟩ | ⟨hf, ho⟩ <;> rw [ho]
    · refine ⟨m, howes.of_arrival (arrived := u.input.arrive.toList) ?_ ?_, by simp⟩ <;>
        rw [tick_of_fault hr hf]
      · rfl
      · simp
    · refine owes_after_coreStep (h.inv hu) hb (h.cmd ▸ hsel) howes ?_ ?_ <;> rw [tick_of_running hr hf] <;> rfl
  obtain ⟨m', hm', hlen⟩ := howes'
  refine ⟨(tick_params hr).trans h.params, tick_inv h.inv, (tick_keeps_pins hr hb).2.2.trans h.cmd,
    rsp ++ (coreOut u).push.toList, m', ?_, hm', ?_, fun hd => ?_⟩
  · rw [hgain, hrsp, List.append_assoc]
  · rw [List.length_append]
    omega
  · have hnone : (coreOut u).push = none := by
      refine Option.eq_none_iff_forall_ne_some.mpr fun v hpv => ?_
      rcases (hpush v hpv).2.2 with ⟨hs, -⟩ | ⟨-, hd', -⟩
      · exact howes.ne_sync hs
      · rw [h.cmd, hd] at hd'
        exact Bool.false_ne_true hd'
    rw [hsilent hd, hnone]
    rfl

theorem shiftUnderway_after_opcode {s : State} {op lo hi : Byte} {rest : List Byte} (h : s.Ready)
    (hr : s.input.rst = none) (hop : op ∈ ([0x10, 0x11, 0x12, 0x13] : List Byte))
    (hq : s.cmdq = op :: lo :: hi :: rest) : ShiftUnderway s op (countOf lo hi).toNat (tick s) := by
  obtain ⟨-, hf, -, hinv⟩ := id h
  have hcount : op ∈ ([0x10, 0x11, 0x12, 0x13, 0x20] : List Byte) := List.mem_append_left [0x20] hop
  have ho := (coreStep_of_ready h hq).trans (acceptOpcode_of_count hcount s.core)
  obtain ⟨hcore, hparams, -, -, hrsp⟩ := tick_of_silent_answer hr hf ho
  have hcmdq : (tick s).cmdq = lo :: hi :: rest ++ s.input.arrive.toList := by
    rw [tick_of_running hr hf, ho, advance_cmdq, hq]
    rfl
  have howes : (tick s).Owes (countOf lo hi).toNat := by
    have hs : (tick s).core.state = .receiveCount1 := by rw [hcore]
    rw [State.Owes, hs]
    exact ⟨lo, hi, _, hcmdq, le_rfl⟩
  exact ⟨hparams, tick_inv fun _ => hinv, by rw [hcore], [], _, hrsp, howes, by simp, fun _ => rfl⟩

/-- What a SHIFT leaves alone and what it pushes, whatever stalls. -/
theorem exec_shift_frame {i : Instr} {op : Byte} {n : Count} {payload : List Byte} {s t : State}
    (henc : encode i = op :: countLo n :: countHi n :: payload) (hop : op ∈ ([0x10, 0x11, 0x12, 0x13] : List Byte))
    (hselect : ∀ l, i ≠ .select l) (hoe : ∀ l, i ≠ .oe l)
    (h : s.Ready) (hexec : exec i s = .next t) (hn : s.NoReset (t.clock - s.clock)) :
    t.core.cs = s.core.cs ∧ t.core.oe = s.core.oe ∧ t.core.timer = s.core.timer ∧ t.params = s.params ∧
      (dataIn op = false → t.delivered ++ t.rspq = s.delivered ++ s.rspq) ∧
      ∃ rsp : List Byte, rsp.length ≤ n.toNat ∧ t.delivered ++ t.rspq = s.delivered ++ s.rspq ++ rsp := by
  obtain ⟨hcs, hoe'⟩ := exec_keeps_pins hselect hoe hexec hn
  obtain ⟨hv, -, k, hrun, hn'⟩ := exec_next_of_noReset hexec hn
  obtain ⟨-, -, hs, hinv⟩ := id h
  have hsel : selectorOf op ≠ 0x2 :=
    (by decide : ∀ op ∈ ([0x10, 0x11, 0x12, 0x13] : List Byte), selectorOf op ≠ 0x2) op hop
  have hstart := shiftUnderway_after_opcode (h.deliver (encode i)) (hn'.first hrun.pos) hop
    (congrArg (· ++ s.cmdq) henc)
  rw [countOf_halves] at hstart
  have hend : ShiftUnderway (s.deliver (encode i)) op n.toNat t :=
    hrun.keeps hn' one_pos hrun.pos hstart fun u hr hb hu => hu.tick hv hsel hr hb
  obtain ⟨rsp, m, hrsp, howes, hle, hsilent⟩ := hend.responses
  have htinv : t.core.Inv t.params := hend.inv (hend.params ▸ hv)
  refine ⟨hcs, hoe', ?_, hend.params, fun hd => ?_, rsp, by omega, hrsp⟩
  · rw [htinv.timer_zero howes.ne_delay, hinv.timer_zero (by simp [hs])]
  · rw [hrsp, hsilent hd]
    exact List.append_nil _

/-- Settles O38: each of the four opcodes begins a SHIFT of its count, and those of SHIFT.NONE and SHIFT.OUT have
no DATA-IN. -/
theorem frameOfShift : Obligations.FrameOfShift := by
  intro i n payload s t hi h hexec hn
  simp only [List.mem_cons, List.not_mem_nil, or_false] at hi
  rcases hi with rfl | rfl | rfl | rfl
  · obtain ⟨hcs, hoe, htimer, hparams, hsilent, hrsp⟩ :=
      exec_shift_frame (i := .shiftNone n) (op := 0x10) (payload := [])
        rfl (by decide) nofun nofun h hexec hn
    exact ⟨hcs, hoe, htimer, hparams, fun _ => hsilent (by decide), hrsp⟩
  · obtain ⟨hcs, hoe, htimer, hparams, hsilent, hrsp⟩ :=
      exec_shift_frame (i := .shiftOut n payload) (op := 0x11) (payload := payload)
        rfl (by decide) nofun nofun h hexec hn
    exact ⟨hcs, hoe, htimer, hparams, fun _ => hsilent (by decide), hrsp⟩
  · obtain ⟨hcs, hoe, htimer, hparams, -, hrsp⟩ :=
      exec_shift_frame (i := .shiftIn n) (op := 0x12) (payload := [])
        rfl (by decide) nofun nofun h hexec hn
    exact ⟨hcs, hoe, htimer, hparams, fun hmem => by simp at hmem, hrsp⟩
  · obtain ⟨hcs, hoe, htimer, hparams, -, hrsp⟩ :=
      exec_shift_frame (i := .shiftIo n payload) (op := 0x13) (payload := payload)
        rfl (by decide) nofun nofun h hexec hn
    exact ⟨hcs, hoe, htimer, hparams, fun hmem => by simp at hmem, hrsp⟩

end Sys2Proof.Machine

/-! The DELAY state and the whole DELAY command where nothing resets (rules R167, R240, R242). -/

namespace Sys2Proof.Machine

/-- The core is in the state `st` in each of the next `k` ticks. -/
def State.StaysIn (s : State) (st : Fsm) (k : Nat) : Prop := ∀ j, j < k → (ticks j s).core.state = st

theorem State.StaysIn.one {s : State} {st : Fsm} (h : s.core.state = st) : s.StaysIn st 1 := fun j hj => by
  obtain rfl : j = 0 := by omega
  exact h

theorem State.StaysIn.trans {s t : State} {st : Fsm} {j k : Nat} (h : s.StaysIn st j) (ht : t = ticks j s)
    (g : t.StaysIn st k) : s.StaysIn st (j + k) := fun i hi => by
  rcases Nat.lt_or_ge i j with hij | hij
  · exact h i hij
  · obtain ⟨d, rfl⟩ := Nat.exists_eq_add_of_le hij
    rw [ticks_add, ← ht]
    exact g d (by omega)

theorem State.StaysIn.away {s : State} {st : Fsm} {k : Nat} (h : s.StaysIn st k) (hst : st ≠ .receiveCommand)
    (j : Nat) (hj : j < k) : (ticks j s).atBoundary = false :=
  (atBoundary_eq_false_iff _).mpr (by rwa [h j hj])

/-! ### The state `DELAY` -/

theorem coreStep_of_delay {s : State} (h : s.Still) (hs : s.core.state = .delay) :
    coreStep s.params s.coreIn s.core = onDelay s.params s.core s.core := by
  rw [coreStep_of_still h (by simp [hs]), stateRule_delay hs]

/-- Rule R167, the inner counter: `timer` runs out and nothing else happens. -/
theorem ran_delay_timer {c : Nat} {s : State} (hn : s.NoReset c) (hf : s.fault = none) (h : s.Still)
    (hs : s.core.state = .delay) (ht : s.core.timer = c) :
    ∃ t, Ran s t c 0 [] [] ∧ t.core = { s.core with timer := 0 } ∧ s.StaysIn .delay c := by
  induction c generalizing s with
  | zero => exact ⟨s, Ran.refl hf, by rw [← ht], fun j hj => by omega⟩
  | succ c ih =>
    obtain ⟨hran, hcore⟩ := Ran.one (pops := 0) (hn 0 (by omega)) hf
      ((coreStep_of_delay h hs).trans (onDelay_of_counting (by omega) _ _)) rfl rfl nofun rfl rfl
    have hstill : (tick s).Still := by
      rw [State.Still, hran.params, hcore]
      exact h
    obtain ⟨t, hran', hcore', hstay⟩ := ih (s := tick s) (State.NoReset.after (j := 1) (by rwa [Nat.add_comm 1 c]))
      hran.fault hstill (by rw [hcore]; exact hs) (by rw [hcore, ht]; rfl)
    refine ⟨t, ?_, ?_, ?_⟩
    · rw [Nat.add_comm c 1]
      exact hran.trans_quiet hran'
    · rw [hcore', hcore]
    · rw [Nat.add_comm c 1]
      exact (State.StaysIn.one hs).trans rfl hstay

/-- Rules R167, R242: `DELAY` entered with `timer = 0` lasts `count * DELAY_CYC + 1` ticks, in which nothing else
happens. -/
theorem ran_delay {n : Nat} {s : State} (hD : 1 ≤ s.params.delayCyc) (hn : s.NoReset (n * s.params.delayCyc + 1))
    (hf : s.fault = none) (h : s.Still) (hs : s.core.state = .delay) (ht : s.core.timer = 0)
    (hc : s.core.count.toNat = n) :
    ∃ t, Ran s t (n * s.params.delayCyc + 1) 0 [] [] ∧ t.core = { s.core with state := .receiveCommand, count := 0 } ∧
      s.StaysIn .delay (n * s.params.delayCyc + 1) := by
  induction n generalizing s with
  | zero =>
    have hc0 : s.core.count = 0 := BitVec.eq_of_toNat_eq hc
    rw [Nat.zero_mul, Nat.zero_add] at hn ⊢
    obtain ⟨hran, hcore⟩ := Ran.one (pops := 0) (hn 0 one_pos) hf
      ((coreStep_of_delay h hs).trans (onDelay_of_done ht hc0 _ _)) rfl rfl nofun rfl rfl
    exact ⟨tick s, hran, by rw [hcore, ← hc0], State.StaysIn.one hs⟩
  | succ n ih =>
    have hc0 : s.core.count ≠ 0 := fun h0 => by simp [h0] at hc
    have hpred := toNat_pred_of_ne_zero hc0
    have hsplit : (n + 1) * s.params.delayCyc + 1 = 1 + (s.params.delayCyc - 1) + (n * s.params.delayCyc + 1) := by
      rw [Nat.succ_mul]
      omega
    rw [hsplit] at hn ⊢
    obtain ⟨hran₁, hcore₁⟩ := Ran.one (pops := 0) (hn 0 (by omega)) hf
      ((coreStep_of_delay h hs).trans (onDelay_of_reload ht hc0 _ _)) rfl rfl nofun rfl rfl
    have hstill₁ : (tick s).Still := by
      rw [State.Still, hran₁.params, hcore₁]
      exact h
    have hn₁ : s.NoReset (1 + (s.params.delayCyc - 1)) := hn.mono (by omega)
    obtain ⟨u, hran₂, hcore₂, hstay₂⟩ := ran_delay_timer (s := tick s) (State.NoReset.after (j := 1) hn₁)
      hran₁.fault hstill₁ (by rw [hcore₁]; exact hs) (by rw [hcore₁])
    have hran := hran₁.trans_quiet hran₂
    have hstill₂ : u.Still := by
      rw [State.Still, hran₂.params, hcore₂]
      exact hstill₁
    have hnu : u.NoReset (n * s.params.delayCyc + 1) := hran.isTicks ▸ hn.after
    obtain ⟨t, hran₃, hcore₃, hstay₃⟩ := ih (s := u) (by rwa [hran.params]) (by rwa [hran.params]) hran.fault hstill₂
      (by rw [hcore₂, hcore₁]; exact hs) (by rw [hcore₂]) (by rw [hcore₂, hcore₁]; simp only; omega)
    rw [hran.params] at hran₃ hstay₃
    refine ⟨t, hran.trans_quiet hran₃, ?_, ?_⟩
    · rw [hcore₃, hcore₂, hcore₁, ← ht]
    · exact ((State.StaysIn.one hs).trans rfl hstay₂).trans hran.isTicks hstay₃

/-- Settles O23: the run of the state, read off. -/
theorem delayStateLasts : Obligations.DelayStateLasts := by
  intro s hv hi hf hs ht k hn
  have hstill : s.Still := ⟨(hi hv).rest (by simp [hs]), (hi hv).ctr_zero (by simp [hs]) (by simp [hs])⟩
  obtain ⟨t, hran, hcore, hstay⟩ := ran_delay hv.2 hn hf hstill hs ht rfl
  rw [← hran.isTicks]
  exact ⟨hcore, hstay, hran.cmdq, by simpa using hran.responses, by simpa using hran.trace⟩

/-! ### The command -/

/-- What every tick of a DELAY under way shows on the pins (rule R240). -/
theorem outputs_of_delay {s u : State} (h : s.core.BusAtRest s.params) (hp : u.params = s.params)
    (hc : u.core = { s.core with
      cmd := u.core.cmd, count := u.core.count, timer := u.core.timer, state := u.core.state }) :
    (outputs u).sck = s.params.sckIdle ∧ (outputs u).dout = false ∧
      (outputs u).csN = (outputs s).csN ∧ (outputs u).csOe = (outputs s).csOe := by
  rw [outputs_sck, outputs_dout, outputs_csN, outputs_csOe, hp, hc]
  exact ⟨h.sck, h.dout, rfl, rfl⟩

/-- The whole DELAY, its frame waiting: three ticks for the frame, then the state `DELAY` with the count of the
frame. The core is away from a boundary in between. -/
theorem ran_whole_delay {n : Count} {s : State} {rest : List Byte} (h : s.Ready)
    (hn : s.NoReset (delayTicks s.params n)) (hq : s.cmdq = 0x20 :: countLo n :: countHi n :: rest) :
    ∃ t, Ran s t (delayTicks s.params n) 3 [] [] ∧ t.core = { s.core with cmd := 0x20, count := 0, timer := 0 } ∧
      ∀ j, 0 < j → j < delayTicks s.params n → (ticks j s).atBoundary = false := by
  obtain ⟨hv, -, hs, hinv⟩ := id h
  have hk : 3 + (n.toNat * s.params.delayCyc + 1) = delayTicks s.params n := by
    unfold delayTicks
    omega
  rw [← hk] at hn ⊢
  obtain ⟨u, hran₁, hcore₁, hmid⟩ := ran_header h (hn.mono (by omega)) (by decide) hq
  rw [if_pos (by decide : selectorOf 0x20 = 0x2), countOf_halves] at hcore₁
  have hp : u.params = s.params := hran₁.params
  have hrest : u.NoReset (n.toNat * u.params.delayCyc + 1) := by
    rw [hp, hran₁.isTicks]
    exact hn.after
  obtain ⟨t, hran₂, hcore₂, hstay⟩ := ran_delay (hp ▸ hv.2) hrest hran₁.fault (h.still.of_core hran₁.params hcore₁)
    (by rw [hcore₁]) (by rw [hcore₁]; exact hinv.timer_zero (by simp [hs])) (by rw [hcore₁])
  rw [hp] at hran₂ hstay
  refine ⟨t, hran₁.trans_quiet hran₂, ?_, fun j h0 hj => ?_⟩
  · rw [hcore₂, hcore₁, ← hinv.timer_zero (by simp [hs]), ← hs]
  · rcases Nat.lt_or_ge j 3 with h3 | h3
    · exact hmid j h0 h3.le
    · obtain ⟨d, rfl⟩ := Nat.exists_eq_add_of_le h3
      rw [ticks_add, ← hran₁.isTicks]
      exact hstay.away (by decide) d (by omega)

/-- Settles O43: the whole run of the delivered frame, and in each of its ticks what a DELAY under way keeps. -/
theorem delayHoldsTheInterpreter : Obligations.DelayHoldsTheInterpreter := by
  intro n s h hn
  obtain ⟨-, -, hs, hinv⟩ := id h
  have hready := h.deliver (encode (.delay n))
  have hrest := hinv.rest (by simp [hs])
  obtain ⟨t, hran, hcore, hmid⟩ := ran_whole_delay (rest := s.cmdq) hready hn rfl
  obtain ⟨hexec, hdone⟩ := exec_of_ran (i := .delay n) h (Nat.succ_pos _) le_rfl hran hmid (by rw [hcore]; exact hs)
  refine ⟨rfl, t, hexec, hcore, hdone, fun j hj => ?_⟩
  rcases Nat.eq_zero_or_pos j with rfl | hpos
  · exact outputs_of_delay hrest rfl rfl
  · have hn' : (s.deliver (encode (.delay n))).NoReset j := hn.mono hj
    have hstretch : FirstStretch (s.deliver (encode (.delay n))) (ticks j (s.deliver (encode (.delay n)))) j :=
      ⟨hpos, rfl, fun i h0 hi => hmid i h0 (Nat.lt_of_lt_of_le hi hj)⟩
    have hunder : DelayUnderway (s.deliver (encode (.delay n))) (ticks j (s.deliver (encode (.delay n)))) :=
      hstretch.keeps hn' one_pos hpos (delayUnderway_after_opcode hready (hn'.first hpos) rfl)
        fun u hr hb hu => hu.tick hready.still hr hb
    have hcmd : (ticks j (s.deliver (encode (.delay n)))).core.cmd = 0x20 := by rw [hunder.core]
    refine outputs_of_delay hrest hunder.params ?_
    rw [hcmd]
    exact hunder.core

end Sys2Proof.Machine

/-! One TRANSFER from its first tick to its last (rules R148, R172, R180 to R184, R216): eight periods, each a lead
strobe, a trail strobe half a period later, and the way to the next lead strobe. -/

namespace Sys2Proof.Machine

/-! ### One period -/

/-- The level that the `latch` of a period takes in, when the period's lead strobe is `j` ticks from now. -/
def State.periodSample (s : State) (j : Nat) : Bool :=
  s.dinAt (if latchOnLead s.params then j else j + s.params.halfPeriodCyc)

/-- The bus events of a period whose lead strobe comes in tick `n` with `o` in `shreg_o`, `d` being latched. -/
def periodEvents (p : Params) (n : Nat) (o : Byte) (d : Bool) : List (Nat × BusEvent) :=
  [ (n, .lead (o.getLsbD 7)),
    (n, if latchOnLead p then .latch d else .setup),
    (n + p.halfPeriodCyc, .trail (if latchOnLead p then o.getLsbD 7 else (shiftOutLeft o).getLsbD 7)),
    (n + p.halfPeriodCyc, if latchOnLead p then .setup else .latch d) ]

theorem afterLead_eq (p : Params) (d : Bool) (r : Regs) :
    afterLead p d r = { r with shregO := if latchOnLead p then r.shregO else shiftOutLeft r.shregO,
                               shregI := if latchOnLead p then shiftInLeft r.shregI d else r.shregI } := by
  unfold afterLead
  split_ifs <;> rfl

theorem afterTrail_eq (p : Params) (d : Bool) (r : Regs) :
    afterTrail p d r = { r with shregO := if latchOnLead p then shiftOutLeft r.shregO else r.shregO,
                                shregI := if latchOnLead p then r.shregI else shiftInLeft r.shregI d } := by
  unfold afterTrail
  split_ifs <;> rfl

/-- From a lead strobe to the trail strobe: its event, and the half-period to the next toggle of the clock. -/
theorem ran_lead_half {s : State} (hH : 2 ≤ s.params.halfPeriodCyc) (hn : s.NoReset s.params.halfPeriodCyc)
    (hf : s.fault = none) (hs : s.core.state = .transfer) (hph : s.core.phase = true) (hpr : s.core.phaseR = false)
    (hk : s.core.sckR = s.params.sckIdle) (hc : s.core.ctr = s.params.halfPeriodCyc - 1) :
    ∃ t, Ran s t s.params.halfPeriodCyc 0 []
        [(s.tickNo, .lead (s.core.shregO.getLsbD 7)),
          (s.tickNo, if latchOnLead s.params then .latch (s.dinAt 0) else .setup)] ∧
      t.core = { s.core with
        bitno := s.core.bitno - 1, phase := false, phaseR := true, sckR := !s.params.sckIdle,
        shregO := if latchOnLead s.params then s.core.shregO else shiftOutLeft s.core.shregO,
        shregI := if latchOnLead s.params then shiftInLeft s.core.shregI (s.dinAt 0) else s.core.shregI } ∧
      s.StaysIn .transfer s.params.halfPeriodCyc := by
  have hsplit : 1 + (s.params.halfPeriodCyc - 2 + 1) = s.params.halfPeriodCyc := by omega
  have hlead := coreStep_lead (x := s.coreIn) hs hph hpr hk (by omega)
  rw [afterLead_eq] at hlead
  obtain ⟨hran₁, hcore₁⟩ := Ran.one (pops := 0) (rsp := []) (hn 0 (by omega)) hf hlead rfl rfl nofun rfl rfl
  obtain ⟨t, hran₂, hcore₂, hstay⟩ := ran_to_strobe (s := tick s) (c := s.params.halfPeriodCyc - 2)
    (State.NoReset.after (s := s) (j := 1) (by rwa [hsplit])) hran₁.fault (by rw [hcore₁]; exact hs)
    (by rw [hcore₁]; exact hph.symm) (by rw [hcore₁, hran₁.params]; simp [sckOf, hph])
    (by rw [hcore₁, hc]; simp only; omega)
  refine ⟨t, ?_, ?_, ?_⟩
  · exact hsplit ▸ hran₁.trans_quiet hran₂
  · rw [hcore₂, hcore₁, hran₁.params]
    simp [hph, hc, State.dinAt]
  · exact hsplit ▸ (State.StaysIn.one hs).trans rfl fun j hj => hstay j hj.le

/-- The tick of a trail strobe: its event, and the end of the state when no period is left to start. -/
theorem ran_trail {s : State} (hr : (s.inputAt 0).rst = none) (hf : s.fault = none) (hs : s.core.state = .transfer)
    (hph : s.core.phase = false) (hpr : s.core.phaseR = true) (hk : s.core.sckR = !s.params.sckIdle)
    (hc : s.core.ctr ≠ 0) :
    Ran s (tick s) 1 0 []
        [(s.tickNo, .trail (s.core.shregO.getLsbD 7)),
          (s.tickNo, if latchOnLead s.params then .setup else .latch (s.dinAt 0))] ∧
      (tick s).core = { s.core with
        state := if s.core.bitno = 0 then .sendData else .transfer,
        phaseR := false, sckR := s.params.sckIdle, ctr := s.core.ctr - 1,
        shregO := if latchOnLead s.params then shiftOutLeft s.core.shregO else s.core.shregO,
        shregI := if latchOnLead s.params then s.core.shregI else shiftInLeft s.core.shregI (s.dinAt 0) } := by
  have htrail := coreStep_trail (x := s.coreIn) hs hph hpr hk hc
  rw [afterTrail_eq] at htrail
  exact Ran.one (pops := 0) (rsp := []) hr hf htrail rfl rfl nofun rfl rfl

/-- From a lead strobe over the trail strobe: both shift registers have shifted once, one period is counted. -/
theorem ran_period {s : State} (hH : 2 ≤ s.params.halfPeriodCyc) (hn : s.NoReset (s.params.halfPeriodCyc + 1))
    (hf : s.fault = none) (hs : s.core.state = .transfer) (hph : s.core.phase = true) (hpr : s.core.phaseR = false)
    (hk : s.core.sckR = s.params.sckIdle) (hc : s.core.ctr = s.params.halfPeriodCyc - 1) :
    ∃ t, Ran s t (s.params.halfPeriodCyc + 1) 0 []
        (periodEvents s.params s.tickNo s.core.shregO (s.periodSample 0)) ∧
      t.core = { s.core with
        state := if s.core.bitno - 1 = 0 then .sendData else .transfer, bitno := s.core.bitno - 1,
        phase := false, phaseR := false, sckR := s.params.sckIdle, ctr := s.params.halfPeriodCyc - 2,
        shregO := shiftOutLeft s.core.shregO, shregI := shiftInLeft s.core.shregI (s.periodSample 0) } ∧
      s.StaysIn .transfer (s.params.halfPeriodCyc + 1) := by
  obtain ⟨u, hran₁, hcore₁, hstay⟩ := ran_lead_half hH (hn.mono (Nat.le_succ _)) hf hs hph hpr hk hc
  have hr : (u.inputAt 0).rst = none := by
    rw [hran₁.isTicks, ticks_inputAt]
    exact hn _ (by omega)
  obtain ⟨hran₂, hcore₂⟩ := ran_trail hr hran₁.fault (by rw [hcore₁]; exact hs) (by rw [hcore₁])
    (by rw [hcore₁]) (by rw [hcore₁, hran₁.params]) (by rw [hcore₁]; change s.core.ctr ≠ 0; omega)
  have hdin : u.dinAt 0 = s.dinAt s.params.halfPeriodCyc := hran₁.din 0
  have hran := hran₁.trans_quiet hran₂
  rw [hran₁.tickNo, hran₁.params, hdin, hcore₁] at hran
  rw [hran₁.params, hdin, hcore₁, hc] at hcore₂
  refine ⟨tick u, ?_, ?_, ?_⟩
  · unfold periodEvents State.periodSample
    cases hl : latchOnLead s.params <;> simpa [hl] using hran
  · rw [hcore₂]
    unfold State.periodSample
    cases hl : latchOnLead s.params <;> simp [Nat.sub_sub]
  · exact hstay.trans hran₁.isTicks (State.StaysIn.one (by rw [hcore₁]; exact hs))

/-- From between two strobes, the clock low, over the next period. -/
theorem ran_next_period {s : State} {c : Nat} (hH : 2 ≤ s.params.halfPeriodCyc)
    (hn : s.NoReset (c + 1 + (s.params.halfPeriodCyc + 1))) (hf : s.fault = none) (hs : s.core.state = .transfer)
    (hph : s.core.phase = false) (hpr : s.core.phaseR = false) (hk : s.core.sckR = s.params.sckIdle)
    (hc : s.core.ctr = c) :
    ∃ t, Ran s t (c + 1 + (s.params.halfPeriodCyc + 1)) 0 []
        (periodEvents s.params (s.tickNo + (c + 1)) s.core.shregO (s.periodSample (c + 1))) ∧
      t.core = { s.core with
        state := if s.core.bitno - 1 = 0 then .sendData else .transfer, bitno := s.core.bitno - 1,
        ctr := s.params.halfPeriodCyc - 2, shregO := shiftOutLeft s.core.shregO,
        shregI := shiftInLeft s.core.shregI (s.periodSample (c + 1)) } ∧
      s.StaysIn .transfer (c + 1 + (s.params.halfPeriodCyc + 1)) := by
  obtain ⟨u, hran₁, hcore₁, hstay₁⟩ := ran_to_strobe (hn.mono (by omega)) hf hs (hpr.trans hph.symm)
    (by simp [sckOf, hk, hph]) hc
  have hp : u.params = s.params := hran₁.params
  have hsample : u.periodSample 0 = s.periodSample (c + 1) := by
    unfold State.periodSample
    rw [hran₁.din, hp]
    split_ifs <;> simp
  have hn₁ : u.NoReset (u.params.halfPeriodCyc + 1) := by
    rw [hp, hran₁.isTicks]
    exact hn.after
  obtain ⟨t, hran₂, hcore₂, hstay₂⟩ := ran_period (by rwa [hp]) hn₁ hran₁.fault (by rw [hcore₁]; exact hs)
    (by rw [hcore₁, hph]; rfl) (by rw [hcore₁]; exact hpr) (by rw [hcore₁, hp]; exact hk) (by rw [hcore₁, hp])
  rw [hp, hran₁.tickNo, hsample, hcore₁] at hran₂
  rw [hp] at hstay₂
  refine ⟨t, hran₁.trans_quiet hran₂, ?_, State.StaysIn.trans (fun j hj => hstay₁ j hj.le) hran₁.isTicks hstay₂⟩
  rw [hcore₂, hcore₁, hp, hsample]
  simp [hph, hpr, hk]

/-! ### Eight periods -/

/-- The levels latched in the first `m` periods of a `TRANSFER` whose first tick is `e` ticks from now. -/
def State.samples (s : State) (e m : Nat) : List Bool :=
  (List.range m).map fun j => s.dinAt (latchTick s.params e j)

theorem samples_succ (s : State) (e m : Nat) :
    s.samples e (m + 1) = s.samples e m ++ [s.dinAt (latchTick s.params e m)] := by
  simp [State.samples, List.range_succ]

theorem sampled_eq_samples (s : State) (e : Nat) : s.sampled e = BitVec.ofBoolListBE (s.samples e 8) := rfl

/-- Rule R184: after as many shifts as there are samples, the samples stand at the bottom, the last in bit 0. -/
theorem foldl_shiftInLeft_bit (bits : List Bool) (i : Byte) {k : Nat} (hk : k < 8) (hlen : k < bits.length) :
    (bits.foldl shiftInLeft i).getLsbD k = bits.getD (bits.length - 1 - k) false := by
  induction bits using List.reverseRecOn generalizing k with
  | nil => simp at hlen
  | append_singleton bits b ih =>
    rw [List.foldl_append, List.foldl_cons, List.foldl_nil, List.length_append, List.length_singleton]
    rw [List.length_append, List.length_singleton] at hlen
    cases k with
    | zero => exact (shiftInLeft_bit_zero _ _).trans (by simp)
    | succ k =>
      rw [shiftInLeft_bit_succ _ _ (by omega), ih (by omega) (by omega),
        List.getD_append _ _ _ _ (by omega)]
      congr 1
      omega

/-- Rule R184: eight shifts leave nothing of what stood in the register before. -/
theorem foldl_shiftInLeft_samples (s : State) (e : Nat) (i : Byte) :
    (s.samples e 8).foldl shiftInLeft i = s.sampled e := by
  have hlen : (s.samples e 8).length = 8 := by simp [State.samples]
  refine BitVec.eq_of_getLsbD_eq fun k hk => ?_
  rw [foldl_shiftInLeft_bit _ _ hk (by omega), sampled_eq_samples]
  exact (BitVec.getLsbD_ofBoolListBE.trans (by simp [hlen, hk])).symm

/-- Rule R184: sample `j` stands in bit `7 - j`. -/
theorem sampled_bit (s : State) (e : Nat) {j : Nat} (hj : j < 8) :
    (s.sampled e).getLsbD (7 - j) = s.dinAt (latchTick s.params e j) := by
  unfold State.sampled
  rw [BitVec.getLsbD_ofBoolListBE]
  interval_cases j <;> simp

/-- A `TRANSFER` that starts now: the clock at rest, eight periods to start. -/
structure State.StartsByte (s : State) : Prop where
  state  : s.core.state = .transfer
  phase  : s.core.phase = false
  phaseR : s.core.phaseR = false
  ctr    : s.core.ctr = 0
  sckR   : s.core.sckR = s.params.sckIdle
  bitno  : s.core.bitno = 8

/-- The registers after the trail strobe of period `m`, counted from 1, of a `TRANSFER` that starts now. -/
def State.afterPeriods (s : State) (m : Nat) : Regs :=
  { s.core with
    state := if m = 8 then .sendData else .transfer, bitno := BitVec.ofNat 4 (8 - m),
    ctr := s.params.halfPeriodCyc - 2, shregO := s.core.shregO <<< m,
    shregI := (s.samples 0 m).foldl shiftInLeft s.core.shregI }

theorem State.StartsByte.core_eq {s : State} (h : s.StartsByte) : s.core = { s.afterPeriods 0 with ctr := 0 } := by
  have hcore : ({ s.core with state := s.core.state, bitno := s.core.bitno, ctr := s.core.ctr } : Regs) =
      { s.core with state := .transfer, bitno := 8, ctr := 0 } := by
    rw [h.state, h.bitno, h.ctr]
  refine hcore.trans ?_
  simp [State.afterPeriods, State.samples]

theorem bitno_after_period {m : Nat} (hm : m < 8) :
    BitVec.ofNat 4 (8 - m) - 1 = BitVec.ofNat 4 (8 - (m + 1)) ∧
      (BitVec.ofNat 4 (8 - (m + 1)) = 0 ↔ m + 1 = 8) :=
  (by decide : ∀ m < 8, BitVec.ofNat 4 (8 - m) - 1 = BitVec.ofNat 4 (8 - (m + 1)) ∧
    (BitVec.ofNat 4 (8 - (m + 1)) = 0 ↔ m + 1 = 8)) m hm

/-- One more period of a byte: from `m` periods done to `m + 1`. -/
theorem ran_one_more_period {s t : State} {m c k : Nat} {events : List (Nat × BusEvent)} (h : s.StartsByte)
    (hH : 2 ≤ s.params.halfPeriodCyc) (hm : m < 8) (hran : Ran s t k 0 [] events)
    (hcore : t.core = { s.afterPeriods m with ctr := c }) (hk : k + (c + 1) = 1 + 2 * s.params.halfPeriodCyc * m)
    (hn : s.NoReset (k + (c + 1 + (s.params.halfPeriodCyc + 1)))) :
    ∃ u, Ran s u (k + (c + 1 + (s.params.halfPeriodCyc + 1))) 0 []
        (events ++ periodEvents s.params (leadTick s.params s.tickNo m) (s.core.shregO <<< m)
          (s.dinAt (latchTick s.params 0 m))) ∧
      u.core = s.afterPeriods (m + 1) ∧ t.StaysIn .transfer (c + 1 + (s.params.halfPeriodCyc + 1)) := by
  have hp : t.params = s.params := hran.params
  have hm8 : m ≠ 8 := by omega
  have hn₁ : t.NoReset (c + 1 + (t.params.halfPeriodCyc + 1)) := by
    rw [hp, hran.isTicks]
    exact hn.after
  obtain ⟨u, hran₁, hcore₁, hstay⟩ := ran_next_period (by rwa [hp]) hn₁ hran.fault
    (by rw [hcore]; exact if_neg hm8) (by rw [hcore]; exact h.phase) (by rw [hcore]; exact h.phaseR)
    (by rw [hcore, hp]; exact h.sckR) (by rw [hcore])
  have htick : t.tickNo + (c + 1) = leadTick s.params s.tickNo m := by
    rw [hran.tickNo, leadTick]
    omega
  have hsample : t.periodSample (c + 1) = s.dinAt (latchTick s.params 0 m) := by
    unfold State.periodSample latchTick leadTick trailTick
    rw [hran.din, hp]
    congr 1
    split_ifs <;> omega
  rw [hp, htick, hsample] at hran₁
  rw [hp] at hstay
  obtain ⟨hbitno, hlast⟩ := bitno_after_period hm
  refine ⟨u, ?_, ?_, hstay⟩
  · rw [hcore] at hran₁
    exact hran.trans_quiet hran₁
  · rw [hcore₁, hcore, hp, hsample]
    simp only [State.afterPeriods, hlast, hbitno, samples_succ, List.foldl_append, List.foldl_cons, List.foldl_nil,
      shiftOutLeft, BitVec.shiftLeft_add]

/-- The events of the first `m` periods of a byte. -/
def State.periodsTrace (s : State) (m : Nat) : List (Nat × BusEvent) :=
  (List.range m).flatMap fun j => periodEvents s.params (leadTick s.params s.tickNo j) (s.core.shregO <<< j)
    (s.dinAt (latchTick s.params 0 j))

theorem periodsTrace_succ (s : State) (m : Nat) :
    s.periodsTrace (m + 1) = s.periodsTrace m ++ periodEvents s.params (leadTick s.params s.tickNo m)
      (s.core.shregO <<< m) (s.dinAt (latchTick s.params 0 m)) := by
  simp [State.periodsTrace, List.range_succ]

/-- The first `m + 1` periods of a byte. -/
theorem ran_periods {s : State} {m : Nat} (h : s.StartsByte) (hH : 2 ≤ s.params.halfPeriodCyc) (hf : s.fault = none)
    (hm : m < 8) (hn : s.NoReset (2 * s.params.halfPeriodCyc * m + s.params.halfPeriodCyc + 2)) :
    ∃ t, Ran s t (2 * s.params.halfPeriodCyc * m + s.params.halfPeriodCyc + 2) 0 [] (s.periodsTrace (m + 1)) ∧
      t.core = s.afterPeriods (m + 1) ∧
      s.StaysIn .transfer (2 * s.params.halfPeriodCyc * m + s.params.halfPeriodCyc + 2) := by
  induction m with
  | zero =>
    have hk : 2 * s.params.halfPeriodCyc * 0 + s.params.halfPeriodCyc + 2 =
        0 + (0 + 1 + (s.params.halfPeriodCyc + 1)) := by omega
    rw [hk] at hn ⊢
    obtain ⟨u, hran, hcoreu, hstay⟩ := ran_one_more_period h hH hm (Ran.refl hf) h.core_eq (by omega) hn
    exact ⟨u, hran, hcoreu, by rwa [Nat.zero_add]⟩
  | succ m ih =>
    have hk : 2 * s.params.halfPeriodCyc * (m + 1) + s.params.halfPeriodCyc + 2 =
        2 * s.params.halfPeriodCyc * m + s.params.halfPeriodCyc + 2 +
          (s.params.halfPeriodCyc - 2 + 1 + (s.params.halfPeriodCyc + 1)) := by
      rw [Nat.mul_succ]
      omega
    rw [hk] at hn ⊢
    obtain ⟨t, hran, hcore, hstay⟩ := ih (by omega) (hn.mono (by omega))
    obtain ⟨u, hran', hcore', hstay'⟩ := ran_one_more_period h hH hm hran (c := s.params.halfPeriodCyc - 2)
      hcore (by rw [Nat.mul_succ]; omega) hn
    exact ⟨u, by rwa [periodsTrace_succ], hcore', hstay.trans hran.isTicks hstay'⟩

/-! ### The whole byte -/

/-- Bit 7 of the output register while period `j` runs (rule R216). -/
theorem leadDout_eq (v : Byte) {j : Nat} (hj : j < 8) : (v <<< j).getLsbD 7 = leadDout v j := by
  have hle : ¬7 < j := by omega
  rw [BitVec.getLsbD_shiftLeft, decide_eq_false hle]
  rfl

/-- Bit 7 of the output register at the trail edge of period `j` (rule R216). -/
theorem trailDout_eq (p : Params) (v : Byte) {j : Nat} (hj : j < 8) :
    (if latchOnLead p then (v <<< j).getLsbD 7 else (shiftOutLeft (v <<< j)).getLsbD 7) = trailDout p v j := by
  unfold trailDout
  split_ifs with hl hlast
  · exact leadDout_eq v hj
  · rw [shiftOutLeft, ← BitVec.shiftLeft_add, leadDout_eq v (by omega), leadDout]
    congr 1
    omega
  · obtain rfl : j = 7 := by omega
    rw [shiftOutLeft, ← BitVec.shiftLeft_add, BitVec.shiftLeft_eq_zero le_rfl]
    exact BitVec.getLsbD_zero

theorem periodEvents_eq_periodTrace (p : Params) (e : Nat) {v r : Byte} {d : Bool} {j : Nat} (hj : j < 8)
    (hd : r.getLsbD (7 - j) = d) : periodEvents p (leadTick p e j) (v <<< j) d = periodTrace p e v r j := by
  have htrail : leadTick p e j + p.halfPeriodCyc = trailTick p e j := by
    unfold leadTick trailTick
    omega
  rw [periodEvents, periodTrace, trailDout_eq p v hj, leadDout_eq v hj, htrail, hd]

theorem periodsTrace_eq_byteTrace (s : State) :
    s.periodsTrace 8 = byteTrace s.params s.tickNo s.core.shregO (s.sampled 0) := by
  refine List.flatMap_congr fun j hj => ?_
  have hj8 := List.mem_range.mp hj
  exact periodEvents_eq_periodTrace s.params s.tickNo hj8 (sampled_bit s 0 hj8)

/-- Rules R180 to R184: the whole `TRANSFER` of one byte. -/
theorem ran_transfer {s : State} (h : s.StartsByte) (hv : s.params.Valid) (hf : s.fault = none)
    (hn : s.NoReset (transferTicks s.params)) :
    ∃ t, Ran s t (transferTicks s.params) 0 [] (byteTrace s.params s.tickNo s.core.shregO (s.sampled 0)) ∧
      t.core = { s.core with state := .sendData, bitno := 0, shregO := 0, shregI := s.sampled 0,
                             ctr := s.params.halfPeriodCyc - 2 } ∧
      s.StaysIn .transfer (transferTicks s.params) := by
  have hk : transferTicks s.params = 2 * s.params.halfPeriodCyc * 7 + s.params.halfPeriodCyc + 2 := by
    unfold transferTicks
    omega
  rw [hk] at hn ⊢
  obtain ⟨t, hran, hcore, hstay⟩ := ran_periods h hv.1 hf (by decide) hn
  refine ⟨t, by rwa [← periodsTrace_eq_byteTrace], ?_, hstay⟩
  rw [hcore, State.afterPeriods, foldl_shiftInLeft_samples, BitVec.shiftLeft_eq_zero le_rfl]
  rfl

/-- Settles O27: the run of eight periods, read off. -/
theorem transferMovesOneByte : Obligations.TransferMovesOneByte := by
  intro s hv hf hs hph hpr hc hk hb hn
  obtain ⟨t, hran, hcore, hstay⟩ := ran_transfer ⟨hs, hph, hpr, hc, hk, hb⟩ hv hf hn
  rw [← hran.isTicks]
  exact ⟨hcore, hstay, hran.trace, hran.cmdq, by simpa using hran.responses⟩

/-! ### The schedule of the clock (rule R148) -/

/-- The Clock Generator runs by itself: no state rule writes `phase` or `ctr` in `TRANSFER`. -/
theorem tick_clock_in_transfer {s : State} (hr : s.input.rst = none) (hf : s.fault = none)
    (hs : s.core.state = .transfer) :
    (s.core.ctr = 0 → (tick s).core.ctr = s.params.halfPeriodCyc - 1 ∧ (tick s).core.phase = !s.core.phase) ∧
    (s.core.ctr ≠ 0 → (tick s).core.ctr = s.core.ctr - 1 ∧ (tick s).core.phase = s.core.phase) := by
  have hcore : (tick s).core.ctr = (clockGen s.params s.core).ctr ∧
      (tick s).core.phase = (clockGen s.params s.core).phase := by
    rw [tick_of_running hr hf, advance_core, coreStep_regs, stateRule_transfer hs, onTransfer]
    split_ifs <;> exact ⟨rfl, rfl⟩
  rw [hcore.1, hcore.2]
  have hen : clkEn s.core = true := by simp [clkEn, hs]
  refine ⟨fun hc => ?_, fun hc => ?_⟩ <;> simp [clockGen, hen, hc]

/-- Rule R148: `q` whole half-periods and `m` ticks after the first toggle, the counter and the clock stand so. -/
theorem clock_after_half_periods {s : State} (hv : s.params.Valid) (hph : s.core.phase = false) (hc : s.core.ctr = 0)
    {k : Nat} (hn : s.NoReset k) (hf : ∀ j, j < k → (ticks j s).fault = none) (hs : s.StaysIn .transfer k)
    {i : Nat} (hi : i < k) :
    ∃ q m, i = q * s.params.halfPeriodCyc + m ∧ m < s.params.halfPeriodCyc ∧
      (ticks (i + 1) s).core.ctr = s.params.halfPeriodCyc - 1 - m ∧
      (ticks (i + 1) s).core.phase = decide (q % 2 = 0) := by
  have hH := hv.1
  induction i with
  | zero =>
    obtain ⟨hctr, hphase⟩ := (tick_clock_in_transfer (hn.first hi) (hf 0 hi) (hs 0 hi)).1 hc
    exact ⟨0, 0, by simp, by omega, hctr, by rw [ticks_succ, ticks_zero, hphase, hph]; rfl⟩
  | succ i ih =>
    obtain ⟨q, m, hqm, hm, hctr, hphase⟩ := ih (by omega)
    obtain ⟨htoggle, hrun⟩ := tick_clock_in_transfer (hn.input_of_lt hi) (hf _ hi) (hs _ hi)
    rw [ticks_params (hn.mono hi.le), ← ticks_succ'] at htoggle
    rw [← ticks_succ'] at hrun
    rcases Nat.lt_or_ge (m + 1) s.params.halfPeriodCyc with hlt | hge
    · obtain ⟨hctr', hphase'⟩ := hrun (by omega)
      exact ⟨q, m + 1, by omega, hlt, by omega, hphase'.trans hphase⟩
    · obtain ⟨hctr', hphase'⟩ := htoggle (by omega)
      refine ⟨q + 1, 0, by rw [Nat.succ_mul]; omega, by omega, hctr', ?_⟩
      rw [hphase', hphase, ← decide_not]
      exact decide_eq_decide.mpr (by omega)

/-- The half-periods with an even number are the first halves of the periods. -/
theorem first_half_iff_even {H q m : Nat} (hm : m < H) : (q * H + m) % (2 * H) < H ↔ q % 2 = 0 := by
  obtain ⟨a, rfl | rfl⟩ : ∃ a, q = 2 * a ∨ q = 2 * a + 1 := ⟨q / 2, by omega⟩
  · rw [show 2 * a * H + m = m + 2 * H * a by ring, Nat.add_mul_mod_self_left, Nat.mod_eq_of_lt (by omega)]
    omega
  · rw [show (2 * a + 1) * H + m = (H + m) + 2 * H * a by ring, Nat.add_mul_mod_self_left,
      Nat.mod_eq_of_lt (by omega)]
    omega

/-- Without reset a recorded fault stays, so a run that ends without one had none. -/
theorem fault_none_of_later {s : State} {k : Nat} (hn : s.NoReset k) (hf : (ticks k s).fault = none) {j : Nat}
    (hj : j ≤ k) : (ticks j s).fault = none := by
  induction k, hj using Nat.le_induction with
  | base => exact hf
  | succ k hjk ih =>
    refine ih (hn.mono (Nat.le_succ k)) ?_
    rw [ticks_succ', tick_of_noReset (hn.input_of_lt (Nat.lt_succ_self k)), advance_fault, Option.or_eq_none_iff] at hf
    exact hf.1

/-- Settles O26: the first half of a period is the half-period with an even number. -/
theorem clockFollowsItsSchedule : Obligations.ClockFollowsItsSchedule := by
  intro s hv hf hs hph hpr hc hk hb hn j hj
  obtain ⟨t, hran, -, hstay⟩ := ran_transfer ⟨hs, hph, hpr, hc, hk, hb⟩ hv hf hn
  cases j with
  | zero => exact hph
  | succ i =>
    obtain ⟨q, m, rfl, hm, -, hphase⟩ := clock_after_half_periods hv hph hc hn
      (fun j hj => fault_none_of_later hn (hran.isTicks ▸ hran.fault) hj.le) hstay (Nat.lt_of_succ_lt hj)
    rw [hphase, Nat.add_sub_cancel]
    simp [first_half_iff_even hm]

end Sys2Proof.Machine

/-! One byte of a SHIFT (rules R169, R173, R220): the load, the TRANSFER, and the end of the byte. -/

namespace Sys2Proof.Machine

/-! ### Samples seen from later ticks -/

theorem latchTick_add (p : Params) (k e j : Nat) : latchTick p (k + e) j = k + latchTick p e j := by
  unfold latchTick leadTick trailTick
  split_ifs <;> omega

/-- A byte sampled later in a run, seen from its start. -/
theorem Ran.sampled {s t : State} {k pops : Nat} {rsp : List Byte} {events : List (Nat × BusEvent)}
    (h : Ran s t k pops rsp events) (e : Nat) : t.sampled e = s.sampled (k + e) := by
  rw [← foldl_shiftInLeft_samples t e 0, ← foldl_shiftInLeft_samples s (k + e) 0]
  simp only [State.samples, h.din, h.params, latchTick_add]

@[simp] theorem deliver_sampled (s : State) (bs : List Byte) (e : Nat) : (s.deliver bs).sampled e = s.sampled e := by
  rw [← foldl_shiftInLeft_samples (s.deliver bs) e 0, ← foldl_shiftInLeft_samples s e 0]
  simp only [State.samples, deliver_dinAt, deliver_params]

/-! ### The load -/

theorem coreStep_of_receiveData {s : State} (h : s.Still) (hs : s.core.state = .receiveData) :
    coreStep s.params s.coreIn s.core = onReceiveData s.params s.coreIn s.core s.core := by
  rw [coreStep_of_still h (by simp [hs]), stateRule_receiveData hs]

/-- Rule R169 with DATA-OUT: the byte that waits is popped and loaded. -/
theorem coreStep_of_load {s : State} (h : s.Still) (hs : s.core.state = .receiveData)
    (ho : dataOut s.core.cmd = true) {v : Byte} {rest : List Byte} (hq : s.cmdq = v :: rest) :
    coreStep s.params s.coreIn s.core = { regs := startByte v s.core s.core, pop := true } := by
  obtain ⟨hvalid, hdata⟩ := coreIn_of_cmdq_cons hq
  rw [coreStep_of_receiveData h hs, onReceiveData_of_dataOut ho hvalid, hdata]

/-- Rule R169 without DATA-OUT: zero is loaded, and a byte that waits stays. -/
theorem coreStep_of_load_zero {s : State} (h : s.Still) (hs : s.core.state = .receiveData)
    (ho : dataOut s.core.cmd = false) (hgo : dataIn s.core.cmd = true ∨ s.cmdq ≠ []) :
    coreStep s.params s.coreIn s.core = { regs := startByte 0 s.core s.core } := by
  rw [coreStep_of_receiveData h hs,
    onReceiveData_without_dataOut ho (hgo.imp_right coreIn_cmdValid_of_cmdq_ne_nil)]

theorem startsByte_of_load {s t : State} {v : Byte} (h : s.Still) (hp : t.params = s.params)
    (hc : t.core = startByte v s.core s.core) : t.StartsByte := by
  obtain ⟨⟨hph, hpr, hk, -⟩, hctr⟩ := h
  refine ⟨?_, ?_, ?_, ?_, ?_, ?_⟩ <;> rw [hc]
  · rfl
  · exact hph
  · exact hpr
  · exact hctr
  · rw [hp]
    exact hk
  · rfl

/-! ### The end of the byte -/

/-- Rule R173, the bus at rest: with DATA-IN and room the sampled byte is pushed, without DATA-IN nothing is, and
`count` says where the core goes. -/
theorem ran_sendData {s : State} (hr : (s.inputAt 0).rst = none) (hf : s.fault = none)
    (hrest : s.core.BusAtRest s.params) (hs : s.core.state = .sendData)
    (hroom : dataIn s.core.cmd = true → (s.inputAt 0).rspReady = true) :
    Ran s (tick s) 1 0 (if dataIn s.core.cmd then [s.core.shregI] else []) [] ∧
      (tick s).core = { s.core with state := afterSend s.core, ctr := 0 } := by
  have hstep := (coreStep_atRest hrest (by simp [hs]) s.coreIn).trans (stateRule_sendData hs)
  cases hd : dataIn s.core.cmd with
  | false =>
    exact Ran.one (pops := 0) hr hf (hstep.trans (onSendData_without_dataIn hd _ _)) rfl rfl nofun rfl rfl
  | true =>
    have hx : s.coreIn.rspReady = true := by
      rw [coreIn_rspReady, ← inputAt_zero]
      exact hroom hd
    exact Ran.one (pops := 0) hr hf (hstep.trans (onSendData_of_room hd hx _)) rfl rfl nofun rfl rfl

/-! ### The whole byte -/

/-- One byte of a SHIFT, from its `RECEIVE_DATA` to the tick after its `SEND_DATA`. -/
theorem ran_byte {s : State} {v : Byte} {pop : Bool} (hv : s.params.Valid) (hn : s.NoReset (byteTicks s.params))
    (hf : s.fault = none) (h : s.Still) (hs : s.core.state = .receiveData)
    (hload : coreStep s.params s.coreIn s.core = { regs := startByte v s.core s.core, pop := pop })
    (hq : pop = true → s.cmdq ≠ [])
    (hroom : dataIn s.core.cmd = true → (s.inputAt (1 + transferTicks s.params)).rspReady = true) :
    ∃ t, Ran s t (byteTicks s.params) (if pop then 1 else 0) (if dataIn s.core.cmd then [s.sampled 1] else [])
        (byteTrace s.params (s.tickNo + 1) v (s.sampled 1)) ∧
      t.core = { s.core with
        state := if s.core.count - 1 = 0 then .receiveCommand else .receiveData, count := s.core.count - 1,
        bitno := 0, shregO := 0, shregI := s.sampled 1 } ∧
      ∀ j, j < byteTicks s.params → (ticks j s).atBoundary = false := by
  have hk : 1 + transferTicks s.params + 1 = byteTicks s.params := by
    unfold transferTicks byteTicks
    omega
  rw [← hk] at hn ⊢
  obtain ⟨hran₁, hcore₁⟩ := Ran.one (rsp := []) (events := []) (hn 0 (by omega)) hf hload rfl rfl hq rfl rfl
  have hp₁ := hran₁.params
  have hn₁ : s.NoReset (1 + transferTicks s.params) := hn.mono (Nat.le_succ _)
  have hn₁' : (tick s).NoReset (transferTicks (tick s).params) := by
    rw [hp₁]
    exact State.NoReset.after (j := 1) hn₁
  obtain ⟨u, hran₂, hcore₂, hstay₂⟩ :=
    ran_transfer (startsByte_of_load h hp₁ hcore₁) (by rwa [hp₁]) hran₁.fault hn₁'
  rw [hp₁, hran₁.tickNo, hran₁.sampled, Nat.add_zero, hcore₁] at hran₂
  rw [hp₁, hran₁.sampled, Nat.add_zero, hcore₁] at hcore₂
  rw [hp₁] at hstay₂
  have hran := hran₁.trans_quiet hran₂
  obtain ⟨⟨hph, hpr, hkk, -⟩, hctr⟩ := id h
  have hlast : u.inputAt 0 = s.inputAt (1 + transferTicks s.params) := by rw [hran.isTicks, ticks_inputAt]; rfl
  obtain ⟨hran₃, hcore₃⟩ := ran_sendData (s := u) (hlast ▸ hn _ (Nat.lt_succ_self _)) hran.fault
    (by rw [hcore₂, hran.params]; exact ⟨hph, hpr, hkk, rfl⟩) (by rw [hcore₂])
    (by rw [hcore₂, hlast]; exact hroom)
  rw [hcore₂] at hran₃ hcore₃
  refine ⟨tick u, ?_, ?_, fun j hj => ?_⟩
  · have hwhole := hran.trans_quiet hran₃
    simp only [List.nil_append, List.append_nil] at hwhole
    exact hwhole
  · rw [hcore₃, ← hctr]
    rfl
  · have hstay : ∀ i, i < transferTicks s.params + 1 → (ticks i (tick s)).core.state ≠ .receiveCommand := by
      intro i hi
      rcases Nat.lt_succ_iff_lt_or_eq.mp hi with hlt | rfl
      · simp [hstay₂ i hlt]
      · rw [← hran₂.isTicks, hcore₂]
        nofun
    rw [atBoundary_eq_false_iff]
    cases j with
    | zero => simp [hs]
    | succ j => exact hstay j (by omega)

end Sys2Proof.Machine

/-! The whole SHIFT where nothing stalls (rules R210 to R216, R220): header, `COUNT_CHECK`, and byte after byte. -/

namespace Sys2Proof.Machine

/-- The bytes a SHIFT takes from the stream beyond its header. -/
def shiftPops (op : Byte) (n : Nat) : Nat := if dataOut op then n else 0

/-- The bytes a SHIFT of `n` bytes pushes. -/
def State.shiftResponses (s : State) (op : Byte) (n : Nat) : List Byte :=
  if dataIn op then s.sampledBytes n else []

/-- A SHIFT with opcode `op` that loads the bytes `vs` can run from `s` without a stall: its frame stands at the
head of the stream with `rest` behind, and each byte finds what it needs. -/
structure State.RunsShift (s : State) (op : Byte) (n : Count) (vs rest : List Byte) : Prop where
  ready   : s.Ready
  opcode  : op ∈ ([0x10, 0x11, 0x12, 0x13] : List Byte)
  header  : s.cmdq = op :: countLo n :: countHi n :: ((if dataOut op then vs else []) ++ rest)
  length  : vs.length = n.toNat
  zeros   : dataOut op = false → ∀ v ∈ vs, v = 0
  starter : dataOut op = false → dataIn op = false → vs ≠ [] → rest ++ s.arrivals 4 ≠ []
  noReset : s.NoReset (shiftTicks s.params n)
  room    : dataIn op = true → ∀ k, k < n.toNat → (s.inputAt (sendTick s.params k)).rspReady = true

/-- The registers of a SHIFT after `m` bytes, with `left` bytes still to come. -/
def State.afterBytes (s : State) (op : Byte) (m left : Nat) : Regs :=
  { s.core with
    state := if left = 0 then .receiveCommand else .receiveData, cmd := op, count := BitVec.ofNat 16 left,
    bitno := if m = 0 then s.core.bitno else 0, shregO := if m = 0 then s.core.shregO else 0,
    shregI := s.lastSampled m }

theorem shiftTrace_append_singleton (s : State) (vs : List Byte) (v : Byte) :
    s.shiftTrace (vs ++ [v]) = s.shiftTrace vs ++
      byteTrace s.params (s.tickNo + transferStart s.params vs.length) v
        (s.sampled (transferStart s.params vs.length)) := by
  simp [State.shiftTrace, List.zipIdx_append]

theorem shiftResponses_succ (s : State) (op : Byte) (n : Nat) :
    s.shiftResponses op (n + 1) =
      s.shiftResponses op n ++ if dataIn op then [s.sampled (transferStart s.params n)] else [] := by
  unfold State.shiftResponses
  split_ifs <;> rfl

theorem shiftPops_succ (op : Byte) (n : Nat) :
    shiftPops op (n + 1) = shiftPops op n + if dataOut op then 1 else 0 := by
  unfold shiftPops
  split_ifs <;> rfl

section
variable {s : State} {op : Byte} {n : Count} {vs rest : List Byte}

/-- The header and `COUNT_CHECK`. -/
theorem State.RunsShift.ran_start (h : s.RunsShift op n vs rest) :
    ∃ t, Ran s t 4 3 [] [] ∧ t.core = s.afterBytes op 0 vs.length ∧
      ∀ j, 0 < j → j < 4 → (ticks j s).atBoundary = false := by
  have hn : s.NoReset 4 := h.noReset.mono (Nat.le_add_right 4 _)
  obtain ⟨-, -, hs, -⟩ := h.ready
  have hop : op ∈ ([0x10, 0x11, 0x12, 0x13, 0x20] : List Byte) := List.mem_append_left [0x20] h.opcode
  have hsel : selectorOf op ≠ 0x2 :=
    (by decide : ∀ op ∈ ([0x10, 0x11, 0x12, 0x13] : List Byte), selectorOf op ≠ 0x2) op h.opcode
  obtain ⟨t, hran, hcore, hmid⟩ := ran_header h.ready (hn.mono (by omega)) hop h.header
  rw [if_neg hsel, countOf_halves] at hcore
  have hr : (t.inputAt 0).rst = none := by
    rw [hran.isTicks, ticks_inputAt]
    exact hn 3 (by omega)
  have hstep : coreStep t.params t.coreIn t.core = onCountCheck t.core t.core := by
    rw [coreStep_of_still (h.ready.still.of_core hran.params hcore) (by simp [hcore]),
      stateRule_countCheck (by rw [hcore])]
  obtain ⟨hran', hcore'⟩ := Ran.one (pops := 0) (rsp := []) (events := []) hr hran.fault hstep rfl rfl nofun rfl rfl
  refine ⟨tick t, hran.trans_quiet hran', ?_, fun j h0 h4 => hmid j h0 (by omega)⟩
  have hzero : n = 0 ↔ vs.length = 0 := by
    rw [h.length]
    exact ⟨fun h0 => by rw [h0]; rfl, fun h0 => BitVec.eq_of_toNat_eq h0⟩
  rw [hcore', onCountCheck, hcore, State.afterBytes]
  simp only [hzero, h.length, BitVec.ofNat_toNat, BitVec.setWidth_eq]
  rfl

/-- The stream behind the header and the bytes already loaded. -/
theorem State.RunsShift.cmdq_after {t : State} {done todo : List Byte} {k : Nat} {rsp : List Byte}
    {events : List (Nat × BusEvent)} (h : s.RunsShift op n vs rest) (hvs : vs = done ++ todo)
    (hran : Ran s t k (3 + shiftPops op done.length) rsp events) :
    t.cmdq = (if dataOut op then todo else []) ++ rest ++ s.arrivals k := by
  rw [hran.cmdq, h.header, Nat.add_comm 3]
  congr 1
  cases ho : dataOut op <;> simp [shiftPops, ho, hvs]

/-- Rule R169: what the next byte of a SHIFT finds, and the core's answer that loads it. -/
theorem State.RunsShift.load {t : State} {done todo : List Byte} {v : Byte} {k : Nat} {rsp : List Byte}
    {events : List (Nat × BusEvent)} (h : s.RunsShift op n vs rest) (hvs : vs = done ++ v :: todo)
    (hran : Ran s t k (3 + shiftPops op done.length) rsp events) (hk : 4 ≤ k) (hstill : t.Still)
    (hs : t.core.state = .receiveData) (hcmd : t.core.cmd = op) :
    coreStep t.params t.coreIn t.core = { regs := startByte v t.core t.core, pop := dataOut op } ∧
      (dataOut op = true → t.cmdq ≠ []) := by
  have hq := h.cmdq_after hvs hran
  cases ho : dataOut op with
  | true =>
    rw [ho, if_pos rfl, List.append_assoc, List.cons_append] at hq
    exact ⟨coreStep_of_load hstill hs (hcmd ▸ ho) hq, fun _ => by rw [hq]; exact List.cons_ne_nil _ _⟩
  | false =>
    have hv : v = 0 := h.zeros ho v (by simp [hvs])
    rw [ho, if_neg Bool.false_ne_true, List.nil_append] at hq
    have hgo : dataIn t.core.cmd = true ∨ t.cmdq ≠ [] := by
      rw [hcmd]
      cases hd : dataIn op with
      | true => exact .inl rfl
      | false =>
        have hstarter := h.starter ho hd (by simp [hvs])
        obtain ⟨d, rfl⟩ := Nat.exists_eq_add_of_le hk
        rw [hq, arrivals_add, ← List.append_assoc]
        exact .inr (List.append_ne_nil_of_left_ne_nil hstarter _)
    rw [hv]
    exact ⟨coreStep_of_load_zero hstill hs (hcmd ▸ ho) hgo, nofun⟩

/-- What a SHIFT pops is there when it starts. -/
theorem State.RunsShift.pops_le (h : s.RunsShift op n vs rest) {m : Nat} (hm : m ≤ vs.length) :
    3 + shiftPops op m ≤ s.cmdq.length := by
  rw [h.header]
  unfold shiftPops
  split_ifs
  · simp
    omega
  · simp

/-- One byte less to come. -/
theorem ofNat_succ_sub_one {left : Nat} (h : left < 65535) :
    BitVec.ofNat 16 (left + 1) - 1 = BitVec.ofNat 16 left ∧ (BitVec.ofNat 16 left = 0 ↔ left = 0) := by
  refine ⟨?_, ?_⟩
  · rw [BitVec.ofNat_add]
    exact BitVec.add_sub_cancel _ _
  · rw [← BitVec.toNat_inj, BitVec.toNat_ofNat, Nat.mod_eq_of_lt (by omega)]
    rfl

/-- The clock is still after every byte of a SHIFT. -/
theorem still_afterBytes {t : State} {m left : Nat} (h : s.Ready) (hp : t.params = s.params)
    (hcore : t.core = s.afterBytes op m left) : t.Still := by
  obtain ⟨⟨hph, hpr, hk, ho⟩, hctr⟩ := h.still
  rw [State.Still, hp, hcore]
  refine ⟨⟨hph, hpr, hk, ?_⟩, hctr⟩
  change (if m = 0 then s.core.shregO else 0) = 0
  split_ifs
  · exact ho
  · rfl

/-- The bytes of a SHIFT one after the other: those in `done` are through, those in `todo` still to come. -/
theorem State.RunsShift.ran_bytes (h : s.RunsShift op n vs rest) {done todo : List Byte} (hvs : vs = done ++ todo) :
    ∃ t, Ran s t (4 + done.length * byteTicks s.params) (3 + shiftPops op done.length)
        (s.shiftResponses op done.length) (s.shiftTrace done) ∧
      t.core = s.afterBytes op done.length todo.length ∧
      ∀ j, 0 < j → j < 4 + done.length * byteTicks s.params → (ticks j s).atBoundary = false := by
  induction done using List.reverseRecOn generalizing todo with
  | nil =>
    obtain ⟨t, hran, hcore, haway⟩ := h.ran_start
    rw [List.nil_append] at hvs
    have hnone : s.shiftResponses op 0 = [] := by
      unfold State.shiftResponses
      split_ifs <;> rfl
    have hpops : shiftPops op 0 = 0 := by
      unfold shiftPops
      split_ifs <;> rfl
    simp only [List.length_nil, Nat.zero_mul, Nat.add_zero, hnone, hpops]
    exact ⟨t, hran, hvs ▸ hcore, haway⟩
  | append_singleton done v ih =>
    rw [List.append_assoc, List.singleton_append] at hvs
    obtain ⟨t, hran, hcore, haway⟩ := ih hvs
    have hlen : done.length + (todo.length + 1) = n.toNat := by rw [← h.length, hvs]; simp
    have hp := hran.params
    obtain ⟨hv, -⟩ := id h.ready
    have hstill := still_afterBytes h.ready hp hcore
    have hs : t.core.state = .receiveData := by rw [hcore]; simp [State.afterBytes]
    have hcmd : t.core.cmd = op := by rw [hcore]; rfl
    obtain ⟨hload, hq⟩ := h.load hvs hran (Nat.le_add_right 4 _) hstill hs hcmd
    have htotal : 4 + done.length * byteTicks s.params + byteTicks s.params =
        4 + (done ++ [v]).length * byteTicks s.params := by
      rw [List.length_append, List.length_singleton, Nat.succ_mul, Nat.add_assoc]
    have hn : s.NoReset (4 + done.length * byteTicks s.params + byteTicks s.params) := by
      refine h.noReset.mono ?_
      rw [shiftTicks, ← hlen, Nat.add_assoc, ← Nat.succ_mul]
      exact Nat.add_le_add_left (Nat.mul_le_mul_right _ (by omega)) 4
    have hsend : 4 + done.length * byteTicks s.params + (1 + transferTicks s.params) =
        sendTick s.params done.length := by
      unfold sendTick transferStart
      omega
    obtain ⟨u, hran', hcore', haway'⟩ := ran_byte (hp ▸ hv) (by rw [hp, hran.isTicks]; exact hn.after) hran.fault
      hstill hs hload hq (fun hd => by
        rw [hran.isTicks, ticks_inputAt, ticks_params (hn.mono (Nat.le_add_right _ _)), hsend]
        exact h.room (hcmd ▸ hd) _ (by omega))
    have hstart : 4 + done.length * byteTicks s.params + 1 = transferStart s.params done.length := by
      unfold transferStart
      omega
    rw [hp, hcmd, hran.sampled, hran.tickNo, Nat.add_assoc s.tickNo, hstart] at hran'
    rw [hran.sampled, hstart] at hcore'
    have hpops : 3 + shiftPops op done.length + (if dataOut op then 1 else 0) =
        3 + shiftPops op (done ++ [v]).length := by
      rw [List.length_append, List.length_singleton, shiftPops_succ, Nat.add_assoc]
    have hboth := hran.trans hran' (by rw [hpops]; exact h.pops_le (by simp [hvs]))
    rw [htotal, hpops, ← shiftResponses_succ, ← shiftTrace_append_singleton] at hboth
    obtain ⟨hcount, hzero⟩ := ofNat_succ_sub_one (left := todo.length) (by have := n.isLt; omega)
    refine ⟨u, by rwa [List.length_append, List.length_singleton] at hboth ⊢, ?_, fun j h0 hj => ?_⟩
    · rw [hcore', hcore]
      simp only [State.afterBytes, List.length_append, List.length_cons, List.length_nil, hcount, hzero]
      rfl
    · rcases Nat.lt_or_ge j (4 + done.length * byteTicks s.params) with hlt | hge
      · exact haway j h0 hlt
      · obtain ⟨d, rfl⟩ := Nat.exists_eq_add_of_le hge
        rw [ticks_add, ← hran.isTicks]
        exact haway' d (by rw [hp]; omega)

/-- Rules R210, R220: the whole SHIFT. -/
theorem State.RunsShift.ran (h : s.RunsShift op n vs rest) :
    ∃ t, Ran s t (shiftTicks s.params n) (3 + shiftPops op n.toNat) (s.shiftResponses op n.toNat) (s.shiftTrace vs) ∧
      t.core = s.coreAfterShift op n.toNat ∧
      ∀ j, 0 < j → j < shiftTicks s.params n → (ticks j s).atBoundary = false := by
  obtain ⟨-, -, hs, -⟩ := h.ready
  obtain ⟨t, hran, hcore, haway⟩ := h.ran_bytes (List.append_nil vs).symm
  rw [h.length] at hran hcore haway
  refine ⟨t, hran, ?_, haway⟩
  rw [hcore, State.coreAfterShift, State.afterBytes, ← hs]
  rfl

end

end Sys2Proof.Machine

/-! The four SHIFT commands (rules R211 to R214): each is the whole SHIFT of its opcode, its frame delivered. -/

namespace Sys2Proof.Machine

/-! ### What the operation level says does not look at the command stream -/

theorem deliver_sampledBytes (s : State) (bs : List Byte) (n : Nat) :
    (s.deliver bs).sampledBytes n = s.sampledBytes n := by
  induction n with
  | zero => rfl
  | succ n ih => rw [State.sampledBytes, State.sampledBytes, ih, deliver_sampled, deliver_params]

theorem deliver_shiftTrace (s : State) (bs vs : List Byte) : (s.deliver bs).shiftTrace vs = s.shiftTrace vs := by
  simp only [State.shiftTrace, deliver_sampled, deliver_params, deliver_tickNo]

theorem deliver_coreAfterShift (s : State) (bs : List Byte) (op : Byte) (n : Nat) :
    (s.deliver bs).coreAfterShift op n = s.coreAfterShift op n := by
  have hlast : (s.deliver bs).lastSampled n = s.lastSampled n := by
    cases n with
    | zero => rfl
    | succ n => exact deliver_sampled s bs _
  rw [State.coreAfterShift, hlast]
  rfl

theorem deliver_shiftResponses (s : State) (bs : List Byte) (op : Byte) (n : Nat) :
    (s.deliver bs).shiftResponses op n = s.shiftResponses op n := by
  rw [State.shiftResponses, deliver_sampledBytes]
  rfl

/-! ### The commands -/

/-- A command whose delivered frame runs as a SHIFT completes as that SHIFT. -/
theorem exec_of_runsShift {i : Instr} {s : State} {op : Byte} {n : Count} {vs rest : List Byte}
    (hlen : (encode i).length = 3 + shiftPops op n.toNat) (hticks : ticksNeeded s.params i = shiftTicks s.params n)
    (h : (s.deliver (encode i)).RunsShift op n vs rest) :
    ∃ t, exec i s = .next t ∧ t.core = s.coreAfterShift op n.toNat ∧
      CommandDone s t (shiftTicks s.params n) (3 + shiftPops op n.toNat) (s.shiftResponses op n.toNat)
        (s.shiftTrace vs) := by
  obtain ⟨t, hran, hcore, haway⟩ := h.ran
  obtain ⟨-, -, hs, -⟩ := h.ready
  rw [deliver_shiftResponses, deliver_shiftTrace, ← hlen] at hran
  rw [deliver_coreAfterShift] at hcore
  obtain ⟨hexec, hdone⟩ := exec_of_ran (s := s) h.ready (Nat.add_pos_left four_pos _) hticks.ge hran haway
    (by rw [hcore]; exact hs)
  exact ⟨t, hexec, hcore, hlen ▸ hdone⟩

/-- The frame of a SHIFT whose payload has the length of its count. -/
theorem encode_shift_length {op : Byte} {n : Count} {vs : List Byte} (hlen : vs.length = n.toNat) :
    (op :: countLo n :: countHi n :: if dataOut op then vs else []).length = 3 + shiftPops op n.toNat := by
  unfold shiftPops
  split_ifs
  · simp only [List.length_cons, hlen]
    omega
  · rfl

/-- Settles O45: without DATA-OUT each byte loads a zero, and without DATA-IN it starts because a byte waits. -/
theorem shiftNoneClocksWithoutData : Obligations.ShiftNoneClocksWithoutData := by
  intro n s h hn hstart
  refine exec_of_runsShift (i := .shiftNone n) (op := 0x10) (rest := s.cmdq) rfl rfl
    { ready := h, opcode := by decide, header := rfl, length := List.length_replicate,
      zeros := fun _ v hv => List.eq_of_mem_replicate hv, starter := fun _ _ hne => ?_, noReset := hn, room := nofun }
  rw [deliver_arrivals]
  exact hstart fun h0 => hne (by rw [h0]; rfl)

/-- Settles O46: with DATA-OUT each byte pops and loads one byte of the payload. -/
theorem shiftOutWritesThePayload : Obligations.ShiftOutWritesThePayload := by
  intro n payload s hlen h hn
  exact exec_of_runsShift (i := .shiftOut n payload) (op := 0x11) (rest := s.cmdq) (encode_shift_length hlen) rfl
    { ready := h, opcode := by decide, header := rfl, length := hlen, zeros := nofun, starter := nofun,
      noReset := hn, room := nofun }

/-- Settles O47: with DATA-IN each byte pushes what it has sampled. -/
theorem shiftInReadsThePeer : Obligations.ShiftInReadsThePeer := by
  intro n s h hn hroom
  exact exec_of_runsShift (i := .shiftIn n) (op := 0x12) (rest := s.cmdq) rfl rfl
    { ready := h, opcode := by decide, header := rfl, length := List.length_replicate,
      zeros := fun _ v hv => List.eq_of_mem_replicate hv, starter := fun _ hd => absurd hd (by decide), noReset := hn,
      room := fun _ => hroom }

/-- Settles O48: with both flags each byte of the payload is exchanged for one sampled byte. -/
theorem shiftIoExchangesBytes : Obligations.ShiftIoExchangesBytes := by
  intro n payload s hlen h hn hroom
  exact exec_of_runsShift (i := .shiftIo n payload) (op := 0x13) (rest := s.cmdq) (encode_shift_length hlen) rfl
    { ready := h, opcode := by decide, header := rfl, length := hlen, zeros := nofun, starter := nofun,
      noReset := hn, room := fun _ => hroom }

end Sys2Proof.Machine

/-! Whole programs where nothing stalls (20_memory.md section 7, 70_reset_and_hazards.md section 2): each command
runs in the ticks it needs, from a core that can take one to a core that can take the next. -/

namespace Sys2Proof.Machine

/-! ### The surroundings -/

/-- For `k` ticks there is no reset, no byte arrives, and the response stream has room. -/
structure State.Undisturbed (s : State) (k : Nat) : Prop where
  noReset   : s.NoReset k
  noArrival : ∀ j, j < k → (s.inputAt j).arrive = none
  room      : ∀ j, j < k → (s.inputAt j).rspReady = true

theorem State.Undisturbed.of_inputs {s : State} {k : Nat} (hn : s.NoReset k)
    (hin : ∀ j, j < k → (s.inputAt j).arrive = none ∧ (s.inputAt j).rspReady = true) : s.Undisturbed k :=
  ⟨hn, fun j hj => (hin j hj).1, fun j hj => (hin j hj).2⟩

theorem State.Undisturbed.mono {s : State} {j k : Nat} (h : s.Undisturbed k) (hjk : j ≤ k) : s.Undisturbed j :=
  ⟨h.noReset.mono hjk, fun i hi => h.noArrival i (by omega), fun i hi => h.room i (by omega)⟩

theorem State.Undisturbed.after {s : State} {j k : Nat} (h : s.Undisturbed (j + k)) : (ticks j s).Undisturbed k :=
  ⟨h.noReset.after, fun i hi => by rw [ticks_inputAt]; exact h.noArrival (j + i) (by omega),
    fun i hi => by rw [ticks_inputAt]; exact h.room (j + i) (by omega)⟩

theorem State.Undisturbed.arrivals {s : State} {k : Nat} (h : s.Undisturbed k) : s.arrivals k = [] := by
  induction k with
  | zero => rfl
  | succ k ih => rw [State.arrivals, ih (h.mono (Nat.le_succ k)), h.noArrival k (Nat.lt_succ_self k)]; rfl

/-- A run from a core that can take a command back to a frame boundary ends in one that can take the next. -/
theorem Ran.ready {s t : State} {k pops : Nat} {rsp : List Byte} {events : List (Nat × BusEvent)}
    (hran : Ran s t k pops rsp events) (h : s.Ready) (hs : t.core.state = .receiveCommand) : t.Ready := by
  obtain ⟨hv, -, -, hinv⟩ := h
  have hv' : t.params.Valid := hran.params ▸ hv
  refine ⟨hv', hran.fault, hs, ?_⟩
  rw [hran.isTicks] at hv' ⊢
  exact ticks_inv (fun _ => hinv) k hv'

/-- With no byte left, a core that can take a command waits, and nothing happens. -/
theorem ran_idle {s : State} {k : Nat} (h : s.Ready) (hq : s.cmdq = []) (hu : s.Undisturbed k) :
    Ran s (ticks k s) k 0 [] [] := by
  obtain ⟨-, hf, hs, -⟩ := id h
  suffices hboth : Ran s (ticks k s) k 0 [] [] ∧ (ticks k s).core = s.core from hboth.1
  induction k with
  | zero => exact ⟨Ran.refl hf, rfl⟩
  | succ k ih =>
    have hbefore : s.Undisturbed k := hu.mono (Nat.le_succ k)
    obtain ⟨hran, hcore⟩ := ih hbefore
    have hempty : (ticks k s).cmdq = [] := by rw [hran.cmdq, hq, hbefore.arrivals]; rfl
    have hstate : (ticks k s).core.state = .receiveCommand := by rw [hcore, hs]
    have hstep : coreStep (ticks k s).params (ticks k s).coreIn (ticks k s).core = { regs := (ticks k s).core } := by
      rw [coreStep_of_still (hran.ready h hstate).still (by simp [hstate]), stateRule_receiveCommand hstate,
        onReceiveCommand_of_invalid (coreIn_cmdValid_of_cmdq_nil hempty)]
    obtain ⟨hran', hcore'⟩ := Ran.one (pops := 0) (rsp := []) (events := [])
      (ticks_inputAt k s 0 ▸ hu.noReset k (Nat.lt_succ_self k)) hran.fault hstep rfl rfl nofun rfl rfl
    rw [ticks_succ']
    exact ⟨hran.trans_quiet hran', hcore'.trans hcore⟩

/-! ### One command -/

/-- What a command pushes where nothing stalls (rules R74, R210, R250). -/
def State.responsesOf (s : State) : Instr → List Byte
  | .select _     => []
  | .shiftNone _  => []
  | .shiftOut _ _ => []
  | .shiftIn n    => s.sampledBytes n.toNat
  | .shiftIo n _  => s.sampledBytes n.toNat
  | .delay _      => []
  | .sync         => [0x00]
  | .oe _         => []

theorem sampledBytes_length (s : State) (n : Nat) : (s.sampledBytes n).length = n := by
  induction n with
  | zero => rfl
  | succ n ih => rw [State.sampledBytes, List.length_append, ih, List.length_singleton]

/-- Rule R74: the accounting counts what a command pushes. -/
theorem responsesOf_length (s : State) (i : Instr) : (s.responsesOf i).length = responseCount i := by
  cases i with
  | shiftIn n => exact sampledBytes_length s _
  | shiftIo n payload => exact sampledBytes_length s _
  | _ => rfl

/-- From `s` the command `i` runs whole in the ticks it needs, pops its frame, pushes its responses, and leaves the
core, away from a boundary in between, at the next one. -/
def State.RunsCommand (s : State) (i : Instr) : Prop :=
  ∃ t events, Ran s t (ticksNeeded s.params i) (encode i).length (s.responsesOf i) events ∧
    t.core.state = .receiveCommand ∧ ∀ j, 0 < j → j < ticksNeeded s.params i → (ticks j s).atBoundary = false

section
variable {s : State} {rest : List Byte}

/-- A command of one byte whose opcode records no fault, pushes nothing and leaves the core where it is. -/
theorem runsCommand_of_one_byte {i : Instr} {b : Byte} {r : Regs} {events : List BusEvent} (h : s.Ready)
    (henc : encode i = [b]) (hq : s.cmdq = b :: rest) (hu : s.Undisturbed 1)
    (ho : acceptOpcode b s.core = { regs := r, pop := true, events := events })
    (hs : r.state = .receiveCommand) (hticks : ticksNeeded s.params i = 1) (hrsp : s.responsesOf i = []) :
    s.RunsCommand i := by
  obtain ⟨-, hf, -⟩ := id h
  obtain ⟨hran, hcore⟩ := Ran.one (pops := 1) (rsp := []) (hu.noReset 0 one_pos) hf
    ((coreStep_of_ready h hq).trans ho) rfl rfl (fun _ => by simp [hq]) rfl rfl
  rw [State.RunsCommand, hticks, hrsp, henc]
  exact ⟨_, _, hran, by rw [hcore, hs], fun j h0 h1 => by omega⟩

theorem sendTick_lt_shiftTicks {p : Params} {n : Count} {k : Nat} (hk : k < n.toNat) :
    sendTick p k < shiftTicks p n := by
  have hbytes : (k + 1) * byteTicks p ≤ n.toNat * byteTicks p := Nat.mul_le_mul_right _ hk
  rw [Nat.succ_mul] at hbytes
  unfold sendTick transferStart transferTicks shiftTicks
  unfold byteTicks at hbytes ⊢
  omega

/-- A SHIFT whose bytes wait runs, SHIFT.NONE with a count above 0 only where a byte waits behind its frame. -/
theorem runsCommand_of_shift {i : Instr} {op : Byte} {n : Count} {vs : List Byte} (h : s.Ready)
    (hop : op ∈ ([0x10, 0x11, 0x12, 0x13] : List Byte))
    (henc : encode i = op :: countLo n :: countHi n :: if dataOut op then vs else []) (hlen : vs.length = n.toNat)
    (hzeros : dataOut op = false → ∀ v ∈ vs, v = 0)
    (hstart : dataOut op = false → dataIn op = false → vs ≠ [] → rest ≠ [])
    (hq : s.cmdq = encode i ++ rest) (hu : s.Undisturbed (shiftTicks s.params n))
    (hticks : ticksNeeded s.params i = shiftTicks s.params n)
    (hrsp : s.responsesOf i = s.shiftResponses op n.toNat) : s.RunsCommand i := by
  have hruns : s.RunsShift op n vs rest :=
    { ready := h, opcode := hop, header := by rw [hq, henc]; rfl, length := hlen, zeros := hzeros,
      starter := fun ho hd hne => List.append_ne_nil_of_left_ne_nil (hstart ho hd hne) _, noReset := hu.noReset,
      room := fun _ k hk => hu.room _ (sendTick_lt_shiftTicks hk) }
  obtain ⟨t, hran, hcore, haway⟩ := hruns.ran
  obtain ⟨-, -, hs, -⟩ := h
  rw [State.RunsCommand, hticks, hrsp, henc, encode_shift_length hlen]
  exact ⟨t, _, hran, by rw [hcore]; exact hs, haway⟩

/-- Rule R337: a command whose frame waits runs in the ticks it needs. -/
theorem runsCommand {i : Instr} (h : s.Ready) (hwf : i.WF) (hq : s.cmdq = encode i ++ rest)
    (hu : s.Undisturbed (ticksNeeded s.params i)) (hstart : ∀ n, i = .shiftNone n → n ≠ 0 → rest ≠ []) :
    s.RunsCommand i := by
  obtain ⟨-, -, hs, -⟩ := id h
  cases i with
  | select level => exact runsCommand_of_one_byte h rfl hq hu (acceptOpcode_select level _) hs rfl rfl
  | oe enable => exact runsCommand_of_one_byte h rfl hq hu (acceptOpcode_oe enable _) hs rfl rfl
  | sync =>
    obtain ⟨hran, hcore, haway⟩ := ran_whole_sync (j := 0) h hu.noReset hq nofun (hu.room 1 one_lt_two)
    exact ⟨_, _, hran, by rw [hcore]; exact hs, haway⟩
  | delay n =>
    obtain ⟨t, hran, hcore, haway⟩ := ran_whole_delay h hu.noReset hq
    exact ⟨t, _, hran, by rw [hcore]; exact hs, haway⟩
  | shiftNone n =>
    exact runsCommand_of_shift (op := 0x10) (vs := List.replicate n.toNat 0) h (by decide) rfl List.length_replicate
      (fun _ v hv => List.eq_of_mem_replicate hv)
      (fun _ _ hne => hstart n rfl fun h0 => hne (by rw [h0]; rfl)) hq hu rfl rfl
  | shiftOut n payload =>
    exact runsCommand_of_shift (op := 0x11) h (by decide) rfl ((shiftOut_wf_iff n payload).mp hwf) nofun nofun hq hu
      rfl rfl
  | shiftIn n =>
    exact runsCommand_of_shift (op := 0x12) (vs := List.replicate n.toNat 0) h (by decide) rfl List.length_replicate
      (fun _ v hv => List.eq_of_mem_replicate hv) (fun _ hd => absurd hd (by decide)) hq hu rfl rfl
  | shiftIo n payload =>
    exact runsCommand_of_shift (op := 0x13) h (by decide) rfl ((shiftIo_wf_iff n payload).mp hwf) nofun nofun hq hu
      rfl rfl

/-- No tick of a command is quiescent: its frame waits in the first, and the others are away from a boundary. -/
theorem not_quiescent_during {k : Nat} (hq : s.cmdq ≠ [])
    (haway : ∀ j, 0 < j → j < k → (ticks j s).atBoundary = false) {j : Nat} (hj : j < k) :
    ¬(ticks j s).Quiescent := by
  rintro ⟨hs, hempty⟩
  rcases Nat.eq_zero_or_pos j with rfl | hpos
  · exact hq hempty
  · have hboundary := haway j hpos hj
    rw [State.atBoundary, hs] at hboundary
    cases hboundary

/-! ### Programs -/

/-- The ticks that the commands of a program need one after the other (rule R337). -/
abbrev programTicks (p : Params) (program : List Instr) : Nat := (program.map (ticksNeeded p)).sum

/-- What a program pushes where nothing stalls. -/
def State.programResponses (s : State) : List Instr → List Byte
  | []      => []
  | i :: is => s.responsesOf i ++ (ticks (ticksNeeded s.params i) s).programResponses is

theorem programResponses_length (s : State) (program : List Instr) :
    (s.programResponses program).length = (program.map responseCount).sum := by
  induction program generalizing s with
  | nil => rfl
  | cons i is ih =>
    rw [State.programResponses, List.length_append, responsesOf_length, ih, List.map_cons, List.sum_cons]

/-- Behind a SHIFT.NONE of some bytes a program that ends well has another command, and so another byte. -/
theorem behind_ne_nil {i : Instr} {is : List Instr} {behind : List Byte} (htail : TailStarts (i :: is))
    (his : assemble is = some behind) (n : Count) (hi : i = .shiftNone n) (hn : n ≠ 0) : behind ≠ [] := by
  cases is with
  | nil => exact absurd (htail n (congrArg some hi)) hn
  | cons i' is =>
    obtain ⟨-, behind', -, rfl⟩ := assemble_cons_eq_some his
    exact List.append_ne_nil_of_left_ne_nil (encode_ne_nil i') _

theorem TailStarts.tail {i : Instr} {is : List Instr} (h : TailStarts (i :: is)) : TailStarts is := by
  intro n hn
  refine h n ?_
  rw [List.getLast?_cons, hn]
  rfl

/-- A program whose bytes wait runs in the ticks its commands need, quiescent in none of them. -/
theorem ran_program {program : List Instr} {bytes : List Byte} (hasm : assemble program = some bytes)
    (htail : TailStarts program) (h : s.Ready) (hq : s.cmdq = bytes)
    (hu : s.Undisturbed (programTicks s.params program)) :
    ∃ t events, Ran s t (programTicks s.params program) bytes.length (s.programResponses program) events ∧ t.Ready ∧
      ∀ j, j < programTicks s.params program → ¬(ticks j s).Quiescent := by
  induction program generalizing s bytes with
  | nil =>
    obtain ⟨-, hf, -⟩ := id h
    cases hasm
    exact ⟨s, [], Ran.refl hf, h, nofun⟩
  | cons i is ih =>
    obtain ⟨hwf, behind, hbehind, rfl⟩ := assemble_cons_eq_some hasm
    rw [programTicks, List.map_cons, List.sum_cons] at hu ⊢
    have hfirst : s.Undisturbed (ticksNeeded s.params i) := hu.mono (Nat.le_add_right _ _)
    obtain ⟨t, events, hran, hs, haway⟩ := runsCommand h hwf hq hfirst (behind_ne_nil htail hbehind)
    have hready : t.Ready := hran.ready h hs
    have hqt : t.cmdq = behind := by rw [hran.cmdq, hq, List.drop_left, hfirst.arrivals, List.append_nil]
    obtain ⟨u, events', hran', hready', hbusy⟩ := ih hbehind htail.tail hready hqt
      (by rw [hran.params, hran.isTicks]; exact hu.after)
    rw [hran.params] at hran' hbusy
    have hboth := hran.trans hran' (by rw [hq, List.length_append])
    rw [hran.isTicks] at hboth hbusy
    refine ⟨u, _, by rw [List.length_append]; exact hboth, hready', fun j hj => ?_⟩
    rcases Nat.lt_or_ge j (ticksNeeded s.params i) with hlt | hge
    · exact not_quiescent_during (by rw [hq]; exact List.append_ne_nil_of_left_ne_nil (encode_ne_nil i) _) haway hlt
    · obtain ⟨d, rfl⟩ := Nat.exists_eq_add_of_le hge
      rw [ticks_add]
      exact hbusy d (Nat.lt_of_add_lt_add_left hj)

end

/-- Settles O55: the program's run is quiescent at its end and, its commands filling every tick before, not
earlier. -/
theorem programsRunToQuiescence : Obligations.ProgramsRunToQuiescence := by
  intro program bytes s hasm htail h hq k hn hin
  have hu : s.Undisturbed k := .of_inputs hn hin
  obtain ⟨t, events, hran, ⟨-, hf, hs, -⟩, hbusy⟩ := ran_program hasm htail h hq hu
  have hempty : t.cmdq = [] := by rw [hran.cmdq, hq, List.drop_length, hu.arrivals]; rfl
  obtain rfl := hran.isTicks
  exact ⟨⟨⟨hn, fun j hj => ⟨fault_none_of_later hn hf hj.le, fun hover => hbusy j hj hover.2⟩⟩, hf,
      hq ▸ List.prefix_append _ _, hs, hempty⟩,
    hran.popped, _, programResponses_length s program, hran.responses⟩

/-! ### Host operations -/

/-- An operation that reads as many bytes as have been delivered returns them and leaves nothing unread. -/
theorem finish_of_delivered {op : HostOp} {s : State} (h : op.reads = s.delivered.length) :
    ∃ t, op.finish s = some (op.result s.delivered, t) ∧ t.delivered = [] := by
  refine ⟨_, finish_eq_some_iff.mpr ⟨h.le, ?_, rfl⟩, ?_⟩
  · rw [h, List.take_length]
  · rw [h]
    exact List.drop_length

/-- A program's responses, once the transport has delivered all of them, are what the host finds. -/
theorem delivered_after_program {program : List Instr} {wire : List Byte} {s : State} {d : Nat}
    (hasm : assemble program = some wire) (htail : TailStarts program) (h : s.Ready) (hq : s.cmdq = wire)
    (hdel : s.delivered = []) (hrsp : s.rspq = []) (hd : programTicks s.params program ≤ d) (hu : s.Undisturbed d)
    (hall : (ticks d s).rspq = []) : (ticks d s).delivered = s.programResponses program := by
  obtain ⟨m, rfl⟩ := Nat.exists_eq_add_of_le hd
  have hfirst : s.Undisturbed (programTicks s.params program) := hu.mono hd
  obtain ⟨t, events, hran, hready, -⟩ := ran_program hasm htail h hq hfirst
  have hempty : t.cmdq = [] := by rw [hran.cmdq, hq, List.drop_length, hfirst.arrivals]; rfl
  have hwhole := hran.trans_quiet (ran_idle (k := m) hready hempty (hran.isTicks ▸ hu.after))
  have hresponses := (hwhole.isTicks ▸ hwhole).responses
  rwa [hall, hdel, hrsp, List.append_nil, List.append_nil, List.append_nil, List.nil_append] at hresponses

/-- Settles O58: the operation reads as many bytes as its frames produce, and these are all that was delivered. -/
theorem hostOperationsFinish : Obligations.HostOperationsFinish := by
  intro op wire s d hasm hreads htail h hq hdel hrsp hd hn hin hall
  have hdelivered := delivered_after_program hasm htail h hq hdel hrsp hd (.of_inputs hn hin) hall
  have hlen : op.reads = (ticks d s).delivered.length := by rw [hdelivered, programResponses_length, hreads]
  obtain ⟨t, hfinish, hunread⟩ := finish_of_delivered hlen
  exact ⟨_, t, hlen.symm, hfinish, hunread⟩

theorem chunkCounts_of_le {units : Nat} (h : units ≤ chunkSize) :
    chunkCounts units = if units = 0 then [] else [units] := by
  unfold chunkCounts
  rcases h.lt_or_eq with hlt | rfl
  · rw [Nat.div_eq_of_lt hlt, Nat.mod_eq_of_lt hlt]
    rfl
  · rfl

theorem countFrames_of_count (f : Count → Instr) (n : Count) :
    countFrames f n.toNat = if n.toNat = 0 then [] else [f n] := by
  rw [countFrames, chunkCounts_of_le (Nat.le_of_lt_succ n.isLt), apply_ite (List.map _)]
  simp

theorem payloadFrames_of_count (f : Count → List Byte → Instr) {n : Count} {bytes : List Byte}
    (h : bytes.length = n.toNat) : payloadFrames f bytes = if n.toNat = 0 then [] else [f n bytes] := by
  rw [payloadFrames, h, chunkCounts_of_le (Nat.le_of_lt_succ n.isLt), ← h, apply_ite (chunkPayload · bytes),
    apply_ite (List.map _)]
  simp [chunkPayload, h, List.take_of_length_le h.le]

/-- An `exchange` or a `read` of at most one frame: no frame for no byte, else the one frame of its count. -/
theorem frames_of_one_count {op : HostOp} {n : Count}
    (h : (∃ bytes : List Byte, bytes.length = n.toNat ∧ exchangeOp bytes = .ok op) ∨ readOp n.toNat .single = .ok op) :
    op.reads = n.toNat ∧ op.returns = true ∧
      ∃ i, op.frames = (if n.toNat = 0 then [] else [i]) ∧ (i = .shiftIn n ∨ ∃ bytes, i = .shiftIo n bytes) := by
  rcases h with ⟨bytes, hlen, hop⟩ | hop
  · rw [exchangeOp_eq] at hop
    cases hop
    exact ⟨hlen, rfl, _, payloadFrames_of_count _ hlen, .inr ⟨bytes, rfl⟩⟩
  · rw [readOp_single] at hop
    cases hop
    exact ⟨rfl, rfl, _, countFrames_of_count _ n, .inl rfl⟩

/-- The frame of an `exchange` or a `read`, where there is one, as a program: it takes at most the ticks of its
SHIFT and pushes the bytes sampled. -/
theorem program_of_one_count {i : Instr} {n : Count} (h : i = .shiftIn n ∨ ∃ bytes, i = .shiftIo n bytes) (s : State) :
    let frames := if n.toNat = 0 then [] else [i]
    TailStarts frames ∧ programTicks s.params frames ≤ shiftTicks s.params n ∧
      s.programResponses frames = s.sampledBytes n.toNat := by
  intro frames
  by_cases h0 : n.toNat = 0
  · rw [show frames = [] from if_pos h0, h0]
    exact ⟨nofun, Nat.zero_le _, rfl⟩
  · rw [show frames = [i] from if_neg h0]
    rcases h with rfl | ⟨bytes, rfl⟩
    · exact ⟨nofun, le_rfl, List.append_nil _⟩
    · exact ⟨nofun, le_rfl, List.append_nil _⟩

/-- Settles O59: what has been delivered is what the one frame's SHIFT sampled, and the operation returns it. -/
theorem exchangeAndReadReturnTheSampledBytes : Obligations.ExchangeAndReadReturnTheSampledBytes := by
  intro op n wire s d hop hasm h hq hdel hrsp hd hn hin hall
  obtain ⟨hreads, hreturns, i, hframes, hi⟩ := frames_of_one_count hop
  obtain ⟨htail, hticks, hsampled⟩ := program_of_one_count hi s
  rw [hframes] at hasm
  have hdelivered : (ticks d s).delivered = s.sampledBytes n.toNat :=
    (delivered_after_program hasm htail h hq hdel hrsp (hticks.trans hd) (.of_inputs hn hin) hall).trans hsampled
  obtain ⟨t, hfinish, hunread⟩ := finish_of_delivered (op := op) (s := ticks d s)
    (by rw [hdelivered, sampledBytes_length, hreads])
  rw [hdelivered, HostOp.result, if_pos hreturns] at hfinish
  exact ⟨t, hfinish, hunread⟩

end Sys2Proof.Machine
